-- ==== Sys2Proof/Word.lean ====
section
/-! DEFINITION. The widths of the block (00_scope.md R7 to R10): 32-bit registers and data addresses, bytes,
23-bit hash values, and the sentinel `NONE`. -/

namespace Sys2Proof

/-- A 32-bit register value, data address or array entry (10_state.md R21, 00_scope.md R9). -/
abbrev Word := BitVec 32

/-- One byte of data memory (00_scope.md R11). -/
abbrev Byte := BitVec 8

/-- A value modulo `2^23`, as the removal table holds it (10_state.md R39). -/
abbrev Hash := BitVec 23

/-- The sentinel for "empty" and "none" (00_scope.md R10). -/
abbrev noneWord : Word := 0xFFFFFFFF

/-- The number of data addresses, `2^AW` with `AW = 32` (00_scope.md R8, 20_memory.md R60). -/
abbrev addrSpace : Nat := 4294967296

end Sys2Proof
end

