-- ==== Sys2Proof/Config.lean ====
section
/-! DEFINITION. What is fixed for the machine: the constants the spec gives (00_scope.md R7 and R8), the open
platform parameters as plain data (R8: `MAX_BLOCKS`, `MAX_TBLSIZ`, `REG_BASE`, `DataMem`), and the free values for what the
spec leaves unspecified (10_state.md R39 to R43 and R47). -/

namespace Sys2Proof

/-- `HASH_MULT` (00_scope.md R7). -/
abbrev Config.hashMult : Nat := 257

/-- `HASH_MOD = 2^23` (00_scope.md R7). -/
abbrev Config.hashMod : Nat := 8388608

/-- `MAXPROBES`, the probe budget of one chain scan (00_scope.md R7, 10_state.md R28). -/
abbrev Config.maxProbes : Nat := 16

/-- `WORD_SIZE`, the divisor of the table-size formula (00_scope.md R8, 92_eei_decisions.md D6). -/
abbrev Config.wordSize : Nat := 4

/-- The reset value of `MAXCAND` (10_state.md R29). -/
abbrev Config.maxCandReset : Word := 32

/-- The bytes the register block occupies at `REG_BASE` (10_state.md R21). -/
abbrev Config.regBlockBytes : Nat := 256

/-- What the platform has put at a range of data addresses. A `memory` byte is readable without side effects (20_memory.md R63).
A `device` byte has read side effects, which the block's read port does not allow (R67). -/
inductive RegionKind where
  | memory
  | device
  deriving DecidableEq, Repr

/-- A range `[base, base + size)` of data addresses. -/
structure Region where
  base : Nat
  size : Nat
  kind : RegionKind
  deriving DecidableEq, Repr

/-- The open platform parameters (00_scope.md R8), held as plain data so that every statement can range over all of them.
`dataMap` is the predicate `DataMem` of 20_memory.md R63 as a list of regions: any set of 32-bit addresses can be written so. -/
structure Platform where
  /-- `REG_BASE`, the host address of the register block (20_memory.md R68). -/
  regBase : Nat
  /-- `MAX_BLOCKS`, the entries of `NEXT` and of `LAST` (10_state.md R30). -/
  maxBlocks : Word
  /-- `MAX_TBLSIZ`, the entries of `HEAD` (10_state.md R31). -/
  maxTblsiz : Word
  /-- The data map; an address in no region is one where `DataMem` does not hold. -/
  dataMap : List Region
  deriving DecidableEq, Repr

/-- The platform that `State.reset` is put on (DESIGN CHOICE, notes/assumptions/1.md: the spec leaves all of it OPEN): every
data byte readable, as the programs of 95_test_vectors.md section 3 assume, and capacities no IX_INIT can exceed. -/
def Platform.default : Platform :=
  { regBase := 0, maxBlocks := 0x55555555, maxTblsiz := 0x40000000, dataMap := [⟨0, addrSpace, .memory⟩] }

/-- The removal table after a reset or a failed RH_INIT: unspecified (10_state.md R39), so nothing is known of it. -/
opaque Config.freeRemtab : Nat → Vector Hash 256

/-- The entries of an index array after a soft or hard reset: unspecified (10_state.md R40 to R42). -/
opaque Config.freeTable : Nat → List (Nat × Word)

/-- A word of the latch after a soft or hard reset: unspecified (10_state.md R43 and R47). -/
opaque Config.freeWord : Nat → Word

end Sys2Proof
end

