-- ==== Sys2Proof/Syntax.lean ====
section
/-! DEFINITION. The commands (30_encoding.md R82), the register names (10_state.md R21), and what the agents around
the core do: the host's primitives (R88), the turns of the interleaving (20_memory.md R70), the pseudo-instructions (R89), and
the ops of the reference host program (45_host_delta_encoder.md R201). -/

namespace Sys2Proof

/-- The eight commands, one constructor per row of spec/opcode_table.json (30_encoding.md R82). A command word has no operand
field: every operand is an argument register latched at issue (R84), so no constructor carries one. -/
inductive Instr where
  | rhInit
  | rhHash
  | rhUpdate
  | ixInit
  | ixAdd
  | ixFirst
  | ixNext
  | ixBest
  deriving DecidableEq, Repr

/-- The 23 host-visible registers (10_state.md R20 and R21). -/
inductive Reg where
  | cmd
  | status
  | ctrl
  | errInfo
  | arg0
  | arg1
  | arg2
  | arg3
  | res0
  | res1
  | res2
  | res3
  | maxProbes
  | maxCand
  | capBlocks
  | capTblsiz
  | rhW
  | rhMult
  | ixRefBase
  | ixRefLen
  | ixNblk
  | ixTblsiz
  | ixLastblk
  deriving DecidableEq, Repr

/-- What a host program does next, in its program order (30_encoding.md R88 and R92). -/
inductive HostOp where
  /-- `WR`: a register write of `value`, `width` bytes wide, at host address `addr`. -/
  | wr (addr : Nat) (width : Nat) (value : Word)
  /-- `RD`: a register read, `width` bytes wide, at host address `addr`. -/
  | rd (addr : Nat) (width : Nat)
  /-- `WAIT`: read STATUS, and again while BUSY reads 1 (30_encoding.md R89). -/
  | wait
  /-- The host writes one byte of its data memory (20_memory.md R71 to R74). -/
  | store (addr : Word) (value : Byte)
  deriving DecidableEq, Repr

/-- Which agent moves next in the interleaving of 20_memory.md R70, with the platform's own events. -/
inductive Turn where
  /-- The host makes the next access of its program. -/
  | host
  /-- The core takes its step, if a command is pending (44_control.md R181). -/
  | core
  /-- The platform asserts the reset input (70_reset_and_hazards.md R260). -/
  | hardReset
  /-- Another agent of the platform writes a data byte (20_memory.md R73). -/
  | busWrite (addr : Word) (value : Byte)
  deriving DecidableEq, Repr

/-- The pseudo-instructions of host assembly (30_encoding.md R89). -/
inductive Pseudo where
  | wait
  | rhInit (w : Word)
  | rhHash (p : Word)
  | rhUpdate (h d a : Word)
  | ixInit (rb n : Word)
  | ixAdd (i h : Word)
  | ixFirst (h tp : Word)
  | ixNext (b tp : Word)
  | ixBest (h tp tb tl : Word)
  | setCand (n : Word)
  | srst
  | check
  deriving DecidableEq, Repr

/-- An op of the encoder's output; offsets count from the target's first byte (45_host_delta_encoder.md R201). -/
inductive DeltaOp where
  | add (targetOffset length : Nat)
  | copy (sourceOffset length : Nat)
  deriving DecidableEq, Repr

end Sys2Proof
end

