-- ==== Sys2Proof/WellFormed.lean ====
section
/-! DEFINITION. What is well formed: a command word's must-be-zero field (30_encoding.md R80), a host register access's width
and alignment (20_memory.md R64), and the platform parameters' stated bounds (00_scope.md R8). -/

namespace Sys2Proof

/-- A command carries no operand field, so every term of `Instr` is a command of the block (30_encoding.md R82 and R84). -/
def Instr.wellFormed : Instr → Bool
  | .rhInit => true
  | .rhHash => true
  | .rhUpdate => true
  | .ixInit => true
  | .ixAdd => true
  | .ixFirst => true
  | .ixNext => true
  | .ixBest => true

/-- The `mbz` field of a command word is zero (30_encoding.md R80). -/
def mbzClear (w : Word) : Bool := w.extractLsb' 8 24 == 0

/-- An access of `width` bytes at byte offset `off` of the register block is a naturally aligned 32-bit one (20_memory.md R64). -/
def accessWellFormed (off width : Nat) : Bool := width == 4 && off % 4 == 0

/-- A host primitive's register access, if it makes one, has the width and alignment R64 asks for, on a platform whose register
block stands at `regBase`. -/
def HostOp.wellFormed (regBase : Nat) : HostOp → Bool
  | .wr addr width _ => decide (regBase ≤ addr) && accessWellFormed (addr - regBase) width
  | .rd addr width => decide (regBase ≤ addr) && accessWellFormed (addr - regBase) width
  | .wait => true
  | .store _ _ => true

/-- `n` is a power of two within 32 bits. -/
def isPowerOfTwo (n : Nat) : Bool := (List.range 32).any fun k => n == 2 ^ k

/-- The bounds the spec puts on the open parameters: each capacity at least 1, and `MAX_TBLSIZ` a power of two
(00_scope.md R8, 10_state.md R31). -/
def Platform.wellFormed (p : Platform) : Bool :=
  decide (1 ≤ p.maxBlocks.toNat) && isPowerOfTwo p.maxTblsiz.toNat

end Sys2Proof
end

