-- ==== Sys2Proof/Decode.lean ====
section
/-! DEFINITION. The decoder of 30_encoding.md R87, total on 32-bit words and refusing by name, and the encoder written from the
`match` column of R82. -/

namespace Sys2Proof

/-- Why a word is no command. -/
inductive DecodeError where
  /-- The word is outside the table of 30_encoding.md R82; it is what `IllegalCommand` reports (R83). -/
  | illegalCommand (word : Word)
  deriving DecidableEq, Repr

/-- Bits [7:0] of a command word (30_encoding.md R80). -/
def opField (w : Word) : Byte := w.extractLsb' 0 8

/-- The command an opcode names (30_encoding.md R82). -/
def decodeOp (op : Byte) : Option Instr :=
  if op = 0x01 then some .rhInit
  else if op = 0x02 then some .rhHash
  else if op = 0x03 then some .rhUpdate
  else if op = 0x10 then some .ixInit
  else if op = 0x11 then some .ixAdd
  else if op = 0x12 then some .ixFirst
  else if op = 0x13 then some .ixNext
  else if op = 0x14 then some .ixBest
  else none

/-- `decode` of 30_encoding.md R87: the must-be-zero field first, then the opcode. -/
def decode (w : Word) : Except DecodeError Instr :=
  if mbzClear w then
    match decodeOp (opField w) with
    | some i => .ok i
    | none => .error (.illegalCommand w)
  else .error (.illegalCommand w)

/-- The word a host writes to CMD to issue a command (30_encoding.md R82, the `match` column). -/
def encode : Instr → Word
  | .rhInit => 0x00000001
  | .rhHash => 0x00000002
  | .rhUpdate => 0x00000003
  | .ixInit => 0x00000010
  | .ixAdd => 0x00000011
  | .ixFirst => 0x00000012
  | .ixNext => 0x00000013
  | .ixBest => 0x00000014

/-- The 32-bit word whose low `nbits` bits are those of `w` and whose other bits are zero. -/
def tableWord (nbits w : Nat) : Word := BitVec.ofNat 32 (w % 2 ^ nbits)

/-- What the decoder reads from a word of spec/opcode_table.json. -/
def decodeTableWord (nbits w : Nat) : Option Instr :=
  match decode (tableWord nbits w) with
  | .ok i => some i
  | .error _ => none

end Sys2Proof
end

