-- ==== Sys2Proof/Machine/State.lean ====
section
/-! DEFINITION. The machine's state as plain data: the register file and the internal state of 10_state.md (R20), data memory
(20_memory.md R60), the platform's parameters, and the host agent (20_memory.md R70); the reasons a step can stop; and the
state after reset (70_reset_and_hazards.md R262). -/

namespace Sys2Proof.Machine

/-- Why a run faults. -/
inductive Fault where
  /-- 20_memory.md R73: while a command runs, the host or another agent writes a byte inside its read range. Raised by a host
  store or a bus write while BUSY = 1. Safe: the spec gives the run no meaning past this point. -/
  | dataRace
  deriving DecidableEq, Repr

/-- Why a step is refused. -/
inductive Refusal where
  /-- An instruction with no meaning yet. Safe. No arm of this model uses it. -/
  | notModelled (mnemonic : String)
  /-- 20_memory.md R64: a host register access that is not 32 bits wide or not aligned. Raised by a host step. Safe. -/
  | registerAccessForm
  /-- A host access that is not to the register block (10_state.md R21): it belongs to another unit of the platform. Raised by a host step.
  Safe. -/
  | outsideRegisterBlock
  /-- 20_memory.md R67: a device with read side effects stands in the pending command's read range, at this address among others. Raised by
  the core's step before the command runs, and by a command at a device byte it reaches. Safe. -/
  | deviceRead (addr : Nat)
  /-- A write of a data byte that belongs to such a device (20_memory.md R67): the spec does not say what the device does. Raised by a
  host store or a bus write. Safe. -/
  | deviceWrite (addr : Word)
  deriving DecidableEq, Repr

/-- The error kinds of 60_exceptions.md R230. -/
inductive ErrKind where
  | invalidWindow
  | invalidIndex
  | duplicateBlock
  | allocationFailure
  | tableSize
  | notConfigured
  | illegalCommand
  | invalidArgument
  | memoryFault
  deriving DecidableEq, Repr

/-- The sequencer's state `SEQ` (10_state.md R43); `STATUS.BUSY` is its view. -/
inductive SeqState where
  | idle
  | busy
  deriving DecidableEq, Repr

/-- The latch `PEND` (10_state.md R43). -/
structure Latch where
  op : Byte
  cmdword : Word
  a0 : Word
  a1 : Word
  a2 : Word
  a3 : Word
  maxcand : Word
  deriving DecidableEq, Repr

/-- Everything the spec gives the machine. `CMD` and `CTRL` hold no state (10_state.md R22 and R24), `MAXPROBES`, `CAP_BLOCKS`
and `CAP_TBLSIZ` are constants (R28, R30, R31), and `STATUS.BUSY` mirrors `seq` (R43). -/
structure State where
  /-- `STATUS.DONE` (R23). -/
  done : Bool
  /-- `STATUS.ERR`, sticky (R23). -/
  err : Bool
  /-- `STATUS.OVR`, sticky (R23). -/
  ovr : Bool
  /-- `STATUS.RH_VALID` (R23). -/
  rhValid : Bool
  /-- `STATUS.IX_VALID` (R23). -/
  ixValid : Bool
  /-- `STATUS.LAST_ERR` (R23). -/
  lastErr : Byte
  /-- `STATUS.LAST_OP` (R23). -/
  lastOp : Byte
  /-- `ERRINFO` (R25). -/
  errInfo : Word
  /-- `ARG0` to `ARG3` (R26). -/
  arg0 : Word
  arg1 : Word
  arg2 : Word
  arg3 : Word
  /-- `RES0` to `RES3` (R27). -/
  res0 : Word
  res1 : Word
  res2 : Word
  res3 : Word
  /-- `MAXCAND` (R29). -/
  maxCand : Word
  /-- `RH_W` (R32). -/
  rhW : Word
  /-- `RH_MULT` (R33). -/
  rhMult : Word
  /-- `IX_REFBASE` (R34). -/
  ixRefBase : Word
  /-- `IX_REFLEN` (R35). -/
  ixRefLen : Word
  /-- `IX_NBLK` (R36). -/
  ixNblk : Word
  /-- `IX_TBLSIZ` (R37). -/
  ixTblsiz : Word
  /-- `IX_LASTBLK` (R38). -/
  ixLastblk : Word
  /-- `REMTAB` (R39). -/
  remtab : Vector Hash 256
  /-- `HEAD` (R40): the entries that are not `NONE`, by rising index. -/
  headTab : List (Nat × Word)
  /-- `NEXT` (R41), in the same form. -/
  nextTab : List (Nat × Word)
  /-- `LAST` (R42), in the same form. -/
  lastTab : List (Nat × Word)
  /-- `SEQ` (R43). -/
  seq : SeqState
  /-- `PEND` (R43). -/
  pend : Latch
  /-- The platform's open parameters (00_scope.md R8); no step changes them. -/
  platform : Platform
  /-- Data memory (20_memory.md R60): the bytes that are not zero, by rising address. -/
  mem : List Host.Cell
  /-- The accesses the host program has still to make, in program order (30_encoding.md R92). -/
  program : List HostOp
  /-- The turns of the interleaving still to come (20_memory.md R70). -/
  schedule : List Turn
  /-- The values the host's register reads have returned, newest first, each with its offset (30_encoding.md R88). -/
  hostReads : List (Nat × Word)
  /-- The model's own counter: each use of a free value advances it. -/
  freeCtr : Nat
  deriving DecidableEq, Repr

/-- The state after reset on a platform (10_state.md R47, 70_reset_and_hazards.md R262). The spec leaves `PEND`, `REMTAB`, `HEAD`,
`NEXT` and `LAST` unspecified; the zero and empty values here are a DESIGN CHOICE (notes/assumptions/2.md), as is data memory with
nothing listed (notes/assumptions/3.md). -/
def State.resetOn (p : Platform) : State :=
  { done := false, err := false, ovr := false, rhValid := false, ixValid := false, lastErr := 0, lastOp := 0
    errInfo := 0
    arg0 := 0, arg1 := 0, arg2 := 0, arg3 := 0
    res0 := 0, res1 := 0, res2 := 0, res3 := 0
    maxCand := Config.maxCandReset
    rhW := 0, rhMult := 0
    ixRefBase := 0, ixRefLen := 0, ixNblk := 0, ixTblsiz := 0, ixLastblk := noneWord
    remtab := Vector.replicate 256 0
    headTab := [], nextTab := [], lastTab := []
    seq := .idle
    pend := { op := 0, cmdword := 0, a0 := 0, a1 := 0, a2 := 0, a3 := 0, maxcand := 0 }
    platform := p
    mem := []
    program := [], schedule := [], hostReads := []
    freeCtr := 0 }

/-- The machine right after reset, on the platform the model names. -/
def State.reset : State := State.resetOn Platform.default

end Sys2Proof.Machine
end

