-- ==== Sys2Proof/Machine/Flags.lean ====
section
/-! DEFINITION. The STATUS register (10_state.md R23): its word, its BUSY bit as a view of the sequencer, and the error codes of
60_exceptions.md R230. The block has no other flag register (10_state.md R45). -/

namespace Sys2Proof.Machine

/-- The code LAST_ERR holds after an error (60_exceptions.md R230). -/
def ErrKind.code : ErrKind → Byte
  | .invalidWindow => 1
  | .invalidIndex => 2
  | .duplicateBlock => 3
  | .allocationFailure => 4
  | .tableSize => 5
  | .notConfigured => 6
  | .illegalCommand => 7
  | .invalidArgument => 8
  | .memoryFault => 9

/-- The kinds whose raising clears IX_VALID (60_exceptions.md R242). -/
def ErrKind.invalidatesIndex : ErrKind → Bool
  | .invalidIndex => true
  | .duplicateBlock => true
  | .invalidWindow => false
  | .allocationFailure => false
  | .tableSize => false
  | .notConfigured => false
  | .illegalCommand => false
  | .invalidArgument => false
  | .memoryFault => false

/-- `STATUS.BUSY`, the mirror of `SEQ` (10_state.md R43). -/
def State.busy (s : State) : Bool := s.seq == .busy

/-- The STATUS word, its fields from bit 31 down to bit 0 as R23 places them; reserved fields read 0. -/
def State.statusWord (s : State) : Word :=
  0#8 ++ s.lastOp ++ s.lastErr ++ 0#2 ++ BitVec.ofBool s.ixValid ++ BitVec.ofBool s.rhValid ++ BitVec.ofBool s.ovr ++
    BitVec.ofBool s.err ++ BitVec.ofBool s.done ++ BitVec.ofBool s.busy

/-- A write ignored because BUSY = 1 leaves only the sticky OVR behind (44_control.md R182, 60_exceptions.md R243). -/
def State.overrun (s : State) : State := { s with ovr := true }

end Sys2Proof.Machine
end

