-- ==== Sys2Proof/Machine/Ops.lean ====
section
/-! DEFINITION. The named operations over memory, the internal arrays and the registers: sparse tables in one canonical
form, the byte read of 00_scope.md R11, the two completions of 60_exceptions.md (R240, and R241 with R242: the one way an error
is taken; the block has no trap to enter or return from, R246), command issue (44_control.md R180) and the post-reset state
(70_reset_and_hazards.md R262). -/

namespace Sys2Proof.Machine

/-! ### Sparse tables: keys strictly rising, no entry equal to what an unlisted key reads as -/

/-- What `key` reads as. -/
def Sparse.get {β : Type} (dflt : β) : List (Nat × β) → Nat → β
  | [], _ => dflt
  | (k, v) :: rest, key => if k = key then v else Sparse.get dflt rest key

/-- Write `value` at `key`, keeping the canonical form. -/
def Sparse.set {β : Type} [DecidableEq β] (dflt : β) : List (Nat × β) → Nat → β → List (Nat × β)
  | [], key, value => if value = dflt then [] else [(key, value)]
  | (k, v) :: rest, key, value =>
    if key < k then (if value = dflt then (k, v) :: rest else (key, value) :: (k, v) :: rest)
    else if key = k then (if value = dflt then rest else (key, value) :: rest)
    else (k, v) :: Sparse.set dflt rest key value

/-- Every key is above `low`, the keys rise strictly, and no entry is the default. -/
def Sparse.wfFrom {β : Type} [DecidableEq β] (dflt : β) : Option Nat → List (Nat × β) → Bool
  | _, [] => true
  | low, (k, v) :: rest => low.all (· < k) && decide (v ≠ dflt) && Sparse.wfFrom dflt (some k) rest

/-- The canonical form, in which equal tables are equal lists. -/
def Sparse.wf {β : Type} [DecidableEq β] (dflt : β) (t : List (Nat × β)) : Bool := Sparse.wfFrom dflt none t

/-- The canonical form of any list of entries. -/
def Sparse.ofEntries {β : Type} [DecidableEq β] (dflt : β) (entries : List (Nat × β)) : List (Nat × β) :=
  entries.foldl (fun t e => Sparse.set dflt t e.1 e.2) []

/-- Set the keys below `n` to the default and keep the others. -/
def Sparse.clearBelow {β : Type} (n : Nat) (t : List (Nat × β)) : List (Nat × β) := t.filter fun e => decide (n ≤ e.1)

/-! ### Data memory -/

/-- What a byte that nothing has written reads as (DESIGN CHOICE, notes/assumptions/3.md). -/
def Memory.unlisted : Byte := 0

/-- The byte at a data address. -/
def Memory.read (m : List Host.Cell) (a : Nat) : Byte := Sparse.get Memory.unlisted m a

/-- The host or a bus agent writes a byte; the core never does (20_memory.md R61). -/
def Memory.write (m : List Host.Cell) (a : Nat) (v : Byte) : List Host.Cell := Sparse.set Memory.unlisted m a v

/-- Memory's canonical form, within the data space of 20_memory.md R60. -/
def Memory.wf (m : List Host.Cell) : Bool := Sparse.wf Memory.unlisted m && m.all fun c => decide (c.1 < addrSpace)

end Sys2Proof.Machine

namespace Sys2Proof

/-- Whether a region holds a data address. -/
def Region.holds (r : Region) (a : Nat) : Bool := decide (r.base ≤ a) && decide (a < r.base + r.size)

/-- What stands at a data address; `none` where `DataMem` does not hold (20_memory.md R63) and outside the data space (R60). -/
def Platform.kindAt (p : Platform) (a : Nat) : Option RegionKind :=
  if a < addrSpace then (p.dataMap.find? (·.holds a)).map (·.kind) else none

end Sys2Proof

namespace Sys2Proof.Machine

/-- Why a data read stops a command. -/
inductive ReadStop where
  /-- The read failed: `MemoryFault(addr)` (20_memory.md R63). -/
  | fails (addr : Nat)
  /-- The read reached a device with read side effects, which is outside the spec (20_memory.md R67). -/
  | device (addr : Nat)
  deriving DecidableEq, Repr

/-- `MemRead(addr, 1)` (00_scope.md R11, 20_memory.md R63). -/
def State.readByte (s : State) (a : Nat) : Except ReadStop Byte :=
  match s.platform.kindAt a with
  | some .memory => .ok (Memory.read s.mem a)
  | some .device => .error (.device a)
  | none => .error (.fails a)

/-- `n` one-byte reads at ascending addresses (00_scope.md R11), stopping at the first that fails. -/
def State.readBytes (s : State) : Nat → Nat → Except ReadStop (List Byte)
  | 0, _ => .ok []
  | n + 1, a =>
    match s.readByte a with
    | .error e => .error e
    | .ok x =>
      match s.readBytes n (a + 1) with
      | .error e => .error e
      | .ok xs => .ok (x :: xs)

/-! ### The internal arrays -/

/-- `HEAD[k]` (10_state.md R40). -/
def State.head (s : State) (k : Nat) : Word := Sparse.get noneWord s.headTab k

/-- `NEXT[b]` (10_state.md R41). -/
def State.nextOf (s : State) (b : Nat) : Word := Sparse.get noneWord s.nextTab b

/-- `LAST[b]` (10_state.md R42). -/
def State.lastOf (s : State) (b : Nat) : Word := Sparse.get noneWord s.lastTab b

/-- `REMTAB[v]` (10_state.md R39). -/
def State.removal (s : State) (v : Byte) : Hash := s.remtab[v.toFin]

/-! ### Completion -/

/-- Success completion with the four result registers' values, those a rule does not name given as 0 (60_exceptions.md R240,
10_state.md R27). -/
def State.complete (s : State) (r0 r1 r2 r3 : Word) : State :=
  { s with res0 := r0, res1 := r1, res2 := r2, res3 := r3, errInfo := 0, lastErr := 0, done := true, seq := .idle }

/-- Error completion of kind `e` with ERRINFO value `info`: what every `raise` performs (00_scope.md R12, 60_exceptions.md R241 and R242). -/
def State.raise (s : State) (e : ErrKind) (info : Word) : State :=
  { s with
    res0 := 0, res1 := 0, res2 := 0, res3 := 0
    errInfo := info
    lastErr := e.code
    err := true
    ixValid := if e.invalidatesIndex then false else s.ixValid
    done := true
    seq := .idle }

/-- How a command that reads data ends: with its result, with `MemoryFault(addr)` (60_exceptions.md R239), or refused at a device
byte (20_memory.md R67). -/
def State.finishRead {α : Type} (s : State) (r : Except ReadStop α) (k : α → State) : Host.Outcome State Fault Refusal :=
  match r with
  | .ok x => .next (k x)
  | .error (.fails a) => .next (s.raise .memoryFault (BitVec.ofNat 32 a))
  | .error (.device a) => .refused (.deviceRead a)

/-! ### Issue and reset -/

/-- Command issue: the host writes `v` to CMD while SEQ = IDLE (44_control.md R180, 10_state.md R43). -/
def State.issue (s : State) (v : Word) : State :=
  { s with
    pend :=
      { op := opField v, cmdword := v, a0 := s.arg0, a1 := s.arg1, a2 := s.arg2, a3 := s.arg3, maxcand := s.maxCand }
    seq := .busy
    done := false
    lastOp := opField v }

/-- The contents of an index array after a reset, in canonical form; the entries are a free value (10_state.md R47). -/
def freeArray (n : Nat) : List (Nat × Word) := Sparse.ofEntries noneWord (Config.freeTable n)

/-- The latch after a reset: a free value (10_state.md R47). -/
def freeLatch (n : Nat) : Latch :=
  { op := opField (Config.freeWord n), cmdword := Config.freeWord (n + 1), a0 := Config.freeWord (n + 2)
    a1 := Config.freeWord (n + 3), a2 := Config.freeWord (n + 4), a3 := Config.freeWord (n + 5)
    maxcand := Config.freeWord (n + 6) }

/-- The post-reset state (10_state.md R47, 70_reset_and_hazards.md R260 to R262): every register at its reset value, the internal
arrays and the latch unspecified. Data memory, the platform and the host agent are not the block's and stay. -/
def State.resetBlock (s : State) : State :=
  { s with
    done := false, err := false, ovr := false, rhValid := false, ixValid := false, lastErr := 0, lastOp := 0
    errInfo := 0
    arg0 := 0, arg1 := 0, arg2 := 0, arg3 := 0
    res0 := 0, res1 := 0, res2 := 0, res3 := 0
    maxCand := Config.maxCandReset
    rhW := 0, rhMult := 0
    ixRefBase := 0, ixRefLen := 0, ixNblk := 0, ixTblsiz := 0, ixLastblk := noneWord
    remtab := Config.freeRemtab s.freeCtr
    headTab := freeArray s.freeCtr, nextTab := freeArray (s.freeCtr + 1), lastTab := freeArray (s.freeCtr + 2)
    seq := .idle
    pend := freeLatch s.freeCtr
    freeCtr := s.freeCtr + 7 }

end Sys2Proof.Machine
end

