-- ==== Sys2Proof/Machine/Operands.lean ====
section
/-! DEFINITION. Operand assembly (30_encoding.md R84): every operand is a whole argument register taken from the latch, but for the
byte operands of RH_UPDATE; and the exact range check that 60_exceptions.md R238 makes of a pointer and a length. -/

namespace Sys2Proof.Machine

/-- The operands of a command, from the latch `PEND` (30_encoding.md R84, 10_state.md R43). -/
def State.operand0 (s : State) : Word := s.pend.a0

/-- ARG1 at issue. -/
def State.operand1 (s : State) : Word := s.pend.a1

/-- ARG2 at issue. -/
def State.operand2 (s : State) : Word := s.pend.a2

/-- ARG3 at issue. -/
def State.operand3 (s : State) : Word := s.pend.a3

/-- MAXCAND at issue (44_control.md R183). -/
def State.operandCap (s : State) : Word := s.pend.maxcand

/-- A byte operand: bits [7:0] of its register, if bits [31:8] are 0 (30_encoding.md R84). -/
def byteOperand (w : Word) : Option Byte :=
  if w.extractLsb' 8 24 = 0 then some (w.extractLsb' 0 8) else none

/-- `p + n > 2^32`, the sum taken exactly (60_exceptions.md R238). -/
def passesTop (p n : Word) : Bool := decide (addrSpace < p.toNat + n.toNat)

end Sys2Proof.Machine
end

