-- ==== Sys2Proof/Machine/BlockIndex.lean ====
section
/-! DEFINITION. The block-hash index (41_block_index.md): its geometry (R120 to R123), the chain append (R124), and the commands
IX_INIT (R125) and IX_ADD (R127). -/

namespace Sys2Proof.Machine

/-- The loop of `TableSize`: double `t` until it reaches `need`; 32 doublings always do (R121). -/
def tableSizeFrom (need : Nat) : Nat → Nat → Nat
  | 0, t => t
  | fuel + 1, t => if t < need then tableSizeFrom need fuel (2 * t) else t

/-- `TableSize(n)`: the least power of two not below `floor(n / WORD_SIZE) + 1` (R121). -/
def tableSize (n : Nat) : Nat := tableSizeFrom (n / Config.wordSize + 1) 32 1

/-- `NB = floor(N / W)` (R120). -/
def blockCount (n w : Nat) : Nat := n / w

/-- `Bucket(h) = h & (TS - 1)` (R123). -/
def State.bucket (s : State) (h : Word) : Nat := (h &&& (s.ixTblsiz - 1)).toNat

/-- The number of the block IX_ADD would append, `(IX_LASTBLK + 1) mod 2^32` (R126). -/
def State.nextBlock (s : State) : Word := s.ixLastblk + 1

/-- Block `b` is indexed (R128, 10_state.md R44). -/
def State.indexed (s : State) (b : Word) : Bool :=
  decide (s.ixLastblk ≠ noneWord) && decide (b.toNat ≤ s.ixLastblk.toNat)

/-- `Append(k, b)` (R124). -/
def State.append (s : State) (k : Nat) (b : Word) : State :=
  let hd := s.head k
  if hd = noneWord then
    { s with headTab := Sparse.set noneWord s.headTab k b, lastTab := Sparse.set noneWord s.lastTab b.toNat b }
  else
    let t := s.lastOf hd.toNat
    { s with
      nextTab := Sparse.set noneWord s.nextTab t.toNat b
      lastTab := Sparse.set noneWord s.lastTab hd.toNat b }

/-- IX_INIT's geometry registers, written once its argument checks pass (R122, R125). -/
def State.withGeometry (s : State) (rb n : Word) (nb ts : Nat) : State :=
  { s with
    ixRefBase := rb, ixRefLen := n, ixNblk := BitVec.ofNat 32 nb, ixTblsiz := BitVec.ofNat 32 ts
    ixLastblk := noneWord }

/-- IX_INIT's arrays: the entries in use become `NONE`, the others stay (R125, 10_state.md R40 to R42). -/
def State.withEmptyIndex (s : State) (nb ts : Nat) : State :=
  { s with
    headTab := Sparse.clearBelow ts s.headTab
    nextTab := Sparse.clearBelow nb s.nextTab
    lastTab := Sparse.clearBelow nb s.lastTab
    ixValid := true }

/-- IX_INIT (R125). -/
def execIxInit (s : State) : Host.Outcome State Fault Refusal :=
  if s.rhValid then
    let s1 := { s with ixValid := false }
    let rb := s.operand0
    let n := s.operand1
    if n = 0 then .next (s1.raise .tableSize 0)
    else if passesTop rb n then .next (s1.raise .invalidArgument 1)
    else
      let nb := blockCount n.toNat s.rhW.toNat
      let ts := tableSize n.toNat
      let s2 := s1.withGeometry rb n nb ts
      if s.platform.maxBlocks.toNat < nb ∨ s.platform.maxTblsiz.toNat < ts then .next (s2.raise .allocationFailure 0)
      else .next ((s2.withEmptyIndex nb ts).complete (BitVec.ofNat 32 nb) (BitVec.ofNat 32 ts) 0 0)
  else .next (s.raise .notConfigured 0)

/-- IX_ADD (R127). -/
def execIxAdd (s : State) : Host.Outcome State Fault Refusal :=
  if s.ixValid then
    let idx := s.operand0
    let h := s.operand1
    let b := s.nextBlock
    if idx.toNat ≠ b.toNat * s.rhW.toNat then .next (s.complete 0 noneWord 0 0)
    else if s.ixNblk.toNat ≤ b.toNat then .next (s.raise .invalidIndex b)
    else if s.indexed b then .next (s.raise .duplicateBlock b)
    else
      let s1 := { s.append (s.bucket h) b with ixLastblk := b }
      .next (s1.complete 1 b 0 0)
  else .next (s.raise .notConfigured 0)

end Sys2Proof.Machine
end

