-- ==== Sys2Proof/Machine/MatchVerify.lean ====
section
/-! DEFINITION. The byte-match verifier and the bounded chain scan (42_match_verify.md R140 and R141), and the commands IX_FIRST (R145)
and IX_NEXT (R146). -/

namespace Sys2Proof.Machine

/-- Compare `n` bytes at reference address `ra` with those at target address `ta`, ascending, the reference byte read first, stopping at the
first difference (R140, 92_eei_decisions.md D29). -/
def State.compareUp (s : State) : Nat → Nat → Nat → Except ReadStop Bool
  | 0, _, _ => .ok true
  | n + 1, ra, ta =>
    match s.readByte ra with
    | .error e => .error e
    | .ok x =>
      match s.readByte ta with
      | .error e => .error e
      | .ok y => if x = y then s.compareUp n (ra + 1) (ta + 1) else .ok false

/-- The data address of reference block `b` (41_block_index.md R120). -/
def State.blockAddr (s : State) (b : Nat) : Nat := s.ixRefBase.toNat + b * s.rhW.toNat

/-- `Verify(b, tp)` (R140). -/
def State.verify (s : State) (b tp : Nat) : Except ReadStop Bool := s.compareUp s.rhW.toNat (s.blockAddr b) tp

/-- `Scan(c, tp)` with `budget` probes left: the block found or `NONE`, and the number of probes made (R141, R142). -/
def State.scan (s : State) (tp : Nat) : Nat → Word → Except ReadStop (Word × Nat)
  | 0, _ => .ok (noneWord, 0)
  | budget + 1, c =>
    if c = noneWord then .ok (noneWord, 0)
    else
      match s.verify c.toNat tp with
      | .error e => .error e
      | .ok true => .ok (c, 1)
      | .ok false =>
        match s.scan tp budget (s.nextOf c.toNat) with
        | .error e => .error e
        | .ok (found, probes) => .ok (found, probes + 1)

/-- The first block a lookup of hash `h` probes: the head of its bucket (R145). -/
def State.firstOf (s : State) (h : Word) : Word := s.head (s.bucket h)

/-- IX_FIRST (R145). -/
def execIxFirst (s : State) : Host.Outcome State Fault Refusal :=
  if s.ixValid then
    let h := s.operand0
    let tp := s.operand1
    if passesTop tp s.rhW then .next (s.raise .invalidArgument 1)
    else
      s.finishRead (s.scan tp.toNat Config.maxProbes (s.firstOf h)) fun r =>
        s.complete r.1 (BitVec.ofNat 32 r.2) 0 0
  else .next (s.raise .notConfigured 0)

/-- IX_NEXT (R146). -/
def execIxNext (s : State) : Host.Outcome State Fault Refusal :=
  if s.ixValid then
    let b := s.operand0
    let tp := s.operand1
    if s.ixNblk.toNat ≤ b.toNat then .next (s.raise .invalidIndex b)
    else if passesTop tp s.rhW then .next (s.raise .invalidArgument 1)
    else
      s.finishRead (s.scan tp.toNat Config.maxProbes (s.nextOf b.toNat)) fun r =>
        s.complete r.1 (BitVec.ofNat 32 r.2) 0 0
  else .next (s.raise .notConfigured 0)

end Sys2Proof.Machine
end

