-- ==== Sys2Proof/Machine/BestMatch.lean ====
section
/-! DEFINITION. The left and right extender and the match selector (43_best_match.md R160 to R165), and the command IX_BEST (R166). -/

namespace Sys2Proof.Machine

/-- Count equal bytes downward from just below `ra` and `ta`, at most `limit`, stopping at the first difference (R160). -/
def State.equalDown (s : State) : Nat → Nat → Nat → Except ReadStop Nat
  | 0, _, _ => .ok 0
  | limit + 1, ra, ta =>
    match s.readByte (ra - 1) with
    | .error e => .error e
    | .ok x =>
      match s.readByte (ta - 1) with
      | .error e => .error e
      | .ok y =>
        if x = y then
          match s.equalDown limit (ra - 1) (ta - 1) with
          | .error e => .error e
          | .ok n => .ok (n + 1)
        else .ok 0

/-- Count equal bytes upward from `ra` and `ta`, at most `limit`, stopping at the first difference (R161). -/
def State.equalUp (s : State) : Nat → Nat → Nat → Except ReadStop Nat
  | 0, _, _ => .ok 0
  | limit + 1, ra, ta =>
    match s.readByte ra with
    | .error e => .error e
    | .ok x =>
      match s.readByte ta with
      | .error e => .error e
      | .ok y =>
        if x = y then
          match s.equalUp limit (ra + 1) (ta + 1) with
          | .error e => .error e
          | .ok n => .ok (n + 1)
        else .ok 0

/-- The target of an IX_BEST: window address, left bound, and bytes available from the window on (43_best_match.md, introduction). -/
structure Target where
  tp : Nat
  tb : Nat
  tl : Nat
  deriving DecidableEq, Repr

/-- A match (R162). -/
structure Match where
  block : Word
  sourceOffset : Nat
  targetOffset : Nat
  length : Nat
  deriving DecidableEq, Repr

/-- `ExtendLeft` for the block at reference offset `off` (R160). -/
def State.extendLeft (s : State) (off : Nat) (t : Target) : Except ReadStop Nat :=
  s.equalDown (min off (t.tp - t.tb)) (s.ixRefBase.toNat + off) t.tp

/-- `ExtendRight` for the block at reference offset `off` (R161). -/
def State.extendRight (s : State) (off : Nat) (t : Target) : Except ReadStop Nat :=
  s.equalUp (min (s.ixRefLen.toNat - (off + s.rhW.toNat)) (t.tl - s.rhW.toNat))
    (s.ixRefBase.toNat + off + s.rhW.toNat) (t.tp + s.rhW.toNat)

/-- A verified candidate, extended left and then right (R162, 92_eei_decisions.md D29). -/
def State.candidate (s : State) (c : Word) (t : Target) : Except ReadStop Match :=
  let off := c.toNat * s.rhW.toNat
  match s.extendLeft off t with
  | .error e => .error e
  | .ok le =>
    match s.extendRight off t with
    | .error e => .error e
    | .ok re =>
      .ok { block := c, sourceOffset := off - le, targetOffset := (t.tp - t.tb) - le, length := s.rhW.toNat + le + re }

/-- A candidate replaces the best so far only with a strictly greater length (R163). -/
def better (best : Option Match) (m : Match) : Option Match :=
  match best with
  | none => some m
  | some b => if b.length < m.length then some m else some b

/-- `BestMatch` with `cap` candidates still allowed: scan from `start`, evaluate what is found, go on behind it; no scan is made once
the cap is reached (R164, R165). -/
def State.bestFrom (s : State) (t : Target) : Nat → Word → Option Match → Except ReadStop (Option Match)
  | 0, _, best => .ok best
  | cap + 1, start, best =>
    match s.scan t.tp Config.maxProbes start with
    | .error e => .error e
    | .ok (c, _) =>
      if c = noneWord then .ok best
      else
        match s.candidate c t with
        | .error e => .error e
        | .ok m => s.bestFrom t cap (s.nextOf c.toNat) (better best m)

/-- IX_BEST's result registers (R166). -/
def State.completeBest (s : State) : Option Match → State
  | none => s.complete noneWord 0 0 0
  | some m =>
    s.complete m.block (BitVec.ofNat 32 m.sourceOffset) (BitVec.ofNat 32 m.targetOffset) (BitVec.ofNat 32 m.length)

/-- IX_BEST (R166). -/
def execIxBest (s : State) : Host.Outcome State Fault Refusal :=
  if s.ixValid then
    let h := s.operand0
    let tp := s.operand1
    let tb := s.operand2
    let tl := s.operand3
    if tp.toNat < tb.toNat then .next (s.raise .invalidArgument 2)
    else if tl.toNat < s.rhW.toNat then .next (s.raise .invalidArgument 3)
    else if passesTop tp tl then .next (s.raise .invalidArgument 3)
    else
      s.finishRead (s.bestFrom ⟨tp.toNat, tb.toNat, tl.toNat⟩ s.operandCap.toNat (s.firstOf h) none) s.completeBest
  else .next (s.raise .notConfigured 0)

end Sys2Proof.Machine
end

