-- ==== Sys2Proof/Machine/RollingHash.lean ====
section
/-! DEFINITION. The rolling-hash unit (40_rolling_hash.md): its functions (R100 to R105) and the commands RH_INIT, RH_HASH and
RH_UPDATE (R110 to R112). -/

namespace Sys2Proof.Machine

/-- `First2(x, y)`: no reduction (R100). -/
def first2 (x y : Nat) : Nat := x * Config.hashMult + y

/-- `Step(h, y)` (R100). -/
def hashStep (h y : Nat) : Nat := (h * Config.hashMult + y) % Config.hashMod

/-- `Hash_W(P)` over the window's bytes, the one at the lowest address first (R101, 20_memory.md R65). A window has at least three
bytes; the values for fewer are those of the same sum. -/
def hashWindow : List Byte → Nat
  | [] => 0
  | [x] => x.toNat
  | x :: y :: rest => rest.foldl (fun h b => hashStep h b.toNat) (first2 x.toNat y.toNat)

/-- `base ^ e % m` for `e < 2 ^ bits`, by squaring. -/
def powMod (base m : Nat) : Nat → Nat → Nat
  | 0, _ => 1 % m
  | bits + 1, e =>
    let half := powMod base m bits (e / 2)
    if e % 2 = 1 then half * half % m * base % m else half * half % m

/-- `Mult_W = 257^(W-1) mod 2^23` (R103). -/
def multW (w : Nat) : Nat := powMod Config.hashMult Config.hashMod 32 (w - 1)

/-- `Rem(v) = (-(v * mult)) mod 2^23`, the mathematical non-negative remainder (R103, 00_scope.md R9). -/
def remOf (mult v : Nat) : Nat := ((-((v : Int) * mult)) % Config.hashMod).toNat

/-- The removal table of a multiplier (R103, R110). -/
def removalTable (mult : Nat) : Vector Hash 256 := Vector.ofFn fun v => BitVec.ofNat 23 (remOf mult v.val)

/-- The slide, with the removal table's entry for the dropped byte given (R105). -/
def slide (old removed added : Nat) : Nat :=
  let shrunk := (old + removed) % Config.hashMod
  (shrunk * Config.hashMult + added) % Config.hashMod

/-- RH_INIT (R110). After a failed RH_INIT the removal table is unspecified (10_state.md R39): a free value. -/
def execRhInit (s : State) : Host.Outcome State Fault Refusal :=
  let w := s.operand0
  let s1 := { s with ixValid := false }
  if w.toNat ≤ 2 then
    let s2 :=
      { s1 with
        rhValid := false, rhW := 0, rhMult := 0, remtab := Config.freeRemtab s.freeCtr, freeCtr := s.freeCtr + 1 }
    .next (s2.raise .invalidWindow w)
  else
    let m := multW w.toNat
    let s2 := { s1 with remtab := removalTable m, rhW := w, rhMult := BitVec.ofNat 32 m, rhValid := true }
    .next (s2.complete (BitVec.ofNat 32 m) 0 0 0)

/-- RH_HASH (R111). -/
def execRhHash (s : State) : Host.Outcome State Fault Refusal :=
  if s.rhValid then
    let p := s.operand0
    if passesTop p s.rhW then .next (s.raise .invalidArgument 0)
    else
      s.finishRead (s.readBytes s.rhW.toNat p.toNat) fun bytes =>
        s.complete (BitVec.ofNat 32 (hashWindow bytes)) 0 0 0
  else .next (s.raise .notConfigured 0)

/-- RH_UPDATE (R112). -/
def execRhUpdate (s : State) : Host.Outcome State Fault Refusal :=
  if s.rhValid then
    match byteOperand s.operand1 with
    | none => .next (s.raise .invalidArgument 1)
    | some d =>
      match byteOperand s.operand2 with
      | none => .next (s.raise .invalidArgument 2)
      | some a =>
        .next (s.complete (BitVec.ofNat 32 (slide s.operand0.toNat (s.removal d).toNat a.toNat)) 0 0 0)
  else .next (s.raise .notConfigured 0)

end Sys2Proof.Machine
end

