-- ==== Sys2Proof/Machine/Dispatch.lean ====
section
/-! DEFINITION. The meaning of each command (44_control.md R181): one arm per constructor. -/

namespace Sys2Proof.Machine

def exec (i : Instr) (s : State) : Host.Outcome State Fault Refusal :=
  match i with
  | .rhInit => Sys2Proof.Machine.execRhInit s
  | .rhHash => Sys2Proof.Machine.execRhHash s
  | .rhUpdate => Sys2Proof.Machine.execRhUpdate s
  | .ixInit => Sys2Proof.Machine.execIxInit s
  | .ixAdd => Sys2Proof.Machine.execIxAdd s
  | .ixFirst => Sys2Proof.Machine.execIxFirst s
  | .ixNext => Sys2Proof.Machine.execIxNext s
  | .ixBest => Sys2Proof.Machine.execIxBest s

end Sys2Proof.Machine
end

