-- ==== Sys2Proof/Machine/Control.lean ====
section
/-! DEFINITION. The register file as the host sees it (10_state.md R21 to R38): each register's offset, what a read returns
(44_control.md R187), and what a write does (R180, R182, R183, R185). -/

namespace Sys2Proof.Machine

/-- A register's byte offset from `REG_BASE` (10_state.md R21). -/
def regOffset : Reg → Nat
  | .cmd => 0x000
  | .status => 0x004
  | .ctrl => 0x008
  | .errInfo => 0x00C
  | .arg0 => 0x010
  | .arg1 => 0x014
  | .arg2 => 0x018
  | .arg3 => 0x01C
  | .res0 => 0x020
  | .res1 => 0x024
  | .res2 => 0x028
  | .res3 => 0x02C
  | .maxProbes => 0x030
  | .maxCand => 0x034
  | .capBlocks => 0x038
  | .capTblsiz => 0x03C
  | .rhW => 0x040
  | .rhMult => 0x044
  | .ixRefBase => 0x048
  | .ixRefLen => 0x04C
  | .ixNblk => 0x050
  | .ixTblsiz => 0x054
  | .ixLastblk => 0x058

/-- The registers in the order of R21's table. -/
def regTable : List Reg :=
  [.cmd, .status, .ctrl, .errInfo, .arg0, .arg1, .arg2, .arg3, .res0, .res1, .res2, .res3, .maxProbes, .maxCand, .capBlocks,
    .capTblsiz, .rhW, .rhMult, .ixRefBase, .ixRefLen, .ixNblk, .ixTblsiz, .ixLastblk]

/-- The register at a byte offset; `none` at a reserved one (10_state.md R21). -/
def regAt (off : Nat) : Option Reg := regTable.find? fun r => regOffset r == off

/-- What the host reads from a register (10_state.md R22 to R38, 44_control.md R187). CMD and CTRL read 0. -/
def State.readReg (s : State) : Reg → Word
  | .cmd => 0
  | .status => s.statusWord
  | .ctrl => 0
  | .errInfo => s.errInfo
  | .arg0 => s.arg0
  | .arg1 => s.arg1
  | .arg2 => s.arg2
  | .arg3 => s.arg3
  | .res0 => s.res0
  | .res1 => s.res1
  | .res2 => s.res2
  | .res3 => s.res3
  | .maxProbes => BitVec.ofNat 32 Config.maxProbes
  | .maxCand => s.maxCand
  | .capBlocks => s.platform.maxBlocks
  | .capTblsiz => s.platform.maxTblsiz
  | .rhW => s.rhW
  | .rhMult => s.rhMult
  | .ixRefBase => s.ixRefBase
  | .ixRefLen => s.ixRefLen
  | .ixNblk => s.ixNblk
  | .ixTblsiz => s.ixTblsiz
  | .ixLastblk => s.ixLastblk

/-- What the host reads at an offset; a reserved offset reads 0 (10_state.md R21). -/
def State.readOffset (s : State) (off : Nat) : Word :=
  match regAt off with
  | some r => s.readReg r
  | none => 0

/-- A host write to CTRL: bit 0 is SRST, which acts at any time; the other bits are ignored (10_state.md R24, 44_control.md R185). -/
def State.writeCtrl (s : State) (v : Word) : State := if v.getLsbD 0 then s.resetBlock else s

/-- A host write to a register. CMD, the ARGs and MAXCAND act while SEQ = IDLE and are overrun while it is BUSY (44_control.md R180,
R182, R183). A write to a read-only register is ignored (10_state.md R21). -/
def State.writeReg (s : State) (r : Reg) (v : Word) : State :=
  match r with
  | .cmd => if s.busy then s.overrun else s.issue v
  | .ctrl => s.writeCtrl v
  | .arg0 => if s.busy then s.overrun else { s with arg0 := v }
  | .arg1 => if s.busy then s.overrun else { s with arg1 := v }
  | .arg2 => if s.busy then s.overrun else { s with arg2 := v }
  | .arg3 => if s.busy then s.overrun else { s with arg3 := v }
  | .maxCand => if s.busy then s.overrun else { s with maxCand := v }
  | .status => s
  | .errInfo => s
  | .res0 => s
  | .res1 => s
  | .res2 => s
  | .res3 => s
  | .maxProbes => s
  | .capBlocks => s
  | .capTblsiz => s
  | .rhW => s
  | .rhMult => s
  | .ixRefBase => s
  | .ixRefLen => s
  | .ixNblk => s
  | .ixTblsiz => s
  | .ixLastblk => s

/-- A host write at an offset; a reserved offset ignores it (10_state.md R21). -/
def State.writeOffset (s : State) (off : Nat) (v : Word) : State :=
  match regAt off with
  | some r => s.writeReg r v
  | none => s

/-- A host read at an offset: no side effect on the block; the host keeps the value (20_memory.md R67, 30_encoding.md R88). -/
def State.logRead (s : State) (off : Nat) : State := { s with hostReads := (off, s.readOffset off) :: s.hostReads }

end Sys2Proof.Machine
end

