-- ==== Sys2Proof/Machine/ReadRange.lean ====
section
/-! DEFINITION. The read range of the running command (20_memory.md R62), which R73 forbids every agent to write and R67 forbids the
platform to map a device into. -/

namespace Sys2Proof.Machine

/-- The blocks a scan probes, in order (42_match_verify.md R141). -/
def State.probed (s : State) (tp : Nat) : Nat → Word → List Word
  | 0, _ => []
  | budget + 1, c =>
    if c = noneWord then []
    else
      match s.verify c.toNat tp with
      | .error _ => [c]
      | .ok true => [c]
      | .ok false => c :: s.probed tp budget (s.nextOf c.toNat)

/-- The ranges of IX_FIRST and IX_NEXT: for each probed block, that block and the target window, as (first address, length) (R62). -/
def State.lookupRanges (s : State) (tp : Nat) (start : Word) : List (Nat × Nat) :=
  (s.probed tp Config.maxProbes start).flatMap fun b => [(s.blockAddr b.toNat, s.rhW.toNat), (tp, s.rhW.toNat)]

/-- The read range of the pending command, as (first address, length); empty for a command that reads no data memory and for one that an
argument check ends before any read (R61, R62; notes/assumptions/8.md). -/
def State.readRanges (s : State) : List (Nat × Nat) :=
  match decode s.pend.cmdword with
  | .error _ => []
  | .ok .rhInit => []
  | .ok .rhUpdate => []
  | .ok .ixInit => []
  | .ok .ixAdd => []
  | .ok .rhHash =>
    if s.rhValid && !passesTop s.operand0 s.rhW then [(s.operand0.toNat, s.rhW.toNat)] else []
  | .ok .ixFirst =>
    if s.ixValid && !passesTop s.operand1 s.rhW then s.lookupRanges s.operand1.toNat (s.firstOf s.operand0) else []
  | .ok .ixNext =>
    if s.ixValid && decide (s.operand0.toNat < s.ixNblk.toNat) && !passesTop s.operand1 s.rhW then
      s.lookupRanges s.operand1.toNat (s.nextOf s.operand0.toNat)
    else []
  | .ok .ixBest =>
    if s.ixValid && decide (s.operand2.toNat ≤ s.operand1.toNat) && decide (s.rhW.toNat ≤ s.operand3.toNat) &&
        !passesTop s.operand1 s.operand3 then
      [(s.ixRefBase.toNat, s.ixRefLen.toNat),
        (s.operand2.toNat, s.operand1.toNat + s.operand3.toNat - s.operand2.toNat)]
    else []

/-- Whether a data address lies in the pending command's read range. -/
def State.inReadRange (s : State) (a : Nat) : Bool :=
  s.readRanges.any fun r => decide (r.1 ≤ a) && decide (a < r.1 + r.2)

end Sys2Proof.Machine

namespace Sys2Proof

/-- The addresses in `[lo, lo + n)` at which the data map can change: `lo`, and each region's base and end. -/
def Platform.marks (p : Platform) (lo n : Nat) : List Nat :=
  (lo :: p.dataMap.flatMap fun r => [r.base, r.base + r.size]).filter fun a => decide (lo ≤ a) && decide (a < lo + n)

/-- A device byte in `[lo, lo + n)`, if there is one (20_memory.md R67). -/
def Platform.deviceIn (p : Platform) (lo n : Nat) : Option Nat := (p.marks lo n).find? fun a => p.kindAt a == some .device

end Sys2Proof

namespace Sys2Proof.Machine

/-- A device byte in the pending command's read range, if there is one: mapping it there is outside the spec (20_memory.md R67). -/
def State.deviceInReadRange (s : State) : Option Nat := s.readRanges.findSome? fun r => s.platform.deviceIn r.1 r.2

end Sys2Proof.Machine
end

