-- ==== Sys2Proof/Machine/HostAgent.lean ====
section
/-! DEFINITION. One step of the host (20_memory.md R70): the next access of its program (30_encoding.md R88), and writes of data bytes
by the host and by other agents of the platform (20_memory.md R71 to R74). -/

namespace Sys2Proof.Machine

/-- Where a host access falls: the byte offset in the register block, or why the step is refused (10_state.md R21, 20_memory.md R64). -/
def State.accessOffset (s : State) (addr width : Nat) : Except Refusal Nat :=
  if s.platform.regBase ≤ addr ∧ addr < s.platform.regBase + Config.regBlockBytes then
    if accessWellFormed (addr - s.platform.regBase) width then .ok (addr - s.platform.regBase)
    else .error .registerAccessForm
  else .error .outsideRegisterBlock

/-- The host or another agent writes a data byte: a data race inside the running command's read range, else plain (20_memory.md R73 and R74). -/
def State.storeByte (s : State) (a : Word) (v : Byte) : Host.Outcome State Fault Refusal :=
  if s.busy && s.inReadRange a.toNat then .fault .dataRace
  else
    match s.platform.kindAt a.toNat with
    | some .device => .refused (.deviceWrite a)
    | some .memory => .next { s with mem := Memory.write s.mem a.toNat v }
    | none => .next { s with mem := Memory.write s.mem a.toNat v }

/-- The host program moves past its next access. -/
def State.popProgram (s : State) : State := { s with program := s.program.tail }

/-- One host step: the next access of the host program, if there is one. -/
def State.hostStep (s : State) : Host.Outcome State Fault Refusal :=
  match s.program with
  | [] => .next s
  | .wr addr width v :: _ =>
    match s.accessOffset addr width with
    | .ok off => .next (s.popProgram.writeOffset off v)
    | .error r => .refused r
  | .rd addr width :: _ =>
    match s.accessOffset addr width with
    | .ok off => .next (s.popProgram.logRead off)
    | .error r => .refused r
  | .wait :: _ => .next (if s.busy then s.logRead (regOffset .status) else s.popProgram.logRead (regOffset .status))
  | .store a v :: _ => s.popProgram.storeByte a v

end Sys2Proof.Machine
end

