-- ==== Sys2Proof/Machine/Sequencer.lean ====
section
/-! DEFINITION. The core's step (44_control.md R181) and the interleaving of the agents (20_memory.md R70). -/

namespace Sys2Proof.Machine

/-- The core's step: while SEQ = BUSY, decode the latched word and run the command to completion; a word that is no command completes
with IllegalCommand (44_control.md R181 and R184). A command with a device in its read range is refused (20_memory.md R67). While IDLE the
core has no step to take (60_exceptions.md R251). -/
def State.coreStep (s : State) : Host.Outcome State Fault Refusal :=
  if s.busy then
    match decode s.pend.cmdword with
    | .ok i =>
      match s.deviceInReadRange with
      | none => exec i s
      | some a => .refused (.deviceRead a)
    | .error (.illegalCommand w) => .next (s.raise .illegalCommand w)
  else .next s

/-- What one turn does. -/
def State.takeTurn (s : State) : Turn → Host.Outcome State Fault Refusal
  | .host => s.hostStep
  | .core => s.coreStep
  | .hardReset => .next s.resetBlock
  | .busWrite a v => s.storeByte a v

/-- The agent that moves next: the one the schedule names; past its end the core if a command is pending, which is then completed
(70_reset_and_hazards.md R281), else the host. -/
def State.nextTurn (s : State) : Turn :=
  match s.schedule with
  | t :: _ => t
  | [] => if s.busy then .core else .host

/-- The schedule moves past its next turn. -/
def State.popTurn (s : State) : State := { s with schedule := s.schedule.tail }

/-- The pending command is `w`, issued now, and the next turn is the core's. -/
def State.placeWord (s : State) (w : Word) : State :=
  let s1 := s.issue w
  { s1 with schedule := .core :: s.schedule }

end Sys2Proof.Machine
end

