-- ==== Sys2Proof/Machine/HostProgram.lean ====
section
/-! DEFINITION. Host assembly (30_encoding.md R88 to R90): the two primitives by register name, the pseudo-instructions' expansions, and
running one of them to its end. -/

namespace Sys2Proof.Machine

/-- `WR reg, value` (30_encoding.md R88). -/
def wrReg (base : Nat) (r : Reg) (v : Word) : HostOp := .wr (base + regOffset r) 4 v

/-- `RD reg` (30_encoding.md R88). -/
def rdReg (base : Nat) (r : Reg) : HostOp := .rd (base + regOffset r) 4

/-- The accesses a pseudo-instruction stands for (30_encoding.md R89). -/
def expandPseudo (base : Nat) : Pseudo → List HostOp
  | .wait => [.wait]
  | .rhInit w => [wrReg base .arg0 w, wrReg base .cmd 0x01, .wait]
  | .rhHash p => [wrReg base .arg0 p, wrReg base .cmd 0x02, .wait]
  | .rhUpdate h d a => [wrReg base .arg0 h, wrReg base .arg1 d, wrReg base .arg2 a, wrReg base .cmd 0x03, .wait]
  | .ixInit rb n => [wrReg base .arg0 rb, wrReg base .arg1 n, wrReg base .cmd 0x10, .wait]
  | .ixAdd i h => [wrReg base .arg0 i, wrReg base .arg1 h, wrReg base .cmd 0x11, .wait]
  | .ixFirst h tp => [wrReg base .arg0 h, wrReg base .arg1 tp, wrReg base .cmd 0x12, .wait]
  | .ixNext b tp => [wrReg base .arg0 b, wrReg base .arg1 tp, wrReg base .cmd 0x13, .wait]
  | .ixBest h tp tb tl =>
    [wrReg base .arg0 h, wrReg base .arg1 tp, wrReg base .arg2 tb, wrReg base .arg3 tl, wrReg base .cmd 0x14, .wait]
  | .setCand n => [.wait, wrReg base .maxCand n]
  | .srst => [wrReg base .ctrl 0x1]
  | .check => [rdReg base .status, rdReg base .res0, rdReg base .res1, rdReg base .res2, rdReg base .res3, rdReg base .errInfo]

/-- A host program in pseudo-instructions, as the accesses it makes (30_encoding.md R90). -/
def assemble (base : Nat) (ps : List Pseudo) : List HostOp := ps.flatMap (expandPseudo base)

/-- The state with a host program still to run, the agents moving in the default order. -/
def State.withProgram (s : State) (ops : List HostOp) : State := { s with program := ops, schedule := [] }

/-- Run one pseudo-instruction to its end: one step for each access, and one for the core's step of the command it issues. -/
def State.runPseudo (s : State) (p : Pseudo) : Host.Outcome State Fault Refusal :=
  let ops := expandPseudo s.platform.regBase p
  Host.Core.run Sys2Proof.core (ops.length + 1) (s.withProgram ops)

end Sys2Proof.Machine
end

