-- ==== Sys2Proof/Machine/DeltaEncoder.lean ====
section
/-! DEFINITION. The reference host program, DeltaEncoder, over the machine's own step (45_host_delta_encoder.md R200 to R211), and op replay
(R212). It is software around the block (00_scope.md R5). -/

namespace Sys2Proof.Machine

/-- Why an encoding is aborted (R210). -/
inductive EncodeStop where
  /-- A command completed with an error. -/
  | commandError (code : Byte)
  /-- The run faulted. -/
  | faulted (f : Fault)
  /-- A step was refused. -/
  | refused (r : Refusal)
  deriving DecidableEq, Repr

/-- The target buffer and the block size (R200): `T`, `L` and `W`. The spec does not bound them; one that an argument register cannot hold is
written modulo 2^32 (DESIGN CHOICE, notes/assumptions/19.md). -/
structure EncodeInput where
  target : Nat
  length : Nat
  window : Nat
  deriving DecidableEq, Repr

/-- The encoder's own state, with the machine it drives (R200). -/
structure Encoding where
  cursor : Nat
  flush : Nat
  h : Word
  ops : List DeltaOp
  machine : State

/-- Issue a command, wait for it, and abort if it failed (R210 and R211). -/
def runChecked (p : Pseudo) (s : State) : Except EncodeStop State :=
  match s.runPseudo p with
  | .next t => if t.lastErr = 0 then .ok t else .error (.commandError t.lastErr)
  | .fault f => .error (.faulted f)
  | .refused r => .error (.refused r)

/-- A number as the host writes it to an argument register. The spec does not say what the host writes where 32 bits cannot hold it: the model
takes it modulo 2^32 (DESIGN CHOICE, notes/assumptions/19.md). -/
def asWord (n : Nat) : Word := BitVec.ofNat 32 n

/-- The host's own read of target byte `p` (R207). -/
def targetByte (e : EncodeInput) (s : State) (p : Nat) : Word := (Memory.read s.mem (e.target + p)).setWidth 32

/-- Roll the hash from position `p` to `p + 1` if the next window is full (R207, R208). -/
def rollHash (e : EncodeInput) (p : Nat) (h : Word) (s : State) : Except EncodeStop (Word × State) :=
  if p + 1 + e.window ≤ e.length then
    match runChecked (.rhUpdate h (targetByte e s p) (targetByte e s (p + e.window))) s with
    | .ok t => .ok (t.readReg .res0, t)
    | .error x => .error x
  else .ok (h, s)

/-- Offer position `p` to the index, then roll the hash (R207, R208). -/
def indexAndRoll (e : EncodeInput) (p : Nat) (h : Word) (s : State) : Except EncodeStop (Word × State) :=
  match runChecked (.ixAdd (asWord p) h) s with
  | .ok t => rollHash e p h t
  | .error x => .error x

/-- Backfill the positions from `p` up to `stop` that start a full window (R207). -/
def backfill (e : EncodeInput) (stop : Nat) : Nat → Nat → Word → State → Except EncodeStop (Word × State)
  | 0, _, h, s => .ok (h, s)
  | fuel + 1, p, h, s =>
    if p < stop ∧ p + e.window ≤ e.length then
      match indexAndRoll e p h s with
      | .ok (h', t) => backfill e stop fuel (p + 1) h' t
      | .error x => .error x
    else .ok (h, s)

/-- The ops a match adds: the gap before it, if any, and the copy (R206). -/
def matchOps (flush matchStart src len : Nat) : List DeltaOp :=
  if flush < matchStart then [.add flush (matchStart - flush), .copy src len] else [.copy src len]

/-- One turn of the scan loop: the query, and then the match or the no-match branch (R205 to R208). -/
def encodeTurn (e : EncodeInput) (c : Encoding) : Except EncodeStop Encoding :=
  match runChecked
      (.ixBest c.h (asWord (e.target + c.cursor)) (asWord (e.target + c.flush)) (asWord (e.length - c.cursor))) c.machine with
  | .error x => .error x
  | .ok s =>
    if s.readReg .res0 = noneWord then
      match indexAndRoll e c.cursor c.h s with
      | .ok (h, t) => .ok { c with cursor := c.cursor + 1, h := h, machine := t }
      | .error x => .error x
    else
      let src := (s.readReg .res1).toNat
      let start := c.flush + (s.readReg .res2).toNat
      let len := (s.readReg .res3).toNat
      let stop := start + len
      match backfill e stop (stop - c.cursor) c.cursor c.h s with
      | .ok (h, t) =>
        .ok { cursor := stop, flush := stop, h := h, ops := c.ops ++ matchOps c.flush start src len, machine := t }
      | .error x => .error x

/-- The scan loop: while a full window starts at the cursor (R204). The cursor rises at each turn, so `length` turns always suffice (R213). -/
def encodeLoop (e : EncodeInput) : Nat → Encoding → Except EncodeStop Encoding
  | 0, c => .ok c
  | fuel + 1, c =>
    if c.cursor + e.window ≤ e.length then
      match encodeTurn e c with
      | .ok c' => encodeLoop e fuel c'
      | .error x => .error x
    else .ok c

/-- The trailing op for what is not yet encoded (R209). -/
def flushOps (e : EncodeInput) (c : Encoding) : List DeltaOp :=
  if c.flush < e.length then [.add c.flush (e.length - c.flush)] else []

/-- Set-up: configure the window, create the index over the target itself, hash the first window (R203). -/
def encodeSetup (e : EncodeInput) (s : State) : Except EncodeStop Encoding :=
  match runChecked (.rhInit (asWord e.window)) s with
  | .error x => .error x
  | .ok s1 =>
    match runChecked (.ixInit (asWord e.target) (asWord e.length)) s1 with
    | .error x => .error x
    | .ok s2 =>
      match runChecked (.rhHash (asWord e.target)) s2 with
      | .error x => .error x
      | .ok s3 => .ok { cursor := 0, flush := 0, h := s3.readReg .res0, ops := [], machine := s3 }

/-- `Encode(T, L, W)` on a machine: the ops, and the machine after it (R211). -/
def encodeTarget (e : EncodeInput) (s : State) : Except EncodeStop (List DeltaOp × State) :=
  if e.length < e.window then .ok ([.add 0 e.length], s)
  else
    match encodeSetup e s with
    | .error x => .error x
    | .ok c =>
      match encodeLoop e e.length c with
      | .error x => .error x
      | .ok d => .ok (d.ops ++ flushOps e d, d.machine)

/-- Append the `n` target bytes from data address `a` on, one at a time (R212); `none` at an address that is no data address
(notes/assumptions/19.md). -/
def addSerial (m : List Host.Cell) : Nat → Nat → List Byte → Option (List Byte)
  | 0, _, out => some out
  | n + 1, a, out => if a < addrSpace then addSerial m n (a + 1) (out ++ [Memory.read m a]) else none

/-- Append `n` bytes copied one at a time from offset `src` of the output (R212); `none` if a byte is not yet written. -/
def copySerial : Nat → Nat → List Byte → Option (List Byte)
  | 0, _, out => some out
  | n + 1, src, out =>
    match out[src]? with
    | some b => copySerial n (src + 1) (out ++ [b])
    | none => none

/-- Replay one op on the output so far, the target at data address `target` (R212). -/
def replayOp (m : List Host.Cell) (target : Nat) (out : List Byte) : DeltaOp → Option (List Byte)
  | .add off n => addSerial m n (target + off) out
  | .copy src n => copySerial n src out

/-- `Replay(ops, T)` from the output so far (R212). -/
def replay (m : List Host.Cell) (target : Nat) : List Byte → List DeltaOp → Option (List Byte)
  | out, [] => some out
  | out, op :: rest =>
    match replayOp m target out op with
    | some out' => replay m target out' rest
    | none => none

end Sys2Proof.Machine
end

