-- ==== Sys2Proof/Safety.lean ====
section
/-! DEFINITION. The words claims use: a safe run (20_memory.md R73), what the spec's invariants say of a state (10_state.md R23, R32, R33,
R39 and R44, 44_control.md R186), and the spec's own vocabulary for windows, blocks, chains and matches. -/

namespace Sys2Proof.Machine

/-! ### Safe runs -/

/-- A run of `n` steps with no data race (20_memory.md R73, 70_reset_and_hazards.md R272). -/
def SafeRun (n : Nat) (s : State) : Prop := ∀ f, Host.Core.run Sys2Proof.core n s ≠ .fault f

/-! ### Whose turn it is -/

/-- The core moves next: the schedule says so, or has ended. -/
def State.coreMoves (s : State) : Prop := s.schedule = [] ∨ s.schedule.head? = some .core

/-- The host moves next: the schedule says so, or has ended with no command pending. -/
def State.hostMoves (s : State) : Prop := (s.schedule = [] ∧ s.seq = .idle) ∨ s.schedule.head? = some .host

/-- The host moves next, and its next access is `op`. -/
def State.hostDoes (s : State) (op : HostOp) : Prop := s.hostMoves ∧ s.program.head? = some op

/-- The state behind a host access: the turn and the access are used up. -/
def State.afterHost (s : State) : State := { s with schedule := s.schedule.tail, program := s.program.tail }

/-! ### Completions as 60_exceptions.md writes them -/

/-- The completion fields of a success (R240), the result registers as given. The latch, unspecified while IDLE, is kept: a DESIGN CHOICE
(notes/assumptions/9.md). -/
def State.okDone (s : State) (r0 r1 r2 r3 : Word) : State :=
  { s with res0 := r0, res1 := r1, res2 := r2, res3 := r3, errInfo := 0, lastErr := 0, done := true, seq := .idle }

/-- The completion fields of an error (R241), its code and ERRINFO as given; the valid bits are not among them. The latch is kept, as
in `State.okDone`. -/
def State.errDone (s : State) (code : Byte) (info : Word) : State :=
  { s with
    res0 := 0, res1 := 0, res2 := 0, res3 := 0, errInfo := info, lastErr := code, err := true, done := true, seq := .idle }

/-! ### Bytes, windows and blocks -/

/-- The `n` data bytes from `a` on are plain readable memory (20_memory.md R63). -/
def Readable (p : Platform) (a n : Nat) : Prop := ∀ k, k < n → p.kindAt (a + k) = some .memory

/-- The data byte at `a`, as a number. -/
def State.byteVal (s : State) (a : Nat) : Nat := (Memory.read s.mem a).toNat

/-- The closed form of the window hash, over the `w` bytes from `p` on (40_rolling_hash.md R102). -/
def State.polyHash (s : State) (p w : Nat) : Nat :=
  ((List.range w).map fun k => s.byteVal (p + k) * 257 ^ (w - 1 - k)).sum % 2 ^ 23

/-- The closed form of the multiplier (40_rolling_hash.md R103). -/
def multClosed (w : Nat) : Nat := 257 ^ (w - 1) % 2 ^ 23

/-- The closed form of a removal-table entry: `(-(v * mult)) mod 2^23` as a natural number (40_rolling_hash.md R103). -/
def remClosed (mult v : Nat) : Nat := (2 ^ 23 - v * mult % 2 ^ 23) % 2 ^ 23

/-- The `n` bytes from `a` on equal those from `b` on. -/
def State.sameBytes (s : State) (a b n : Nat) : Prop := ∀ k, k < n → Memory.read s.mem (a + k) = Memory.read s.mem (b + k)

/-- Block `b`'s bytes equal those of the target window at `tp` (42_match_verify.md R140). -/
def State.blockMatches (s : State) (tp b : Nat) : Bool :=
  (List.range s.rhW.toNat).all fun k => Memory.read s.mem (s.blockAddr b + k) == Memory.read s.mem (tp + k)

/-! ### Chains -/

/-- The chain walked from `start` through `NEXT` is exactly this list, and ends in `NONE` (10_state.md R44). -/
def State.Walk (s : State) : List Nat → Word → Prop
  | [], start => start = noneWord
  | b :: rest, start => start ≠ noneWord ∧ start.toNat = b ∧ s.Walk rest (s.nextOf b)

/-- Block `b` is indexed (10_state.md R44). -/
def State.Indexed (s : State) (b : Nat) : Prop := s.ixLastblk ≠ noneWord ∧ b ≤ s.ixLastblk.toNat

/-- These are blocks of the chain that starts at `start`, in order from its first on; the chain may go on behind them. -/
def State.Follows (s : State) : List Nat → Word → Prop
  | [], _ => True
  | b :: rest, start => start ≠ noneWord ∧ start.toNat = b ∧ s.Follows rest (s.nextOf b)

/-- The blocks of a chain that a scan compares: the first 16, but none behind the first match (42_match_verify.md R141). -/
def State.compared (s : State) (tp : Nat) (chain : List Nat) : List Nat :=
  let probed := chain.take 16
  probed.take (probed.findIdx (s.blockMatches tp) + 1)

/-- The candidates of a chain in enumeration order, at most `cap` of them: the first match among the next 16 entries, and then on from
behind it (42_match_verify.md R144, 43_best_match.md R164). -/
def enumerate (matching : Nat → Bool) : Nat → List Nat → List Nat
  | 0, _ => []
  | cap + 1, chain =>
    match (chain.take 16).find? matching with
    | none => []
    | some c => c :: enumerate matching cap ((chain.dropWhile (· != c)).drop 1)

/-- `e` is the left extension of the block at reference offset `off`: equal bytes backward, as many as the bound allows
(43_best_match.md R160). -/
def State.IsLeftExt (s : State) (off tp tb e : Nat) : Prop :=
  let limit := min off (tp - tb)
  e ≤ limit ∧
  (∀ j, j < e → Memory.read s.mem (s.ixRefBase.toNat + off - 1 - j) = Memory.read s.mem (tp - 1 - j)) ∧
  (e < limit → Memory.read s.mem (s.ixRefBase.toNat + off - 1 - e) ≠ Memory.read s.mem (tp - 1 - e))

/-- `e` is the right extension of the block at reference offset `off` (43_best_match.md R161). -/
def State.IsRightExt (s : State) (off tp tl e : Nat) : Prop :=
  let w := s.rhW.toNat
  let limit := min (s.ixRefLen.toNat - (off + w)) (tl - w)
  e ≤ limit ∧
  (∀ j, j < e → Memory.read s.mem (s.ixRefBase.toNat + off + w + j) = Memory.read s.mem (tp + w + j)) ∧
  (e < limit → Memory.read s.mem (s.ixRefBase.toNat + off + w + e) ≠ Memory.read s.mem (tp + w + e))

/-! ### The bytes a command reads, in order (92_eei_decisions.md D29) -/

/-- The addresses that a comparison of `n` pairs of bytes reads: the reference byte of each pair and then its target byte, up to and
including the first pair that differs. -/
def State.pairReads (s : State) (ra ta : Nat → Nat) (n : Nat) : List Nat :=
  let equal := (List.range n).findIdx fun k => Memory.read s.mem (ra k) != Memory.read s.mem (ta k)
  (List.range (min (equal + 1) n)).flatMap fun k => [ra k, ta k]

/-- What `Verify(b, tp)` reads (42_match_verify.md R140). -/
def State.verifyReads (s : State) (tp b : Nat) : List Nat :=
  s.pairReads (fun k => s.blockAddr b + k) (fun k => tp + k) s.rhW.toNat

/-- What a scan of a chain reads (42_match_verify.md R141). -/
def State.lookupReads (s : State) (tp : Nat) (chain : List Nat) : List Nat := (s.compared tp chain).flatMap (s.verifyReads tp)

/-- What the left extension of the block at reference offset `off` reads (43_best_match.md R160). -/
def State.leftReads (s : State) (off tp tb : Nat) : List Nat :=
  s.pairReads (fun k => s.ixRefBase.toNat + off - 1 - k) (fun k => tp - 1 - k) (min off (tp - tb))

/-- What the right extension of the block at reference offset `off` reads (43_best_match.md R161). -/
def State.rightReads (s : State) (off tp tl : Nat) : List Nat :=
  let w := s.rhW.toNat
  s.pairReads (fun k => s.ixRefBase.toNat + off + w + k) (fun k => tp + w + k) (min (s.ixRefLen.toNat - (off + w)) (tl - w))

/-- What IX_BEST reads: each scan, and behind it the left and then the right extension of the candidate it found
(43_best_match.md R164 and R165). -/
def State.bestReads (s : State) (tp tb tl : Nat) : Nat → List Nat → List Nat
  | 0, _ => []
  | cap + 1, chain =>
    s.lookupReads tp chain ++
      match (chain.take 16).find? (s.blockMatches tp) with
      | none => []
      | some c =>
        s.leftReads (c * s.rhW.toNat) tp tb ++ s.rightReads (c * s.rhW.toNat) tp tl ++
          s.bestReads tp tb tl cap ((chain.dropWhile (· != c)).drop 1)

/-- Every one of these reads succeeds (20_memory.md R63). -/
abbrev AllReadable (p : Platform) (reads : List Nat) : Prop := ∀ a ∈ reads, p.kindAt a = some .memory

/-- Of these reads, in order, the one at `a` is the first that fails (60_exceptions.md R239). -/
abbrev FirstFailure (p : Platform) (reads : List Nat) (a : Nat) : Prop :=
  reads.find? (fun x => p.kindAt x != some .memory) = some a ∧ p.kindAt a = none

/-! ### Data writes -/

/-- A data address lies outside `[lo, lo + n)`. -/
abbrev Outside (a lo n : Nat) : Prop := a < lo ∨ lo + n ≤ a

/-- A write of `v` at `a`, as the host's next access or as another agent's turn, steps to the state in which that byte of memory, and
nothing else but the turn and the access used up, has changed (20_memory.md R74). -/
def State.WritesOneByte (s : State) (a : Word) (v : Byte) : Prop :=
  ∃ m, (∀ b, Memory.read m b = if b = a.toNat then v else Memory.read s.mem b) ∧
    (s.hostDoes (.store a v) → step s = .next { s.afterHost with mem := m }) ∧
    (s.schedule.head? = some (.busWrite a v) → step s = .next { s with schedule := s.schedule.tail, mem := m })

/-! ### Invariants -/

/-- Data memory and the internal arrays are in canonical form. -/
def State.Canonical (s : State) : Prop :=
  Memory.wf s.mem = true ∧ Sparse.wf noneWord s.headTab = true ∧ Sparse.wf noneWord s.nextTab = true ∧
    Sparse.wf noneWord s.lastTab = true

/-- STATUS as 10_state.md R23 and 60_exceptions.md R230 describe it: no code above 9; while a command runs DONE is 0 and LAST_OP shows the
issued word's opcode. -/
def State.StatusInv (s : State) : Prop :=
  s.lastErr.toNat ≤ 9 ∧
    (s.seq = .busy → s.done = false ∧ s.lastOp = opField s.pend.cmdword ∧ s.pend.op = opField s.pend.cmdword)

/-- The rolling-hash unit while RH_VALID = 1: a legal window, its multiplier, and its removal table (10_state.md R32, R33, R39). -/
def State.RhInv (s : State) : Prop :=
  s.rhMult.toNat < 2 ^ 23 ∧
  (s.rhValid = true →
    3 ≤ s.rhW.toNat ∧ s.rhMult.toNat = multClosed s.rhW.toNat ∧
      ∀ v : Byte, (s.removal v).toNat = remClosed s.rhMult.toNat v.toNat)

/-- The geometry of a valid index (41_block_index.md R120 to R122). -/
def State.Geometry (s : State) : Prop :=
  s.ixRefLen ≠ 0 ∧ s.ixRefBase.toNat + s.ixRefLen.toNat ≤ 2 ^ 32 ∧
    s.ixNblk.toNat = s.ixRefLen.toNat / s.rhW.toNat ∧ s.ixTblsiz.toNat = tableSize s.ixRefLen.toNat ∧
    s.ixNblk.toNat ≤ s.platform.maxBlocks.toNat ∧ s.ixTblsiz.toNat ≤ s.platform.maxTblsiz.toNat

/-- The chains of a valid index: the five points of 10_state.md R44. -/
structure State.Chains (s : State) : Prop where
  /-- (a) -/
  lastInRange : s.ixLastblk = noneWord ∨ s.ixLastblk.toNat < s.ixNblk.toNat
  /-- (b), and that a chain holds indexed blocks only, as (a) says by "exactly". -/
  chain : ∀ k, k < s.ixTblsiz.toNat → ∃ cs, s.Walk cs (s.head k) ∧ cs.Pairwise (· < ·) ∧ (∀ b ∈ cs, s.Indexed b) ∧
    ∀ h t, cs.head? = some h → cs.getLast? = some t → (s.lastOf h).toNat = t
  /-- (c) -/
  once : ∀ b, s.Indexed b → ∃! k, k < s.ixTblsiz.toNat ∧ ∃ cs, s.Walk cs (s.head k) ∧ b ∈ cs
  /-- (d) -/
  unindexed : ∀ b, b < s.ixNblk.toNat → ¬ s.Indexed b → s.nextOf b = noneWord ∧ s.lastOf b = noneWord
  /-- (e) -/
  notHead : ∀ b, s.Indexed b → (∀ k, k < s.ixTblsiz.toNat → (s.head k).toNat ≠ b) → s.lastOf b = noneWord

/-- The index unit while IX_VALID = 1 (10_state.md R44, 44_control.md R186). -/
def State.IxInv (s : State) : Prop := s.ixValid = true → s.rhValid = true ∧ s.Geometry ∧ s.Chains

/-- The machine's invariant. -/
structure State.Inv (s : State) : Prop where
  canonical : s.Canonical
  status : s.StatusInv
  rh : s.RhInv
  ix : s.IxInv

/-! ### The reset values -/

/-- The reset value of every host-visible register, by offset (10_state.md R21). -/
def resetValues (p : Platform) : List (Nat × Word) :=
  [(0x000, 0), (0x004, 0x00000000), (0x008, 0x00000000), (0x00C, 0x00000000), (0x010, 0x00000000), (0x014, 0x00000000),
    (0x018, 0x00000000), (0x01C, 0x00000000), (0x020, 0x00000000), (0x024, 0x00000000), (0x028, 0x00000000),
    (0x02C, 0x00000000), (0x030, 0x00000010), (0x034, 0x00000020), (0x038, p.maxBlocks), (0x03C, p.maxTblsiz),
    (0x040, 0x00000000), (0x044, 0x00000000), (0x048, 0x00000000), (0x04C, 0x00000000), (0x050, 0x00000000),
    (0x054, 0x00000000), (0x058, 0xFFFFFFFF)]

end Sys2Proof.Machine
end

