-- ==== Sys2Proof/Certificates/Slice0/Obligations.lean ====
section
/-! DEFINITION. The statements for the provers, in the order of OBLIGATIONS.json. A completion is written out field by field
(`State.okDone`, `State.errDone`: 60_exceptions.md R240 and R241), so each result statement says what is written and that all else
stays. -/

open Sys2Proof Sys2Proof.Machine

/-! ### Encoding and the core's step -/

/-- 30_encoding.md R82 and R87: the eight `match` words, each selected by all 32 bits; every other word is refused with itself; the
opcode's high digit names the unit. -/
def Obligations.WordSelectsCommandExactlyByAllBits : Prop :=
  (∀ w : Word,
    (decode w = .ok .rhInit ↔ w = 0x00000001) ∧ (decode w = .ok .rhHash ↔ w = 0x00000002) ∧
    (decode w = .ok .rhUpdate ↔ w = 0x00000003) ∧ (decode w = .ok .ixInit ↔ w = 0x00000010) ∧
    (decode w = .ok .ixAdd ↔ w = 0x00000011) ∧ (decode w = .ok .ixFirst ↔ w = 0x00000012) ∧
    (decode w = .ok .ixNext ↔ w = 0x00000013) ∧ (decode w = .ok .ixBest ↔ w = 0x00000014) ∧
    (w ∉ [0x00000001, 0x00000002, 0x00000003, 0x00000010, 0x00000011, 0x00000012, 0x00000013, 0x00000014] →
      decode w = .error (.illegalCommand w))) ∧
  ∀ (w : Word) (i : Instr), decode w = .ok i →
    w.toNat / 16 = if i ∈ [Instr.rhInit, .rhHash, .rhUpdate] then 0 else 1

/-- 30_encoding.md R82 and R87: decoding an encoded command gives it back. -/
def Obligations.EncodedCommandDecodesToItself : Prop :=
  ∀ i : Instr, i.wellFormed = true → decode (encode i) = .ok i

/-- Words written out from 30_encoding.md R82, and words R83 calls illegal. -/
def Obligations.TableWordsDecodeAsWritten : Prop :=
  decodeTableWord 32 0x00000001 = some .rhInit ∧ decodeTableWord 32 0x00000003 = some .rhUpdate ∧
  decodeTableWord 32 0x00000010 = some .ixInit ∧ decodeTableWord 32 0x00000014 = some .ixBest ∧
  decodeTableWord 32 0x00000000 = none ∧ decodeTableWord 32 0x00000112 = none ∧ decodeTableWord 32 0x00000004 = none

/-- 44_control.md R181: the core's step on a pending command is that command's rule, where no device stands in its read range
(20_memory.md R67; the read range is the model's reading of R62: notes/assumptions/8.md). -/
def Obligations.CoreStepRunsTheLatchedCommand : Prop :=
  ∀ (s : State) (i : Instr), s.seq = .busy → s.coreMoves → decode s.pend.cmdword = .ok i →
    (∀ a, s.inReadRange a = true → s.platform.kindAt a ≠ some .device) →
    step s = exec i { s with schedule := s.schedule.tail }

/-- 44_control.md R184: a latched word outside the table completes with code 7 and changes nothing else. -/
def Obligations.IllegalWordCompletesWithCodeSeven : Prop :=
  ∀ s : State, s.seq = .busy → s.coreMoves →
    s.pend.cmdword ∉ [0x00000001, 0x00000002, 0x00000003, 0x00000010, 0x00000011, 0x00000012, 0x00000013, 0x00000014] →
    s.lastOp = s.pend.cmdword.setWidth 8 →
    step s =
      .next { s.errDone 7 s.pend.cmdword with schedule := s.schedule.tail, lastOp := s.pend.cmdword.setWidth 8 }

/-- 60_exceptions.md R251: with no command pending the core's turn changes nothing but the schedule. -/
def Obligations.IdleCoreKeepsAllState : Prop :=
  ∀ s : State, s.seq = .idle → s.schedule.head? = some .core → step s = .next { s with schedule := s.schedule.tail }

/-- 70_reset_and_hazards.md R281: where no device stands in the data map, the pending command completes in the core's next step. -/
def Obligations.PendingCommandCompletesInOneCoreStep : Prop :=
  ∀ s : State, s.seq = .busy → s.coreMoves → (∀ r ∈ s.platform.dataMap, r.kind = .memory) →
    ∃ t, step s = .next t ∧ t.seq = .idle ∧ t.done = true

/-! ### Reset -/

/-- 10_state.md R21: every register's reset value, on every platform. -/
def Obligations.EveryRegisterHasItsResetValue : Prop :=
  ∀ (p : Platform) (off : Nat) (v : Word), (off, v) ∈ resetValues p →
    (State.resetOn p).readOffset off = v ∧ (State.resetOn p).seq = .idle

/-- 70_reset_and_hazards.md R261 and R262 with 44_control.md R185: SRST at any time, also while a command runs. That the host's reads and the
rest of its program stay is the model's choice (notes/assumptions/13.md). -/
def Obligations.SoftResetActsAtAnyTime : Prop :=
  ∀ (s : State) (v : Word), s.hostDoes (.wr (s.platform.regBase + 0x008) 4 v) → v.getLsbD 0 = true →
    ∃ t, step s = .next t ∧ t.seq = .idle ∧ t.ovr = false ∧ t.err = false ∧
      (∀ off w, (off, w) ∈ resetValues s.platform → t.readOffset off = w) ∧
      t.mem = s.mem ∧ t.platform = s.platform ∧ t.program = s.program.tail ∧ t.hostReads = s.hostReads

/-- 70_reset_and_hazards.md R260 and R262: the reset input at any time. That it is a turn of its own is the model's reading
(notes/assumptions/17.md), and that the host's program and reads stay is the model's choice (notes/assumptions/13.md). -/
def Obligations.HardResetActsAtAnyTime : Prop :=
  ∀ s : State, s.schedule.head? = some .hardReset →
    ∃ t, step s = .next t ∧ t.seq = .idle ∧ (∀ off w, (off, w) ∈ resetValues s.platform → t.readOffset off = w) ∧
      t.mem = s.mem ∧ t.platform = s.platform ∧ t.program = s.program ∧ t.hostReads = s.hostReads

/-! ### Host register accesses -/

/-- 20_memory.md R67 and 44_control.md R187: a register read changes nothing in the block; the host gets the register's value. -/
def Obligations.RegisterReadHasNoSideEffect : Prop :=
  ∀ (s : State) (off : Nat), s.hostDoes (.rd (s.platform.regBase + off) 4) → off < 0x100 → off % 4 = 0 →
    step s = .next { s.afterHost with hostReads := (off, s.readOffset off) :: s.hostReads }

/-- 10_state.md R21 with 44_control.md R182: the access codes. CMD, CTRL and the reserved offsets read 0; a write to a read-only register or
to a reserved offset is ignored at any time. -/
def Obligations.AccessCodesHoldAtEveryOffset : Prop :=
  (∀ (s : State) (off : Nat), (off = 0x000 ∨ off = 0x008 ∨ 0x058 < off) → s.readOffset off = 0) ∧
  ∀ (s : State) (off : Nat) (v : Word), s.hostDoes (.wr (s.platform.regBase + off) 4 v) → off < 0x100 → off % 4 = 0 →
    off ∉ [0x000, 0x008, 0x010, 0x014, 0x018, 0x01C, 0x034] → step s = .next s.afterHost

/-- 10_state.md R23: each field of STATUS stands at its bits, and reserved bits read 0. -/
def Obligations.StatusFieldsStandAtTheirBits : Prop :=
  ∀ s : State,
    s.readOffset 0x004 =
      BitVec.ofNat 32 (s.busy.toNat + 2 * s.done.toNat + 4 * s.err.toNat + 8 * s.ovr.toNat + 16 * s.rhValid.toNat +
        32 * s.ixValid.toNat + 256 * s.lastErr.toNat + 65536 * s.lastOp.toNat)

/-- 44_control.md R182: while a command runs, a write to CMD, an ARG or MAXCAND sets OVR and does nothing else. -/
def Obligations.WriteWhileBusySetsOverrunOnly : Prop :=
  ∀ (s : State) (off : Nat) (v : Word), s.seq = .busy → s.hostDoes (.wr (s.platform.regBase + off) 4 v) →
    off ∈ [0x000, 0x010, 0x014, 0x018, 0x01C, 0x034] → step s = .next { s.afterHost with ovr := true }

/-- 44_control.md R183 and 10_state.md R26: while IDLE, a write to an ARG or to MAXCAND takes effect. -/
def Obligations.IdleWriteSetsArgumentsAndCap : Prop :=
  ∀ (s : State) (v : Word), s.seq = .idle →
    (s.hostDoes (.wr (s.platform.regBase + 0x010) 4 v) → step s = .next { s.afterHost with arg0 := v }) ∧
    (s.hostDoes (.wr (s.platform.regBase + 0x014) 4 v) → step s = .next { s.afterHost with arg1 := v }) ∧
    (s.hostDoes (.wr (s.platform.regBase + 0x018) 4 v) → step s = .next { s.afterHost with arg2 := v }) ∧
    (s.hostDoes (.wr (s.platform.regBase + 0x01C) 4 v) → step s = .next { s.afterHost with arg3 := v }) ∧
    (s.hostDoes (.wr (s.platform.regBase + 0x034) 4 v) → step s = .next { s.afterHost with maxCand := v })

/-- 44_control.md R180: command issue. -/
def Obligations.CommandIssueLatchesArguments : Prop :=
  ∀ (s : State) (v : Word), s.seq = .idle → s.hostDoes (.wr s.platform.regBase 4 v) →
    step s =
      .next
        { s.afterHost with
          pend := ⟨v.setWidth 8, v, s.arg0, s.arg1, s.arg2, s.arg3, s.maxCand⟩
          seq := .busy, done := false, lastOp := v.setWidth 8 }

/-- 20_memory.md R64: a register access of another width or at an unaligned offset is refused. -/
def Obligations.MisformedRegisterAccessIsRefused : Prop :=
  ∀ (s : State) (off width : Nat) (v : Word), off < 0x100 → (width ≠ 4 ∨ off % 4 ≠ 0) →
    (s.hostDoes (.wr (s.platform.regBase + off) width v) ∨ s.hostDoes (.rd (s.platform.regBase + off) width)) →
    step s = .refused .registerAccessForm

/-- 30_encoding.md R89: WAIT reads STATUS, stays while BUSY reads 1, and is passed when it reads 0. -/
def Obligations.WaitPollsUntilNotBusy : Prop :=
  ∀ s : State, s.hostDoes .wait →
    (s.seq = .busy →
      step s =
        .next
          { s with schedule := s.schedule.tail, hostReads := (0x004, s.statusWord) :: s.hostReads }) ∧
    (s.seq = .idle → step s = .next { s.afterHost with hostReads := (0x004, s.statusWord) :: s.hostReads })

/-- 44_control.md R185: nothing but a soft or hard reset clears ERR or OVR. -/
def Obligations.OnlyResetClearsStickyBits : Prop :=
  ∀ s t : State, step s = .next t → s.schedule.head? ≠ some .hardReset →
    (∀ v : Word, s.hostDoes (.wr (s.platform.regBase + 0x008) 4 v) → v.getLsbD 0 = false) →
    (s.err = true → t.err = true) ∧ (s.ovr = true → t.ovr = true)

/-! ### Data memory -/

/-- 20_memory.md R73: a byte written inside the running command's read range is a data race, whoever writes it. For RH_HASH and
IX_BEST the range is the one R62 lists; for the other commands it is the model's reading of R62 (notes/assumptions/8.md). -/
def Obligations.WriteInReadRangeIsADataRace : Prop :=
  ∀ (s : State) (a : Word) (v : Byte), s.seq = .busy →
    (s.hostDoes (.store a v) ∨ s.schedule.head? = some (.busWrite a v)) →
    (s.inReadRange a.toNat = true → step s = .fault .dataRace) ∧
    (s.pend.cmdword = 0x00000002 → s.rhValid = true → s.pend.a0.toNat + s.rhW.toNat ≤ 2 ^ 32 →
      s.pend.a0.toNat ≤ a.toNat → a.toNat < s.pend.a0.toNat + s.rhW.toNat → step s = .fault .dataRace) ∧
    (s.pend.cmdword = 0x00000014 → s.ixValid = true → s.pend.a2.toNat ≤ s.pend.a1.toNat →
      s.rhW.toNat ≤ s.pend.a3.toNat → s.pend.a1.toNat + s.pend.a3.toNat ≤ 2 ^ 32 →
      ((s.ixRefBase.toNat ≤ a.toNat ∧ a.toNat < s.ixRefBase.toNat + s.ixRefLen.toNat) ∨
        (s.pend.a2.toNat ≤ a.toNat ∧ a.toNat < s.pend.a1.toNat + s.pend.a3.toNat)) →
      step s = .fault .dataRace)

/-- 20_memory.md R73: a data race is the only way a step faults, and only a byte written by the host or another agent inside the read
range while a command is pending makes one (the range is the model's reading of R62: notes/assumptions/8.md). -/
def Obligations.OnlyAWriteInTheReadRangeFaults : Prop :=
  ∀ (s : State) (f : Fault), step s = .fault f →
    f = .dataRace ∧ s.seq = .busy ∧
      ∃ (a : Word) (v : Byte),
        (s.hostDoes (.store a v) ∨ s.schedule.head? = some (.busWrite a v)) ∧ s.inReadRange a.toNat = true

/-- 20_memory.md R62 and R73: a data write outside the running command's read range leaves the command's outcome as it was, but for the
byte written. The read range is the model's reading of R62 (notes/assumptions/8.md). -/
def Obligations.WriteOutsideReadRangeLeavesTheCommandsOutcome : Prop :=
  ∀ (s : State) (i : Instr) (a : Word) (v : Byte), s.Inv → decode s.pend.cmdword = .ok i →
    s.inReadRange a.toNat = false →
    match exec i s with
    | .next t => exec i { s with mem := Memory.write s.mem a.toNat v } = .next { t with mem := Memory.write s.mem a.toNat v }
    | .fault f => exec i { s with mem := Memory.write s.mem a.toNat v } = .fault f
    | .refused r => exec i { s with mem := Memory.write s.mem a.toNat v } = .refused r

/-- 20_memory.md R74: with no command pending, a write by the host or another agent sets that byte of plain memory and changes no other byte,
no register and no part of the index. -/
def Obligations.IdleWriteSetsOneByteOfMemory : Prop :=
  ∀ (s : State) (a : Word) (v : Byte), s.seq = .idle → Memory.wf s.mem = true →
    s.platform.kindAt a.toNat = some .memory → s.WritesOneByte a v

/-- 20_memory.md R61: no command writes data memory. -/
def Obligations.NoCommandWritesDataMemory : Prop :=
  ∀ (i : Instr) (s t : State), exec i s = .next t →
    (∀ a, t.readByte a = s.readByte a) ∧ (∀ a, Memory.read t.mem a = Memory.read s.mem a) ∧ t.platform = s.platform

/-! ### Whole-machine rules of the commands -/

/-- 10_state.md R26: the core never writes the argument registers; nor MAXCAND, OVR, LAST_OP or the host's own state. -/
def Obligations.CommandsLeaveArgumentsAndHostAlone : Prop :=
  ∀ (i : Instr) (s t : State), exec i s = .next t →
    t.arg0 = s.arg0 ∧ t.arg1 = s.arg1 ∧ t.arg2 = s.arg2 ∧ t.arg3 = s.arg3 ∧ t.maxCand = s.maxCand ∧ t.ovr = s.ovr ∧
      t.lastOp = s.lastOp ∧ t.program = s.program ∧ t.schedule = s.schedule ∧ t.hostReads = s.hostReads

/-- 10_state.md R43: a command computes only from the latch, the internal state and data memory, never from the argument registers or
MAXCAND as they stand when it runs. -/
def Obligations.CommandComputesOnlyFromTheLatch : Prop :=
  ∀ (i : Instr) (s : State) (a0 a1 a2 a3 cap : Word),
    let change := fun u : State => { u with arg0 := a0, arg1 := a1, arg2 := a2, arg3 := a3, maxCand := cap }
    match exec i s with
    | .next t => exec i (change s) = .next (change t)
    | .fault f => exec i (change s) = .fault f
    | .refused r => exec i (change s) = .refused r

/-- 60_exceptions.md R240 and R241: every command that completes ends IDLE with DONE, either as a success or with one of the nine
codes, the result registers 0 and ERR set. -/
def Obligations.EveryCompletionIsASuccessOrAnError : Prop :=
  ∀ (i : Instr) (s t : State), exec i s = .next t →
    t.done = true ∧ t.seq = .idle ∧ t.ovr = s.ovr ∧
      ((t.lastErr = 0 ∧ t.errInfo = 0 ∧ t.err = s.err) ∨
        (1 ≤ t.lastErr.toNat ∧ t.lastErr.toNat ≤ 9 ∧ t.err = true ∧ t.res0 = 0 ∧ t.res1 = 0 ∧ t.res2 = 0 ∧ t.res3 = 0))

/-- 60_exceptions.md R236: a command whose unit is not valid completes with NotConfigured and changes nothing else. -/
def Obligations.CommandOnAnInvalidUnitIsNotConfigured : Prop :=
  ∀ s : State,
    (s.rhValid = false →
      ∀ i ∈ [Instr.rhHash, .rhUpdate, .ixInit], exec i s = .next (s.errDone 6 0)) ∧
    (s.ixValid = false →
      ∀ i ∈ [Instr.ixAdd, .ixFirst, .ixNext, .ixBest], exec i s = .next (s.errDone 6 0))

/-- 60_exceptions.md R239: a MemoryFault comes only from the four reading commands, ERRINFO is an address whose read fails, and nothing but the
completion fields changes. -/
def Obligations.MemoryFaultNamesAnInadmissibleByte : Prop :=
  ∀ (i : Instr) (s t : State), s.Inv → exec i s = .next t → t.lastErr = 9 →
    i ∈ [Instr.rhHash, .ixFirst, .ixNext, .ixBest] ∧ s.platform.kindAt t.errInfo.toNat = none ∧ t = s.errDone 9 t.errInfo

/-- 41_block_index.md R128: no command ever completes with DuplicateBlock. -/
def Obligations.DuplicateBlockIsNeverReported : Prop :=
  ∀ (i : Instr) (s t : State), exec i s = .next t → t.lastErr ≠ 3

/-- 60_exceptions.md R242: of the commands other than RH_INIT and IX_INIT, only an InvalidIndex clears IX_VALID, and none of them sets
it or touches RH_VALID. -/
def Obligations.OnlyInvalidIndexInvalidatesTheIndex : Prop :=
  ∀ (i : Instr) (s t : State), exec i s = .next t → i ≠ .rhInit → i ≠ .ixInit →
    t.rhValid = s.rhValid ∧ (t.lastErr = 2 → t.ixValid = false) ∧ (t.lastErr ≠ 2 → t.ixValid = s.ixValid)

/-- The frame of the commands that only compute or look up (40_rolling_hash.md R111 and R112, 42_match_verify.md R145 and R146,
43_best_match.md R166): the units' registers and arrays stay. -/
def Obligations.LookupsLeaveTheUnitsUnchanged : Prop :=
  ∀ (i : Instr) (s t : State), exec i s = .next t → i ∈ [Instr.rhHash, .rhUpdate, .ixFirst, .ixNext, .ixBest] →
    t.rhW = s.rhW ∧ t.rhMult = s.rhMult ∧ t.remtab = s.remtab ∧ t.ixRefBase = s.ixRefBase ∧ t.ixRefLen = s.ixRefLen ∧
      t.ixNblk = s.ixNblk ∧ t.ixTblsiz = s.ixTblsiz ∧ t.ixLastblk = s.ixLastblk ∧
      (∀ k, t.head k = s.head k) ∧ (∀ b, t.nextOf b = s.nextOf b) ∧ (∀ b, t.lastOf b = s.lastOf b)

/-! ### The rolling-hash unit -/

/-- 40_rolling_hash.md R110 and 60_exceptions.md R231: RH_INIT. A window of at least 3 configures the unit with the multiplier and the removal
table of R103; one of at most 2 leaves it not valid. Either way the index is discarded. After a failure the removal table is unspecified
(10_state.md R39), and so is the model's own counter of free values. -/
def Obligations.RhInitConfiguresOrRejectsTheWindow : Prop :=
  ∀ s : State,
    (3 ≤ s.pend.a0.toNat →
      ∃ tab : Vector Hash 256,
        exec .rhInit s =
          .next
            ({ s with
                ixValid := false, rhValid := true, rhW := s.pend.a0
                rhMult := BitVec.ofNat 32 (257 ^ (s.pend.a0.toNat - 1) % 2 ^ 23)
                remtab := tab }.okDone
              (BitVec.ofNat 32 (257 ^ (s.pend.a0.toNat - 1) % 2 ^ 23)) 0 0 0) ∧
        ∀ v : Byte, (tab[v.toFin]).toNat = remClosed (257 ^ (s.pend.a0.toNat - 1) % 2 ^ 23) v.toNat) ∧
    (s.pend.a0.toNat ≤ 2 →
      ∃ (tab : Vector Hash 256) (n : Nat),
        exec .rhInit s =
          .next
            ({ s with ixValid := false, rhValid := false, rhW := 0, rhMult := 0, remtab := tab, freeCtr := n }.errDone 1
              s.pend.a0))

/-- 40_rolling_hash.md R111: RH_HASH. Its checks in their order, the first inadmissible byte in ascending order, and the result: the
polynomial of R101 over the window's bytes. -/
def Obligations.RhHashComputesThePolynomial : Prop :=
  ∀ s : State,
    (s.rhValid = false → exec .rhHash s = .next (s.errDone 6 0)) ∧
    (s.rhValid = true → 2 ^ 32 < s.pend.a0.toNat + s.rhW.toNat → exec .rhHash s = .next (s.errDone 8 0)) ∧
    (s.rhValid = true → s.pend.a0.toNat + s.rhW.toNat ≤ 2 ^ 32 →
      ∀ k, k < s.rhW.toNat → Readable s.platform s.pend.a0.toNat k → s.platform.kindAt (s.pend.a0.toNat + k) = none →
        exec .rhHash s = .next (s.errDone 9 (BitVec.ofNat 32 (s.pend.a0.toNat + k)))) ∧
    (s.rhValid = true → 3 ≤ s.rhW.toNat → s.pend.a0.toNat + s.rhW.toNat ≤ 2 ^ 32 →
      Readable s.platform s.pend.a0.toNat s.rhW.toNat →
      exec .rhHash s = .next (s.okDone (BitVec.ofNat 32 (s.polyHash s.pend.a0.toNat s.rhW.toNat)) 0 0 0))

/-- 40_rolling_hash.md R112 with R105: RH_UPDATE. Its checks in their order, and the result on two byte operands, the unit's invariant
holding. -/
def Obligations.RhUpdateSlidesTheHash : Prop :=
  ∀ s : State,
    (s.rhValid = false → exec .rhUpdate s = .next (s.errDone 6 0)) ∧
    (s.rhValid = true → 0xFF < s.pend.a1.toNat → exec .rhUpdate s = .next (s.errDone 8 1)) ∧
    (s.rhValid = true → s.pend.a1.toNat ≤ 0xFF → 0xFF < s.pend.a2.toNat → exec .rhUpdate s = .next (s.errDone 8 2)) ∧
    (s.RhInv → s.rhValid = true → s.pend.a1.toNat ≤ 0xFF → s.pend.a2.toNat ≤ 0xFF →
      exec .rhUpdate s =
        .next
          (s.okDone
            (BitVec.ofNat 32
              (((s.pend.a0.toNat + remClosed (multClosed s.rhW.toNat) s.pend.a1.toNat) % 2 ^ 23 * 257 + s.pend.a2.toNat) %
                2 ^ 23))
            0 0 0))

/-- 40_rolling_hash.md R106: the slide of a window's hash is the hash of the next window. -/
def Obligations.UpdateOfAWindowHashIsTheNextWindowsHash : Prop :=
  ∀ (s : State) (p : Nat), s.RhInv → s.rhValid = true → p + s.rhW.toNat + 1 ≤ 2 ^ 32 →
    Readable s.platform p (s.rhW.toNat + 1) →
    let at0 := fun a : Word => { s with pend := { s.pend with a0 := a } }
    let slid := fun h : Word =>
      { s with
        pend :=
          { s.pend with
            a0 := h, a1 := BitVec.ofNat 32 (s.byteVal p), a2 := BitVec.ofNat 32 (s.byteVal (p + s.rhW.toNat)) } }
    ∃ h h' : Word,
      exec .rhHash (at0 (BitVec.ofNat 32 p)) = .next ((at0 (BitVec.ofNat 32 p)).okDone h 0 0 0) ∧
      exec .rhHash (at0 (BitVec.ofNat 32 (p + 1))) = .next ((at0 (BitVec.ofNat 32 (p + 1))).okDone h' 0 0 0) ∧
      exec .rhUpdate (slid h) = .next ((slid h).okDone h' 0 0 0)

/-- 40_rolling_hash.md R104: every hash the unit returns is below 2^23. -/
def Obligations.HashResultsAreBelowTheModulus : Prop :=
  ∀ (i : Instr) (s t : State), i ∈ [Instr.rhHash, .rhUpdate] → 3 ≤ s.rhW.toNat → exec i s = .next t →
    t.res0.toNat < 2 ^ 23

/-- 40_rolling_hash.md R107: two windows have the same multiplier exactly when they agree in `(W - 1) mod 32768`, and so RH_INIT answers the
same RES0 and leaves the same RH_MULT exactly then. -/
def Obligations.MultiplierHasPeriod32768 : Prop :=
  (∀ v w : Nat, 1 ≤ v → 1 ≤ w → v < 2 ^ 32 → w < 2 ^ 32 → (multW v = multW w ↔ (v - 1) % 32768 = (w - 1) % 32768)) ∧
  (∀ s s' t t' : State, 3 ≤ s.pend.a0.toNat → 3 ≤ s'.pend.a0.toNat → exec .rhInit s = .next t → exec .rhInit s' = .next t' →
    ((t.res0 = t'.res0 ↔ (s.pend.a0.toNat - 1) % 32768 = (s'.pend.a0.toNat - 1) % 32768) ∧
      (t.rhMult = t'.rhMult ↔ (s.pend.a0.toNat - 1) % 32768 = (s'.pend.a0.toNat - 1) % 32768)))

/-! ### Building the index -/

/-- 41_block_index.md R121: the bucket count is the least power of two not below `floor(N / 4) + 1`. -/
def Obligations.TableSizeIsTheLeastPowerOfTwo : Prop :=
  ∀ n : Nat, n < 2 ^ 32 →
    ∃ j, tableSize n = 2 ^ j ∧ n / 4 + 1 ≤ 2 ^ j ∧ ∀ i, n / 4 + 1 ≤ 2 ^ i → 2 ^ j ≤ 2 ^ i

/-- 41_block_index.md R125 with R122: IX_INIT. Its checks in their order; an AllocationFailure shows the rejected geometry; within the
capacities every entry in use becomes `NONE` and the others keep their values. -/
def Obligations.IxInitCreatesAnEmptyIndex : Prop :=
  ∀ s : State,
    let rb := s.pend.a0
    let n := s.pend.a1
    let nb := n.toNat / s.rhW.toNat
    let ts := tableSize n.toNat
    (s.rhValid = false → exec .ixInit s = .next (s.errDone 6 0)) ∧
    (s.rhValid = true → n = 0 → exec .ixInit s = .next ({ s with ixValid := false }.errDone 5 0)) ∧
    (s.rhValid = true → n ≠ 0 → 2 ^ 32 < rb.toNat + n.toNat →
      exec .ixInit s = .next ({ s with ixValid := false }.errDone 8 1)) ∧
    (s.rhValid = true → n ≠ 0 → rb.toNat + n.toNat ≤ 2 ^ 32 →
      (s.platform.maxBlocks.toNat < nb ∨ s.platform.maxTblsiz.toNat < ts) →
      exec .ixInit s =
        .next
          ({ s with
              ixValid := false, ixRefBase := rb, ixRefLen := n, ixNblk := BitVec.ofNat 32 nb
              ixTblsiz := BitVec.ofNat 32 ts, ixLastblk := 0xFFFFFFFF }.errDone 4 0)) ∧
    (s.rhValid = true → n ≠ 0 → rb.toNat + n.toNat ≤ 2 ^ 32 → nb ≤ s.platform.maxBlocks.toNat →
      ts ≤ s.platform.maxTblsiz.toNat →
      ∃ hd nx la : List (Nat × Word),
        exec .ixInit s =
          .next
            ({ s with
                ixValid := true, ixRefBase := rb, ixRefLen := n, ixNblk := BitVec.ofNat 32 nb
                ixTblsiz := BitVec.ofNat 32 ts, ixLastblk := 0xFFFFFFFF, headTab := hd, nextTab := nx, lastTab := la }.okDone
              (BitVec.ofNat 32 nb) (BitVec.ofNat 32 ts) 0 0) ∧
        (∀ k, Sparse.get noneWord hd k = if k < ts then 0xFFFFFFFF else s.head k) ∧
        (∀ b, Sparse.get noneWord nx b = if b < nb then 0xFFFFFFFF else s.nextOf b) ∧
        (∀ b, Sparse.get noneWord la b = if b < nb then 0xFFFFFFFF else s.lastOf b))

/-- 41_block_index.md R127 with R123 and R124: IX_ADD. Not valid; any index but the next block's start; past the last block; and the append of
the next block to its bucket's chain. -/
def Obligations.IxAddAppendsTheNextBlock : Prop :=
  ∀ s : State,
    let b : Word := s.ixLastblk + 1
    let k := s.pend.a1.toNat % s.ixTblsiz.toNat
    let first := s.head k
    (s.ixValid = false → exec .ixAdd s = .next (s.errDone 6 0)) ∧
    (s.ixValid = true → s.pend.a0.toNat ≠ b.toNat * s.rhW.toNat → exec .ixAdd s = .next (s.okDone 0 0xFFFFFFFF 0 0)) ∧
    (s.ixValid = true → s.pend.a0.toNat = b.toNat * s.rhW.toNat → s.ixNblk.toNat ≤ b.toNat →
      exec .ixAdd s = .next ({ s with ixValid := false }.errDone 2 b)) ∧
    (s.Inv → s.ixValid = true → s.pend.a0.toNat = b.toNat * s.rhW.toNat → b.toNat < s.ixNblk.toNat →
      ∃ hd nx la : List (Nat × Word),
        exec .ixAdd s =
          .next ({ s with headTab := hd, nextTab := nx, lastTab := la, ixLastblk := b }.okDone 1 b 0 0) ∧
        (first = 0xFFFFFFFF →
          (∀ j, Sparse.get noneWord hd j = if j = k then b else s.head j) ∧
          (∀ j, Sparse.get noneWord nx j = s.nextOf j) ∧
          (∀ j, Sparse.get noneWord la j = if j = b.toNat then b else s.lastOf j)) ∧
        (first ≠ 0xFFFFFFFF →
          (∀ j, Sparse.get noneWord hd j = s.head j) ∧
          (∀ j, Sparse.get noneWord nx j = if j = (s.lastOf first.toNat).toNat then b else s.nextOf j) ∧
          (∀ j, Sparse.get noneWord la j = if j = first.toNat then b else s.lastOf j)))

/-- 60_exceptions.md R232: InvalidIndex is raised by IX_ADD at the next block's start once every block is indexed, and by IX_NEXT on a block
number out of range; it shows the block number and clears IX_VALID. An IX_ADD at any other index does not raise it. -/
def Obligations.InvalidIndexClearsIxValid : Prop :=
  ∀ s : State, s.ixValid = true →
    (s.pend.a0.toNat = (s.ixLastblk + 1).toNat * s.rhW.toNat → s.ixNblk.toNat ≤ (s.ixLastblk + 1).toNat →
      exec .ixAdd s = .next ({ s with ixValid := false }.errDone 2 (s.ixLastblk + 1))) ∧
    (s.ixNblk.toNat ≤ s.pend.a0.toNat →
      exec .ixNext s = .next ({ s with ixValid := false }.errDone 2 s.pend.a0)) ∧
    (s.pend.a0.toNat ≠ (s.ixLastblk + 1).toNat * s.rhW.toNat → ∃ t, exec .ixAdd s = .next t ∧ t.lastErr = 0 ∧ t.ixValid = true)

/-! ### Lookups -/

/-- 42_match_verify.md R145 with R141: IX_FIRST finds the first matching block among the first 16 of the bucket's chain, and counts the
blocks it compared. Only the bytes it reaches need be readable (20_memory.md R63). -/
def Obligations.IxFirstFindsTheFirstMatchInBudget : Prop :=
  ∀ s : State, s.Inv → s.ixValid = true →
    let tp := s.pend.a1.toNat
    tp + s.rhW.toNat ≤ 2 ^ 32 →
    ∃ chain, s.Walk chain (s.head (s.pend.a0.toNat % s.ixTblsiz.toNat)) ∧
      let probed := chain.take 16
      (AllReadable s.platform (s.lookupReads tp chain) →
        exec .ixFirst s =
          .next
            (s.okDone
              (match probed.find? (s.blockMatches tp) with
                | some b => BitVec.ofNat 32 b
                | none => 0xFFFFFFFF)
              (BitVec.ofNat 32 (min (probed.findIdx (s.blockMatches tp) + 1) probed.length)) 0 0))

/-- 42_match_verify.md R146 with R141: IX_NEXT makes the same scan from the block behind the one given. Only the bytes it reaches need be
readable (20_memory.md R63). -/
def Obligations.IxNextGoesOnBehindABlock : Prop :=
  ∀ s : State, s.Inv → s.ixValid = true → s.pend.a0.toNat < s.ixNblk.toNat →
    let tp := s.pend.a1.toNat
    tp + s.rhW.toNat ≤ 2 ^ 32 →
    ∃ chain, s.Walk chain (s.nextOf s.pend.a0.toNat) ∧
      let probed := chain.take 16
      (AllReadable s.platform (s.lookupReads tp chain) →
        exec .ixNext s =
          .next
            (s.okDone
              (match probed.find? (s.blockMatches tp) with
                | some b => BitVec.ofNat 32 b
                | none => 0xFFFFFFFF)
              (BitVec.ofNat 32 (min (probed.findIdx (s.blockMatches tp) + 1) probed.length)) 0 0))

/-- 60_exceptions.md R238: InvalidArgument, row by row, each with the checks before it passed. Every sum is exact. IX_INIT leaves IX_VALID 0;
no other command changes a unit. -/
def Obligations.InvalidArgumentNamesTheRejectedRegister : Prop :=
  ∀ s : State,
    (s.rhValid = true → 2 ^ 32 < s.pend.a0.toNat + s.rhW.toNat → exec .rhHash s = .next (s.errDone 8 0)) ∧
    (s.rhValid = true → 0xFF < s.pend.a1.toNat → exec .rhUpdate s = .next (s.errDone 8 1)) ∧
    (s.rhValid = true → s.pend.a1.toNat ≤ 0xFF → 0xFF < s.pend.a2.toNat → exec .rhUpdate s = .next (s.errDone 8 2)) ∧
    (s.rhValid = true → s.pend.a1 ≠ 0 → 2 ^ 32 < s.pend.a0.toNat + s.pend.a1.toNat →
      exec .ixInit s = .next ({ s with ixValid := false }.errDone 8 1)) ∧
    (s.ixValid = true → 2 ^ 32 < s.pend.a1.toNat + s.rhW.toNat → exec .ixFirst s = .next (s.errDone 8 1)) ∧
    (s.ixValid = true → s.pend.a0.toNat < s.ixNblk.toNat → 2 ^ 32 < s.pend.a1.toNat + s.rhW.toNat →
      exec .ixNext s = .next (s.errDone 8 1)) ∧
    (s.ixValid = true → s.pend.a1.toNat < s.pend.a2.toNat → exec .ixBest s = .next (s.errDone 8 2)) ∧
    (s.ixValid = true → s.pend.a2.toNat ≤ s.pend.a1.toNat →
      (s.pend.a3.toNat < s.rhW.toNat ∨ 2 ^ 32 < s.pend.a1.toNat + s.pend.a3.toNat) →
      exec .ixBest s = .next (s.errDone 8 3))

/-- 60_exceptions.md R239 with 92_eei_decisions.md D29: the lookups complete with MemoryFault at the first read that fails, in the order of
42_match_verify.md R140 and R141 (each block compared in chain order, the reference byte of each pair before the target byte) and, for
IX_BEST, of 43_best_match.md R160, R161 and R165 (each candidate verified, extended left, then extended right). The blocks given need only be
a start of the chain that holds the failing read. -/
def Obligations.LookupFaultsAtTheFirstUnreadableByte : Prop :=
  ∀ (s : State) (blocks : List Nat) (a : Nat), s.ixValid = true →
    let tp := s.pend.a1.toNat
    let tb := s.pend.a2.toNat
    let tl := s.pend.a3.toNat
    (tp + s.rhW.toNat ≤ 2 ^ 32 → s.Follows blocks (s.firstOf s.pend.a0) →
      FirstFailure s.platform (s.lookupReads tp blocks) a → exec .ixFirst s = .next (s.errDone 9 (BitVec.ofNat 32 a))) ∧
    (s.pend.a0.toNat < s.ixNblk.toNat → tp + s.rhW.toNat ≤ 2 ^ 32 → s.Follows blocks (s.nextOf s.pend.a0.toNat) →
      FirstFailure s.platform (s.lookupReads tp blocks) a → exec .ixNext s = .next (s.errDone 9 (BitVec.ofNat 32 a))) ∧
    (tb ≤ tp → s.rhW.toNat ≤ tl → tp + tl ≤ 2 ^ 32 → s.Follows blocks (s.firstOf s.pend.a0) →
      FirstFailure s.platform (s.bestReads tp tb tl s.pend.maxcand.toNat blocks) a →
      exec .ixBest s = .next (s.errDone 9 (BitVec.ofNat 32 a)))

/-- 42_match_verify.md R143 and R140: a block that IX_FIRST or IX_NEXT reports equals the target window in every byte. -/
def Obligations.AReportedBlockEqualsTheWindow : Prop :=
  ∀ (i : Instr) (s t : State), i ∈ [Instr.ixFirst, .ixNext] → exec i s = .next t → t.lastErr = 0 →
    t.res0 ≠ 0xFFFFFFFF →
    s.sameBytes (s.ixRefBase.toNat + t.res0.toNat * s.rhW.toNat) s.pend.a1.toNat s.rhW.toNat

/-- 42_match_verify.md R142: at most 16 probes, none exactly when there is no block to start from. -/
def Obligations.ProbesStayWithinTheBudget : Prop :=
  ∀ s t : State,
    (exec .ixFirst s = .next t → t.lastErr = 0 →
      t.res1.toNat ≤ 16 ∧ (t.res1 = 0 ↔ s.firstOf s.pend.a0 = 0xFFFFFFFF)) ∧
    (exec .ixNext s = .next t → t.lastErr = 0 →
      t.res1.toNat ≤ 16 ∧ (t.res1 = 0 ↔ s.nextOf s.pend.a0.toNat = 0xFFFFFFFF))

/-! ### The longest match -/

/-- 43_best_match.md R166 with R160 to R165: IX_BEST reports, of the candidates enumerated within the cap, the lowest-numbered one whose
extended length is greatest, or none. Only the bytes it reaches need be readable (20_memory.md R63). -/
def Obligations.IxBestReportsTheLongestCandidate : Prop :=
  ∀ s : State, s.Inv → s.ixValid = true →
    let tp := s.pend.a1.toNat
    let tb := s.pend.a2.toNat
    let tl := s.pend.a3.toNat
    let w := s.rhW.toNat
    tb ≤ tp → w ≤ tl → tp + tl ≤ 2 ^ 32 →
    ∃ chain, s.Walk chain (s.head (s.pend.a0.toNat % s.ixTblsiz.toNat)) ∧
      let found := enumerate (s.blockMatches tp) s.pend.maxcand.toNat chain
      let readable := AllReadable s.platform (s.bestReads tp tb tl s.pend.maxcand.toNat chain)
      (readable → found = [] → exec .ixBest s = .next (s.okDone 0xFFFFFFFF 0 0 0)) ∧
      (readable → found ≠ [] →
        ∃ (le re : Nat → Nat), (∀ b ∈ found, s.IsLeftExt (b * w) tp tb (le b) ∧ s.IsRightExt (b * w) tp tl (re b)) ∧
          ∃ c ∈ found, (∀ b ∈ found, le b + re b ≤ le c + re c) ∧
            (∀ b ∈ found, le b + re b = le c + re c → c ≤ b) ∧
            exec .ixBest s =
              .next
                (s.okDone (BitVec.ofNat 32 c) (BitVec.ofNat 32 (c * w - le c)) (BitVec.ofNat 32 (tp - tb - le c))
                  (BitVec.ofNat 32 (w + le c + re c))))

/-- 43_best_match.md R167 and R162: the bounds of a reported match, and that its bytes are equal. -/
def Obligations.AReportedMatchLiesInBoundsAndIsEqual : Prop :=
  ∀ s t : State, s.Inv → exec .ixBest s = .next t → t.lastErr = 0 → t.res0 ≠ 0xFFFFFFFF →
    let src := t.res1.toNat
    let dst := t.res2.toNat
    let len := t.res3.toNat
    let tp := s.pend.a1.toNat
    let tb := s.pend.a2.toNat
    s.rhW.toNat ≤ len ∧ src + len ≤ s.ixRefLen.toNat ∧ tb + dst + len ≤ tp + s.pend.a3.toNat ∧ dst ≤ tp - tb ∧
      (tp - tb) - dst = t.res0.toNat * s.rhW.toNat - src ∧ src ≤ t.res0.toNat * s.rhW.toNat ∧
      s.sameBytes (s.ixRefBase.toNat + src) (tb + dst) len

/-- 43_best_match.md R164: with a cap of 0 no scan is made, whatever data memory holds. -/
def Obligations.IxBestWithCapZeroReportsNone : Prop :=
  ∀ s : State, s.ixValid = true → s.pend.a2.toNat ≤ s.pend.a1.toNat → s.rhW.toNat ≤ s.pend.a3.toNat →
    s.pend.a1.toNat + s.pend.a3.toNat ≤ 2 ^ 32 → s.pend.maxcand = 0 →
    exec .ixBest s = .next (s.okDone 0xFFFFFFFF 0 0 0)

/-- 43_best_match.md R168: the reference as its own target: a block that the enumeration reaches at its own offset makes the match the
whole buffer. -/
def Obligations.SelfMatchSpansTheWholeBuffer : Prop :=
  ∀ (s t : State) (b : Nat) (chain : List Nat), s.Inv → s.ixValid = true →
    s.pend.a2 = s.ixRefBase → s.pend.a1.toNat = s.ixRefBase.toNat + b * s.rhW.toNat →
    s.ixRefLen.toNat - b * s.rhW.toNat ≤ s.pend.a3.toNat → s.pend.a1.toNat + s.pend.a3.toNat ≤ 2 ^ 32 →
    s.Walk chain (s.head (s.pend.a0.toNat % s.ixTblsiz.toNat)) →
    b ∈ enumerate (s.blockMatches s.pend.a1.toNat) s.pend.maxcand.toNat chain →
    Readable s.platform s.ixRefBase.toNat s.ixRefLen.toNat →
    Readable s.platform s.pend.a2.toNat (s.pend.a1.toNat + s.pend.a3.toNat - s.pend.a2.toNat) →
    exec .ixBest s = .next t → t.res3 = s.ixRefLen

/-! ### Invariants -/

/-- The state after reset meets the machine's invariant, on every platform. -/
def Obligations.ResetMeetsTheInvariant : Prop :=
  ∀ p : Platform, (State.resetOn p).Inv

/-- Data memory and the arrays keep their canonical form in every step. -/
def Obligations.EveryStepKeepsTheCanonicalForm : Prop :=
  ∀ s t : State, s.Canonical → step s = .next t → t.Canonical

/-- 10_state.md R32, R33 and R39: the rolling-hash unit's invariant is kept by every step. -/
def Obligations.EveryStepKeepsTheRollingHashUnit : Prop :=
  ∀ s t : State, s.RhInv → step s = .next t → t.RhInv

/-- 10_state.md R44: the machine's invariant, the chains of a valid index among it, is kept by every step. -/
def Obligations.EveryStepKeepsTheInvariant : Prop :=
  ∀ s t : State, s.Inv → step s = .next t → t.Inv

/-- 44_control.md R186: IX_VALID = 1 implies RH_VALID = 1, kept by every step. -/
def Obligations.EveryStepKeepsIxValidImpliesRhValid : Prop :=
  ∀ s t : State, (s.ixValid = true → s.rhValid = true) → step s = .next t → (t.ixValid = true → t.rhValid = true)

/-! ### The read range of a pending command -/

/-- 20_memory.md R67 with R62: a device with read side effects anywhere in the pending command's read range is refused, whether or not the
command would reach it. For RH_HASH and IX_BEST the range is the one R62 lists; for the lookups it is the model's reading of R62
(notes/assumptions/8.md). Which device byte the refusal names is the model's choice (notes/assumptions/7.md). -/
def Obligations.DeviceInTheReadRangeIsRefused : Prop :=
  ∀ (s : State) (a : Nat), s.seq = .busy → s.coreMoves → s.platform.kindAt a = some .device →
    (s.inReadRange a = true →
      ∃ b, s.inReadRange b = true ∧ s.platform.kindAt b = some .device ∧ step s = .refused (.deviceRead b)) ∧
    (s.pend.cmdword = 0x00000002 → s.rhValid = true → s.pend.a0.toNat + s.rhW.toNat ≤ 2 ^ 32 →
      s.pend.a0.toNat ≤ a → a < s.pend.a0.toNat + s.rhW.toNat → ∃ b, step s = .refused (.deviceRead b)) ∧
    (s.pend.cmdword = 0x00000014 → s.ixValid = true → s.pend.a2.toNat ≤ s.pend.a1.toNat →
      s.rhW.toNat ≤ s.pend.a3.toNat → s.pend.a1.toNat + s.pend.a3.toNat ≤ 2 ^ 32 →
      ((s.ixRefBase.toNat ≤ a ∧ a < s.ixRefBase.toNat + s.ixRefLen.toNat) ∨
        (s.pend.a2.toNat ≤ a ∧ a < s.pend.a1.toNat + s.pend.a3.toNat)) →
      ∃ b, step s = .refused (.deviceRead b))

/-- 20_memory.md R61, R62 and R73: while a command is pending, a write of plain memory that falls outside all that R62 lists for it goes through
and changes nothing else: any write during a command that reads no data, one outside the window of RH_HASH, one outside the target
window and the compared blocks of IX_FIRST and IX_NEXT, and one outside the reference and the target of IX_BEST. -/
def Obligations.WriteOutsideTheReadRangeGoesThrough : Prop :=
  ∀ (s : State) (a : Word) (v : Byte), s.seq = .busy → Memory.wf s.mem = true →
    s.platform.kindAt a.toNat = some .memory →
    let clear := fun (tp : Nat) (chain : List Nat) =>
      Outside a.toNat tp s.rhW.toNat ∧
        ∀ b ∈ s.compared tp chain, Outside a.toNat (s.ixRefBase.toNat + b * s.rhW.toNat) s.rhW.toNat
    (s.pend.cmdword ∉ [0x00000002, 0x00000012, 0x00000013, 0x00000014] → s.WritesOneByte a v) ∧
    (s.pend.cmdword = 0x00000002 → Outside a.toNat s.pend.a0.toNat s.rhW.toNat → s.WritesOneByte a v) ∧
    (∀ chain, s.pend.cmdword = 0x00000012 → s.Walk chain (s.firstOf s.pend.a0) → clear s.pend.a1.toNat chain →
      s.WritesOneByte a v) ∧
    (∀ chain, s.pend.cmdword = 0x00000013 → s.Walk chain (s.nextOf s.pend.a0.toNat) → clear s.pend.a1.toNat chain →
      s.WritesOneByte a v) ∧
    (s.pend.cmdword = 0x00000014 → Outside a.toNat s.ixRefBase.toNat s.ixRefLen.toNat →
      (a.toNat < s.pend.a2.toNat ∨ s.pend.a1.toNat + s.pend.a3.toNat ≤ a.toNat) → s.WritesOneByte a v)

/-! ### The reference host program -/

/-- 45_host_delta_encoder.md R212: replaying an Add appends the target's bytes from its offset on, as many as it says; replaying a Copy whose
source is already written appends bytes of the output one at a time, so that it may read what it has itself just appended. -/
def Obligations.ReplayAppendsByteByByte : Prop :=
  ∀ (m : List Host.Cell) (target : Nat) (out : List Byte),
    (∀ off n, target + off + n ≤ 2 ^ 32 →
      ∃ more, replayOp m target out (.add off n) = some (out ++ more) ∧ more.length = n ∧
        ∀ j, j < n → more[j]? = some (Memory.read m (target + off + j))) ∧
    (∀ src n, src < out.length →
      ∃ more, replayOp m target out (.copy src n) = some (out ++ more) ∧ more.length = n ∧
        ∀ j, j < n → more[j]? = (out ++ more)[src + j]?)
end

