-- ==== Sys2Proof/Laws/State.lean ====
section
/-! SUPPORT. What each named update of the state leaves in each field, so that no proof unfolds a record update. -/

namespace Sys2Proof.Machine

/-! ### `complete` -/

@[simp] theorem State.complete_done (s : State) (r0 r1 r2 r3 : Word) : (s.complete r0 r1 r2 r3).done = true := rfl
@[simp] theorem State.complete_err (s : State) (r0 r1 r2 r3 : Word) : (s.complete r0 r1 r2 r3).err = s.err := rfl
@[simp] theorem State.complete_ovr (s : State) (r0 r1 r2 r3 : Word) : (s.complete r0 r1 r2 r3).ovr = s.ovr := rfl
@[simp] theorem State.complete_rhValid (s : State) (r0 r1 r2 r3 : Word) : (s.complete r0 r1 r2 r3).rhValid = s.rhValid := rfl
@[simp] theorem State.complete_ixValid (s : State) (r0 r1 r2 r3 : Word) : (s.complete r0 r1 r2 r3).ixValid = s.ixValid := rfl
@[simp] theorem State.complete_lastErr (s : State) (r0 r1 r2 r3 : Word) : (s.complete r0 r1 r2 r3).lastErr = 0 := rfl
@[simp] theorem State.complete_lastOp (s : State) (r0 r1 r2 r3 : Word) : (s.complete r0 r1 r2 r3).lastOp = s.lastOp := rfl
@[simp] theorem State.complete_errInfo (s : State) (r0 r1 r2 r3 : Word) : (s.complete r0 r1 r2 r3).errInfo = 0 := rfl
@[simp] theorem State.complete_arg0 (s : State) (r0 r1 r2 r3 : Word) : (s.complete r0 r1 r2 r3).arg0 = s.arg0 := rfl
@[simp] theorem State.complete_arg1 (s : State) (r0 r1 r2 r3 : Word) : (s.complete r0 r1 r2 r3).arg1 = s.arg1 := rfl
@[simp] theorem State.complete_arg2 (s : State) (r0 r1 r2 r3 : Word) : (s.complete r0 r1 r2 r3).arg2 = s.arg2 := rfl
@[simp] theorem State.complete_arg3 (s : State) (r0 r1 r2 r3 : Word) : (s.complete r0 r1 r2 r3).arg3 = s.arg3 := rfl
@[simp] theorem State.complete_res0 (s : State) (r0 r1 r2 r3 : Word) : (s.complete r0 r1 r2 r3).res0 = r0 := rfl
@[simp] theorem State.complete_res1 (s : State) (r0 r1 r2 r3 : Word) : (s.complete r0 r1 r2 r3).res1 = r1 := rfl
@[simp] theorem State.complete_res2 (s : State) (r0 r1 r2 r3 : Word) : (s.complete r0 r1 r2 r3).res2 = r2 := rfl
@[simp] theorem State.complete_res3 (s : State) (r0 r1 r2 r3 : Word) : (s.complete r0 r1 r2 r3).res3 = r3 := rfl
@[simp] theorem State.complete_maxCand (s : State) (r0 r1 r2 r3 : Word) : (s.complete r0 r1 r2 r3).maxCand = s.maxCand := rfl
@[simp] theorem State.complete_rhW (s : State) (r0 r1 r2 r3 : Word) : (s.complete r0 r1 r2 r3).rhW = s.rhW := rfl
@[simp] theorem State.complete_rhMult (s : State) (r0 r1 r2 r3 : Word) : (s.complete r0 r1 r2 r3).rhMult = s.rhMult := rfl
@[simp] theorem State.complete_ixRefBase (s : State) (r0 r1 r2 r3 : Word) : (s.complete r0 r1 r2 r3).ixRefBase = s.ixRefBase := rfl
@[simp] theorem State.complete_ixRefLen (s : State) (r0 r1 r2 r3 : Word) : (s.complete r0 r1 r2 r3).ixRefLen = s.ixRefLen := rfl
@[simp] theorem State.complete_ixNblk (s : State) (r0 r1 r2 r3 : Word) : (s.complete r0 r1 r2 r3).ixNblk = s.ixNblk := rfl
@[simp] theorem State.complete_ixTblsiz (s : State) (r0 r1 r2 r3 : Word) : (s.complete r0 r1 r2 r3).ixTblsiz = s.ixTblsiz := rfl
@[simp] theorem State.complete_ixLastblk (s : State) (r0 r1 r2 r3 : Word) : (s.complete r0 r1 r2 r3).ixLastblk = s.ixLastblk := rfl
@[simp] theorem State.complete_remtab (s : State) (r0 r1 r2 r3 : Word) : (s.complete r0 r1 r2 r3).remtab = s.remtab := rfl
@[simp] theorem State.complete_headTab (s : State) (r0 r1 r2 r3 : Word) : (s.complete r0 r1 r2 r3).headTab = s.headTab := rfl
@[simp] theorem State.complete_nextTab (s : State) (r0 r1 r2 r3 : Word) : (s.complete r0 r1 r2 r3).nextTab = s.nextTab := rfl
@[simp] theorem State.complete_lastTab (s : State) (r0 r1 r2 r3 : Word) : (s.complete r0 r1 r2 r3).lastTab = s.lastTab := rfl
@[simp] theorem State.complete_seq (s : State) (r0 r1 r2 r3 : Word) : (s.complete r0 r1 r2 r3).seq = .idle := rfl
@[simp] theorem State.complete_pend (s : State) (r0 r1 r2 r3 : Word) : (s.complete r0 r1 r2 r3).pend = s.pend := rfl
@[simp] theorem State.complete_platform (s : State) (r0 r1 r2 r3 : Word) : (s.complete r0 r1 r2 r3).platform = s.platform := rfl
@[simp] theorem State.complete_mem (s : State) (r0 r1 r2 r3 : Word) : (s.complete r0 r1 r2 r3).mem = s.mem := rfl
@[simp] theorem State.complete_program (s : State) (r0 r1 r2 r3 : Word) : (s.complete r0 r1 r2 r3).program = s.program := rfl
@[simp] theorem State.complete_schedule (s : State) (r0 r1 r2 r3 : Word) : (s.complete r0 r1 r2 r3).schedule = s.schedule := rfl
@[simp] theorem State.complete_hostReads (s : State) (r0 r1 r2 r3 : Word) : (s.complete r0 r1 r2 r3).hostReads = s.hostReads := rfl
@[simp] theorem State.complete_freeCtr (s : State) (r0 r1 r2 r3 : Word) : (s.complete r0 r1 r2 r3).freeCtr = s.freeCtr := rfl

/-! ### `raise` -/

@[simp] theorem State.raise_done (s : State) (e : ErrKind) (info : Word) : (s.raise e info).done = true := rfl
@[simp] theorem State.raise_err (s : State) (e : ErrKind) (info : Word) : (s.raise e info).err = true := rfl
@[simp] theorem State.raise_ovr (s : State) (e : ErrKind) (info : Word) : (s.raise e info).ovr = s.ovr := rfl
@[simp] theorem State.raise_rhValid (s : State) (e : ErrKind) (info : Word) : (s.raise e info).rhValid = s.rhValid := rfl
@[simp] theorem State.raise_ixValid (s : State) (e : ErrKind) (info : Word) : (s.raise e info).ixValid = (if e.invalidatesIndex then false else s.ixValid) := rfl
@[simp] theorem State.raise_lastErr (s : State) (e : ErrKind) (info : Word) : (s.raise e info).lastErr = e.code := rfl
@[simp] theorem State.raise_lastOp (s : State) (e : ErrKind) (info : Word) : (s.raise e info).lastOp = s.lastOp := rfl
@[simp] theorem State.raise_errInfo (s : State) (e : ErrKind) (info : Word) : (s.raise e info).errInfo = info := rfl
@[simp] theorem State.raise_arg0 (s : State) (e : ErrKind) (info : Word) : (s.raise e info).arg0 = s.arg0 := rfl
@[simp] theorem State.raise_arg1 (s : State) (e : ErrKind) (info : Word) : (s.raise e info).arg1 = s.arg1 := rfl
@[simp] theorem State.raise_arg2 (s : State) (e : ErrKind) (info : Word) : (s.raise e info).arg2 = s.arg2 := rfl
@[simp] theorem State.raise_arg3 (s : State) (e : ErrKind) (info : Word) : (s.raise e info).arg3 = s.arg3 := rfl
@[simp] theorem State.raise_res0 (s : State) (e : ErrKind) (info : Word) : (s.raise e info).res0 = 0 := rfl
@[simp] theorem State.raise_res1 (s : State) (e : ErrKind) (info : Word) : (s.raise e info).res1 = 0 := rfl
@[simp] theorem State.raise_res2 (s : State) (e : ErrKind) (info : Word) : (s.raise e info).res2 = 0 := rfl
@[simp] theorem State.raise_res3 (s : State) (e : ErrKind) (info : Word) : (s.raise e info).res3 = 0 := rfl
@[simp] theorem State.raise_maxCand (s : State) (e : ErrKind) (info : Word) : (s.raise e info).maxCand = s.maxCand := rfl
@[simp] theorem State.raise_rhW (s : State) (e : ErrKind) (info : Word) : (s.raise e info).rhW = s.rhW := rfl
@[simp] theorem State.raise_rhMult (s : State) (e : ErrKind) (info : Word) : (s.raise e info).rhMult = s.rhMult := rfl
@[simp] theorem State.raise_ixRefBase (s : State) (e : ErrKind) (info : Word) : (s.raise e info).ixRefBase = s.ixRefBase := rfl
@[simp] theorem State.raise_ixRefLen (s : State) (e : ErrKind) (info : Word) : (s.raise e info).ixRefLen = s.ixRefLen := rfl
@[simp] theorem State.raise_ixNblk (s : State) (e : ErrKind) (info : Word) : (s.raise e info).ixNblk = s.ixNblk := rfl
@[simp] theorem State.raise_ixTblsiz (s : State) (e : ErrKind) (info : Word) : (s.raise e info).ixTblsiz = s.ixTblsiz := rfl
@[simp] theorem State.raise_ixLastblk (s : State) (e : ErrKind) (info : Word) : (s.raise e info).ixLastblk = s.ixLastblk := rfl
@[simp] theorem State.raise_remtab (s : State) (e : ErrKind) (info : Word) : (s.raise e info).remtab = s.remtab := rfl
@[simp] theorem State.raise_headTab (s : State) (e : ErrKind) (info : Word) : (s.raise e info).headTab = s.headTab := rfl
@[simp] theorem State.raise_nextTab (s : State) (e : ErrKind) (info : Word) : (s.raise e info).nextTab = s.nextTab := rfl
@[simp] theorem State.raise_lastTab (s : State) (e : ErrKind) (info : Word) : (s.raise e info).lastTab = s.lastTab := rfl
@[simp] theorem State.raise_seq (s : State) (e : ErrKind) (info : Word) : (s.raise e info).seq = .idle := rfl
@[simp] theorem State.raise_pend (s : State) (e : ErrKind) (info : Word) : (s.raise e info).pend = s.pend := rfl
@[simp] theorem State.raise_platform (s : State) (e : ErrKind) (info : Word) : (s.raise e info).platform = s.platform := rfl
@[simp] theorem State.raise_mem (s : State) (e : ErrKind) (info : Word) : (s.raise e info).mem = s.mem := rfl
@[simp] theorem State.raise_program (s : State) (e : ErrKind) (info : Word) : (s.raise e info).program = s.program := rfl
@[simp] theorem State.raise_schedule (s : State) (e : ErrKind) (info : Word) : (s.raise e info).schedule = s.schedule := rfl
@[simp] theorem State.raise_hostReads (s : State) (e : ErrKind) (info : Word) : (s.raise e info).hostReads = s.hostReads := rfl
@[simp] theorem State.raise_freeCtr (s : State) (e : ErrKind) (info : Word) : (s.raise e info).freeCtr = s.freeCtr := rfl

/-! ### `issue` -/

@[simp] theorem State.issue_done (s : State) (v : Word) : (s.issue v).done = false := rfl
@[simp] theorem State.issue_err (s : State) (v : Word) : (s.issue v).err = s.err := rfl
@[simp] theorem State.issue_ovr (s : State) (v : Word) : (s.issue v).ovr = s.ovr := rfl
@[simp] theorem State.issue_rhValid (s : State) (v : Word) : (s.issue v).rhValid = s.rhValid := rfl
@[simp] theorem State.issue_ixValid (s : State) (v : Word) : (s.issue v).ixValid = s.ixValid := rfl
@[simp] theorem State.issue_lastErr (s : State) (v : Word) : (s.issue v).lastErr = s.lastErr := rfl
@[simp] theorem State.issue_lastOp (s : State) (v : Word) : (s.issue v).lastOp = opField v := rfl
@[simp] theorem State.issue_errInfo (s : State) (v : Word) : (s.issue v).errInfo = s.errInfo := rfl
@[simp] theorem State.issue_arg0 (s : State) (v : Word) : (s.issue v).arg0 = s.arg0 := rfl
@[simp] theorem State.issue_arg1 (s : State) (v : Word) : (s.issue v).arg1 = s.arg1 := rfl
@[simp] theorem State.issue_arg2 (s : State) (v : Word) : (s.issue v).arg2 = s.arg2 := rfl
@[simp] theorem State.issue_arg3 (s : State) (v : Word) : (s.issue v).arg3 = s.arg3 := rfl
@[simp] theorem State.issue_res0 (s : State) (v : Word) : (s.issue v).res0 = s.res0 := rfl
@[simp] theorem State.issue_res1 (s : State) (v : Word) : (s.issue v).res1 = s.res1 := rfl
@[simp] theorem State.issue_res2 (s : State) (v : Word) : (s.issue v).res2 = s.res2 := rfl
@[simp] theorem State.issue_res3 (s : State) (v : Word) : (s.issue v).res3 = s.res3 := rfl
@[simp] theorem State.issue_maxCand (s : State) (v : Word) : (s.issue v).maxCand = s.maxCand := rfl
@[simp] theorem State.issue_rhW (s : State) (v : Word) : (s.issue v).rhW = s.rhW := rfl
@[simp] theorem State.issue_rhMult (s : State) (v : Word) : (s.issue v).rhMult = s.rhMult := rfl
@[simp] theorem State.issue_ixRefBase (s : State) (v : Word) : (s.issue v).ixRefBase = s.ixRefBase := rfl
@[simp] theorem State.issue_ixRefLen (s : State) (v : Word) : (s.issue v).ixRefLen = s.ixRefLen := rfl
@[simp] theorem State.issue_ixNblk (s : State) (v : Word) : (s.issue v).ixNblk = s.ixNblk := rfl
@[simp] theorem State.issue_ixTblsiz (s : State) (v : Word) : (s.issue v).ixTblsiz = s.ixTblsiz := rfl
@[simp] theorem State.issue_ixLastblk (s : State) (v : Word) : (s.issue v).ixLastblk = s.ixLastblk := rfl
@[simp] theorem State.issue_remtab (s : State) (v : Word) : (s.issue v).remtab = s.remtab := rfl
@[simp] theorem State.issue_headTab (s : State) (v : Word) : (s.issue v).headTab = s.headTab := rfl
@[simp] theorem State.issue_nextTab (s : State) (v : Word) : (s.issue v).nextTab = s.nextTab := rfl
@[simp] theorem State.issue_lastTab (s : State) (v : Word) : (s.issue v).lastTab = s.lastTab := rfl
@[simp] theorem State.issue_seq (s : State) (v : Word) : (s.issue v).seq = .busy := rfl
@[simp] theorem State.issue_pend (s : State) (v : Word) : (s.issue v).pend = ⟨opField v, v, s.arg0, s.arg1, s.arg2, s.arg3, s.maxCand⟩ := rfl
@[simp] theorem State.issue_platform (s : State) (v : Word) : (s.issue v).platform = s.platform := rfl
@[simp] theorem State.issue_mem (s : State) (v : Word) : (s.issue v).mem = s.mem := rfl
@[simp] theorem State.issue_program (s : State) (v : Word) : (s.issue v).program = s.program := rfl
@[simp] theorem State.issue_schedule (s : State) (v : Word) : (s.issue v).schedule = s.schedule := rfl
@[simp] theorem State.issue_hostReads (s : State) (v : Word) : (s.issue v).hostReads = s.hostReads := rfl
@[simp] theorem State.issue_freeCtr (s : State) (v : Word) : (s.issue v).freeCtr = s.freeCtr := rfl

/-! ### `overrun` -/

@[simp] theorem State.overrun_done (s : State) : s.overrun.done = s.done := rfl
@[simp] theorem State.overrun_err (s : State) : s.overrun.err = s.err := rfl
@[simp] theorem State.overrun_ovr (s : State) : s.overrun.ovr = true := rfl
@[simp] theorem State.overrun_rhValid (s : State) : s.overrun.rhValid = s.rhValid := rfl
@[simp] theorem State.overrun_ixValid (s : State) : s.overrun.ixValid = s.ixValid := rfl
@[simp] theorem State.overrun_lastErr (s : State) : s.overrun.lastErr = s.lastErr := rfl
@[simp] theorem State.overrun_lastOp (s : State) : s.overrun.lastOp = s.lastOp := rfl
@[simp] theorem State.overrun_errInfo (s : State) : s.overrun.errInfo = s.errInfo := rfl
@[simp] theorem State.overrun_arg0 (s : State) : s.overrun.arg0 = s.arg0 := rfl
@[simp] theorem State.overrun_arg1 (s : State) : s.overrun.arg1 = s.arg1 := rfl
@[simp] theorem State.overrun_arg2 (s : State) : s.overrun.arg2 = s.arg2 := rfl
@[simp] theorem State.overrun_arg3 (s : State) : s.overrun.arg3 = s.arg3 := rfl
@[simp] theorem State.overrun_res0 (s : State) : s.overrun.res0 = s.res0 := rfl
@[simp] theorem State.overrun_res1 (s : State) : s.overrun.res1 = s.res1 := rfl
@[simp] theorem State.overrun_res2 (s : State) : s.overrun.res2 = s.res2 := rfl
@[simp] theorem State.overrun_res3 (s : State) : s.overrun.res3 = s.res3 := rfl
@[simp] theorem State.overrun_maxCand (s : State) : s.overrun.maxCand = s.maxCand := rfl
@[simp] theorem State.overrun_rhW (s : State) : s.overrun.rhW = s.rhW := rfl
@[simp] theorem State.overrun_rhMult (s : State) : s.overrun.rhMult = s.rhMult := rfl
@[simp] theorem State.overrun_ixRefBase (s : State) : s.overrun.ixRefBase = s.ixRefBase := rfl
@[simp] theorem State.overrun_ixRefLen (s : State) : s.overrun.ixRefLen = s.ixRefLen := rfl
@[simp] theorem State.overrun_ixNblk (s : State) : s.overrun.ixNblk = s.ixNblk := rfl
@[simp] theorem State.overrun_ixTblsiz (s : State) : s.overrun.ixTblsiz = s.ixTblsiz := rfl
@[simp] theorem State.overrun_ixLastblk (s : State) : s.overrun.ixLastblk = s.ixLastblk := rfl
@[simp] theorem State.overrun_remtab (s : State) : s.overrun.remtab = s.remtab := rfl
@[simp] theorem State.overrun_headTab (s : State) : s.overrun.headTab = s.headTab := rfl
@[simp] theorem State.overrun_nextTab (s : State) : s.overrun.nextTab = s.nextTab := rfl
@[simp] theorem State.overrun_lastTab (s : State) : s.overrun.lastTab = s.lastTab := rfl
@[simp] theorem State.overrun_seq (s : State) : s.overrun.seq = s.seq := rfl
@[simp] theorem State.overrun_pend (s : State) : s.overrun.pend = s.pend := rfl
@[simp] theorem State.overrun_platform (s : State) : s.overrun.platform = s.platform := rfl
@[simp] theorem State.overrun_mem (s : State) : s.overrun.mem = s.mem := rfl
@[simp] theorem State.overrun_program (s : State) : s.overrun.program = s.program := rfl
@[simp] theorem State.overrun_schedule (s : State) : s.overrun.schedule = s.schedule := rfl
@[simp] theorem State.overrun_hostReads (s : State) : s.overrun.hostReads = s.hostReads := rfl
@[simp] theorem State.overrun_freeCtr (s : State) : s.overrun.freeCtr = s.freeCtr := rfl

/-! ### `resetBlock` -/

@[simp] theorem State.resetBlock_done (s : State) : s.resetBlock.done = false := rfl
@[simp] theorem State.resetBlock_err (s : State) : s.resetBlock.err = false := rfl
@[simp] theorem State.resetBlock_ovr (s : State) : s.resetBlock.ovr = false := rfl
@[simp] theorem State.resetBlock_rhValid (s : State) : s.resetBlock.rhValid = false := rfl
@[simp] theorem State.resetBlock_ixValid (s : State) : s.resetBlock.ixValid = false := rfl
@[simp] theorem State.resetBlock_lastErr (s : State) : s.resetBlock.lastErr = 0 := rfl
@[simp] theorem State.resetBlock_lastOp (s : State) : s.resetBlock.lastOp = 0 := rfl
@[simp] theorem State.resetBlock_errInfo (s : State) : s.resetBlock.errInfo = 0 := rfl
@[simp] theorem State.resetBlock_arg0 (s : State) : s.resetBlock.arg0 = 0 := rfl
@[simp] theorem State.resetBlock_arg1 (s : State) : s.resetBlock.arg1 = 0 := rfl
@[simp] theorem State.resetBlock_arg2 (s : State) : s.resetBlock.arg2 = 0 := rfl
@[simp] theorem State.resetBlock_arg3 (s : State) : s.resetBlock.arg3 = 0 := rfl
@[simp] theorem State.resetBlock_res0 (s : State) : s.resetBlock.res0 = 0 := rfl
@[simp] theorem State.resetBlock_res1 (s : State) : s.resetBlock.res1 = 0 := rfl
@[simp] theorem State.resetBlock_res2 (s : State) : s.resetBlock.res2 = 0 := rfl
@[simp] theorem State.resetBlock_res3 (s : State) : s.resetBlock.res3 = 0 := rfl
@[simp] theorem State.resetBlock_maxCand (s : State) : s.resetBlock.maxCand = Config.maxCandReset := rfl
@[simp] theorem State.resetBlock_rhW (s : State) : s.resetBlock.rhW = 0 := rfl
@[simp] theorem State.resetBlock_rhMult (s : State) : s.resetBlock.rhMult = 0 := rfl
@[simp] theorem State.resetBlock_ixRefBase (s : State) : s.resetBlock.ixRefBase = 0 := rfl
@[simp] theorem State.resetBlock_ixRefLen (s : State) : s.resetBlock.ixRefLen = 0 := rfl
@[simp] theorem State.resetBlock_ixNblk (s : State) : s.resetBlock.ixNblk = 0 := rfl
@[simp] theorem State.resetBlock_ixTblsiz (s : State) : s.resetBlock.ixTblsiz = 0 := rfl
@[simp] theorem State.resetBlock_ixLastblk (s : State) : s.resetBlock.ixLastblk = noneWord := rfl
@[simp] theorem State.resetBlock_remtab (s : State) : s.resetBlock.remtab = Config.freeRemtab s.freeCtr := rfl
@[simp] theorem State.resetBlock_headTab (s : State) : s.resetBlock.headTab = freeArray s.freeCtr := rfl
@[simp] theorem State.resetBlock_nextTab (s : State) : s.resetBlock.nextTab = freeArray (s.freeCtr + 1) := rfl
@[simp] theorem State.resetBlock_lastTab (s : State) : s.resetBlock.lastTab = freeArray (s.freeCtr + 2) := rfl
@[simp] theorem State.resetBlock_seq (s : State) : s.resetBlock.seq = .idle := rfl
@[simp] theorem State.resetBlock_pend (s : State) : s.resetBlock.pend = freeLatch s.freeCtr := rfl
@[simp] theorem State.resetBlock_platform (s : State) : s.resetBlock.platform = s.platform := rfl
@[simp] theorem State.resetBlock_mem (s : State) : s.resetBlock.mem = s.mem := rfl
@[simp] theorem State.resetBlock_program (s : State) : s.resetBlock.program = s.program := rfl
@[simp] theorem State.resetBlock_schedule (s : State) : s.resetBlock.schedule = s.schedule := rfl
@[simp] theorem State.resetBlock_hostReads (s : State) : s.resetBlock.hostReads = s.hostReads := rfl
@[simp] theorem State.resetBlock_freeCtr (s : State) : s.resetBlock.freeCtr = s.freeCtr + 7 := rfl

/-! ### `popTurn` -/

@[simp] theorem State.popTurn_done (s : State) : s.popTurn.done = s.done := rfl
@[simp] theorem State.popTurn_err (s : State) : s.popTurn.err = s.err := rfl
@[simp] theorem State.popTurn_ovr (s : State) : s.popTurn.ovr = s.ovr := rfl
@[simp] theorem State.popTurn_rhValid (s : State) : s.popTurn.rhValid = s.rhValid := rfl
@[simp] theorem State.popTurn_ixValid (s : State) : s.popTurn.ixValid = s.ixValid := rfl
@[simp] theorem State.popTurn_lastErr (s : State) : s.popTurn.lastErr = s.lastErr := rfl
@[simp] theorem State.popTurn_lastOp (s : State) : s.popTurn.lastOp = s.lastOp := rfl
@[simp] theorem State.popTurn_errInfo (s : State) : s.popTurn.errInfo = s.errInfo := rfl
@[simp] theorem State.popTurn_arg0 (s : State) : s.popTurn.arg0 = s.arg0 := rfl
@[simp] theorem State.popTurn_arg1 (s : State) : s.popTurn.arg1 = s.arg1 := rfl
@[simp] theorem State.popTurn_arg2 (s : State) : s.popTurn.arg2 = s.arg2 := rfl
@[simp] theorem State.popTurn_arg3 (s : State) : s.popTurn.arg3 = s.arg3 := rfl
@[simp] theorem State.popTurn_res0 (s : State) : s.popTurn.res0 = s.res0 := rfl
@[simp] theorem State.popTurn_res1 (s : State) : s.popTurn.res1 = s.res1 := rfl
@[simp] theorem State.popTurn_res2 (s : State) : s.popTurn.res2 = s.res2 := rfl
@[simp] theorem State.popTurn_res3 (s : State) : s.popTurn.res3 = s.res3 := rfl
@[simp] theorem State.popTurn_maxCand (s : State) : s.popTurn.maxCand = s.maxCand := rfl
@[simp] theorem State.popTurn_rhW (s : State) : s.popTurn.rhW = s.rhW := rfl
@[simp] theorem State.popTurn_rhMult (s : State) : s.popTurn.rhMult = s.rhMult := rfl
@[simp] theorem State.popTurn_ixRefBase (s : State) : s.popTurn.ixRefBase = s.ixRefBase := rfl
@[simp] theorem State.popTurn_ixRefLen (s : State) : s.popTurn.ixRefLen = s.ixRefLen := rfl
@[simp] theorem State.popTurn_ixNblk (s : State) : s.popTurn.ixNblk = s.ixNblk := rfl
@[simp] theorem State.popTurn_ixTblsiz (s : State) : s.popTurn.ixTblsiz = s.ixTblsiz := rfl
@[simp] theorem State.popTurn_ixLastblk (s : State) : s.popTurn.ixLastblk = s.ixLastblk := rfl
@[simp] theorem State.popTurn_remtab (s : State) : s.popTurn.remtab = s.remtab := rfl
@[simp] theorem State.popTurn_headTab (s : State) : s.popTurn.headTab = s.headTab := rfl
@[simp] theorem State.popTurn_nextTab (s : State) : s.popTurn.nextTab = s.nextTab := rfl
@[simp] theorem State.popTurn_lastTab (s : State) : s.popTurn.lastTab = s.lastTab := rfl
@[simp] theorem State.popTurn_seq (s : State) : s.popTurn.seq = s.seq := rfl
@[simp] theorem State.popTurn_pend (s : State) : s.popTurn.pend = s.pend := rfl
@[simp] theorem State.popTurn_platform (s : State) : s.popTurn.platform = s.platform := rfl
@[simp] theorem State.popTurn_mem (s : State) : s.popTurn.mem = s.mem := rfl
@[simp] theorem State.popTurn_program (s : State) : s.popTurn.program = s.program := rfl
@[simp] theorem State.popTurn_schedule (s : State) : s.popTurn.schedule = s.schedule.tail := rfl
@[simp] theorem State.popTurn_hostReads (s : State) : s.popTurn.hostReads = s.hostReads := rfl
@[simp] theorem State.popTurn_freeCtr (s : State) : s.popTurn.freeCtr = s.freeCtr := rfl

/-! ### `popProgram` -/

@[simp] theorem State.popProgram_done (s : State) : s.popProgram.done = s.done := rfl
@[simp] theorem State.popProgram_err (s : State) : s.popProgram.err = s.err := rfl
@[simp] theorem State.popProgram_ovr (s : State) : s.popProgram.ovr = s.ovr := rfl
@[simp] theorem State.popProgram_rhValid (s : State) : s.popProgram.rhValid = s.rhValid := rfl
@[simp] theorem State.popProgram_ixValid (s : State) : s.popProgram.ixValid = s.ixValid := rfl
@[simp] theorem State.popProgram_lastErr (s : State) : s.popProgram.lastErr = s.lastErr := rfl
@[simp] theorem State.popProgram_lastOp (s : State) : s.popProgram.lastOp = s.lastOp := rfl
@[simp] theorem State.popProgram_errInfo (s : State) : s.popProgram.errInfo = s.errInfo := rfl
@[simp] theorem State.popProgram_arg0 (s : State) : s.popProgram.arg0 = s.arg0 := rfl
@[simp] theorem State.popProgram_arg1 (s : State) : s.popProgram.arg1 = s.arg1 := rfl
@[simp] theorem State.popProgram_arg2 (s : State) : s.popProgram.arg2 = s.arg2 := rfl
@[simp] theorem State.popProgram_arg3 (s : State) : s.popProgram.arg3 = s.arg3 := rfl
@[simp] theorem State.popProgram_res0 (s : State) : s.popProgram.res0 = s.res0 := rfl
@[simp] theorem State.popProgram_res1 (s : State) : s.popProgram.res1 = s.res1 := rfl
@[simp] theorem State.popProgram_res2 (s : State) : s.popProgram.res2 = s.res2 := rfl
@[simp] theorem State.popProgram_res3 (s : State) : s.popProgram.res3 = s.res3 := rfl
@[simp] theorem State.popProgram_maxCand (s : State) : s.popProgram.maxCand = s.maxCand := rfl
@[simp] theorem State.popProgram_rhW (s : State) : s.popProgram.rhW = s.rhW := rfl
@[simp] theorem State.popProgram_rhMult (s : State) : s.popProgram.rhMult = s.rhMult := rfl
@[simp] theorem State.popProgram_ixRefBase (s : State) : s.popProgram.ixRefBase = s.ixRefBase := rfl
@[simp] theorem State.popProgram_ixRefLen (s : State) : s.popProgram.ixRefLen = s.ixRefLen := rfl
@[simp] theorem State.popProgram_ixNblk (s : State) : s.popProgram.ixNblk = s.ixNblk := rfl
@[simp] theorem State.popProgram_ixTblsiz (s : State) : s.popProgram.ixTblsiz = s.ixTblsiz := rfl
@[simp] theorem State.popProgram_ixLastblk (s : State) : s.popProgram.ixLastblk = s.ixLastblk := rfl
@[simp] theorem State.popProgram_remtab (s : State) : s.popProgram.remtab = s.remtab := rfl
@[simp] theorem State.popProgram_headTab (s : State) : s.popProgram.headTab = s.headTab := rfl
@[simp] theorem State.popProgram_nextTab (s : State) : s.popProgram.nextTab = s.nextTab := rfl
@[simp] theorem State.popProgram_lastTab (s : State) : s.popProgram.lastTab = s.lastTab := rfl
@[simp] theorem State.popProgram_seq (s : State) : s.popProgram.seq = s.seq := rfl
@[simp] theorem State.popProgram_pend (s : State) : s.popProgram.pend = s.pend := rfl
@[simp] theorem State.popProgram_platform (s : State) : s.popProgram.platform = s.platform := rfl
@[simp] theorem State.popProgram_mem (s : State) : s.popProgram.mem = s.mem := rfl
@[simp] theorem State.popProgram_program (s : State) : s.popProgram.program = s.program.tail := rfl
@[simp] theorem State.popProgram_schedule (s : State) : s.popProgram.schedule = s.schedule := rfl
@[simp] theorem State.popProgram_hostReads (s : State) : s.popProgram.hostReads = s.hostReads := rfl
@[simp] theorem State.popProgram_freeCtr (s : State) : s.popProgram.freeCtr = s.freeCtr := rfl

/-! ### `logRead` -/

@[simp] theorem State.logRead_done (s : State) (off : Nat) : (s.logRead off).done = s.done := rfl
@[simp] theorem State.logRead_err (s : State) (off : Nat) : (s.logRead off).err = s.err := rfl
@[simp] theorem State.logRead_ovr (s : State) (off : Nat) : (s.logRead off).ovr = s.ovr := rfl
@[simp] theorem State.logRead_rhValid (s : State) (off : Nat) : (s.logRead off).rhValid = s.rhValid := rfl
@[simp] theorem State.logRead_ixValid (s : State) (off : Nat) : (s.logRead off).ixValid = s.ixValid := rfl
@[simp] theorem State.logRead_lastErr (s : State) (off : Nat) : (s.logRead off).lastErr = s.lastErr := rfl
@[simp] theorem State.logRead_lastOp (s : State) (off : Nat) : (s.logRead off).lastOp = s.lastOp := rfl
@[simp] theorem State.logRead_errInfo (s : State) (off : Nat) : (s.logRead off).errInfo = s.errInfo := rfl
@[simp] theorem State.logRead_arg0 (s : State) (off : Nat) : (s.logRead off).arg0 = s.arg0 := rfl
@[simp] theorem State.logRead_arg1 (s : State) (off : Nat) : (s.logRead off).arg1 = s.arg1 := rfl
@[simp] theorem State.logRead_arg2 (s : State) (off : Nat) : (s.logRead off).arg2 = s.arg2 := rfl
@[simp] theorem State.logRead_arg3 (s : State) (off : Nat) : (s.logRead off).arg3 = s.arg3 := rfl
@[simp] theorem State.logRead_res0 (s : State) (off : Nat) : (s.logRead off).res0 = s.res0 := rfl
@[simp] theorem State.logRead_res1 (s : State) (off : Nat) : (s.logRead off).res1 = s.res1 := rfl
@[simp] theorem State.logRead_res2 (s : State) (off : Nat) : (s.logRead off).res2 = s.res2 := rfl
@[simp] theorem State.logRead_res3 (s : State) (off : Nat) : (s.logRead off).res3 = s.res3 := rfl
@[simp] theorem State.logRead_maxCand (s : State) (off : Nat) : (s.logRead off).maxCand = s.maxCand := rfl
@[simp] theorem State.logRead_rhW (s : State) (off : Nat) : (s.logRead off).rhW = s.rhW := rfl
@[simp] theorem State.logRead_rhMult (s : State) (off : Nat) : (s.logRead off).rhMult = s.rhMult := rfl
@[simp] theorem State.logRead_ixRefBase (s : State) (off : Nat) : (s.logRead off).ixRefBase = s.ixRefBase := rfl
@[simp] theorem State.logRead_ixRefLen (s : State) (off : Nat) : (s.logRead off).ixRefLen = s.ixRefLen := rfl
@[simp] theorem State.logRead_ixNblk (s : State) (off : Nat) : (s.logRead off).ixNblk = s.ixNblk := rfl
@[simp] theorem State.logRead_ixTblsiz (s : State) (off : Nat) : (s.logRead off).ixTblsiz = s.ixTblsiz := rfl
@[simp] theorem State.logRead_ixLastblk (s : State) (off : Nat) : (s.logRead off).ixLastblk = s.ixLastblk := rfl
@[simp] theorem State.logRead_remtab (s : State) (off : Nat) : (s.logRead off).remtab = s.remtab := rfl
@[simp] theorem State.logRead_headTab (s : State) (off : Nat) : (s.logRead off).headTab = s.headTab := rfl
@[simp] theorem State.logRead_nextTab (s : State) (off : Nat) : (s.logRead off).nextTab = s.nextTab := rfl
@[simp] theorem State.logRead_lastTab (s : State) (off : Nat) : (s.logRead off).lastTab = s.lastTab := rfl
@[simp] theorem State.logRead_seq (s : State) (off : Nat) : (s.logRead off).seq = s.seq := rfl
@[simp] theorem State.logRead_pend (s : State) (off : Nat) : (s.logRead off).pend = s.pend := rfl
@[simp] theorem State.logRead_platform (s : State) (off : Nat) : (s.logRead off).platform = s.platform := rfl
@[simp] theorem State.logRead_mem (s : State) (off : Nat) : (s.logRead off).mem = s.mem := rfl
@[simp] theorem State.logRead_program (s : State) (off : Nat) : (s.logRead off).program = s.program := rfl
@[simp] theorem State.logRead_schedule (s : State) (off : Nat) : (s.logRead off).schedule = s.schedule := rfl
@[simp] theorem State.logRead_hostReads (s : State) (off : Nat) : (s.logRead off).hostReads = (off, s.readOffset off) :: s.hostReads := rfl
@[simp] theorem State.logRead_freeCtr (s : State) (off : Nat) : (s.logRead off).freeCtr = s.freeCtr := rfl

/-! ### `withGeometry` -/

@[simp] theorem State.withGeometry_done (s : State) (rb n : Word) (nb ts : Nat) : (s.withGeometry rb n nb ts).done = s.done := rfl
@[simp] theorem State.withGeometry_err (s : State) (rb n : Word) (nb ts : Nat) : (s.withGeometry rb n nb ts).err = s.err := rfl
@[simp] theorem State.withGeometry_ovr (s : State) (rb n : Word) (nb ts : Nat) : (s.withGeometry rb n nb ts).ovr = s.ovr := rfl
@[simp] theorem State.withGeometry_rhValid (s : State) (rb n : Word) (nb ts : Nat) : (s.withGeometry rb n nb ts).rhValid = s.rhValid := rfl
@[simp] theorem State.withGeometry_ixValid (s : State) (rb n : Word) (nb ts : Nat) : (s.withGeometry rb n nb ts).ixValid = s.ixValid := rfl
@[simp] theorem State.withGeometry_lastErr (s : State) (rb n : Word) (nb ts : Nat) : (s.withGeometry rb n nb ts).lastErr = s.lastErr := rfl
@[simp] theorem State.withGeometry_lastOp (s : State) (rb n : Word) (nb ts : Nat) : (s.withGeometry rb n nb ts).lastOp = s.lastOp := rfl
@[simp] theorem State.withGeometry_errInfo (s : State) (rb n : Word) (nb ts : Nat) : (s.withGeometry rb n nb ts).errInfo = s.errInfo := rfl
@[simp] theorem State.withGeometry_arg0 (s : State) (rb n : Word) (nb ts : Nat) : (s.withGeometry rb n nb ts).arg0 = s.arg0 := rfl
@[simp] theorem State.withGeometry_arg1 (s : State) (rb n : Word) (nb ts : Nat) : (s.withGeometry rb n nb ts).arg1 = s.arg1 := rfl
@[simp] theorem State.withGeometry_arg2 (s : State) (rb n : Word) (nb ts : Nat) : (s.withGeometry rb n nb ts).arg2 = s.arg2 := rfl
@[simp] theorem State.withGeometry_arg3 (s : State) (rb n : Word) (nb ts : Nat) : (s.withGeometry rb n nb ts).arg3 = s.arg3 := rfl
@[simp] theorem State.withGeometry_res0 (s : State) (rb n : Word) (nb ts : Nat) : (s.withGeometry rb n nb ts).res0 = s.res0 := rfl
@[simp] theorem State.withGeometry_res1 (s : State) (rb n : Word) (nb ts : Nat) : (s.withGeometry rb n nb ts).res1 = s.res1 := rfl
@[simp] theorem State.withGeometry_res2 (s : State) (rb n : Word) (nb ts : Nat) : (s.withGeometry rb n nb ts).res2 = s.res2 := rfl
@[simp] theorem State.withGeometry_res3 (s : State) (rb n : Word) (nb ts : Nat) : (s.withGeometry rb n nb ts).res3 = s.res3 := rfl
@[simp] theorem State.withGeometry_maxCand (s : State) (rb n : Word) (nb ts : Nat) : (s.withGeometry rb n nb ts).maxCand = s.maxCand := rfl
@[simp] theorem State.withGeometry_rhW (s : State) (rb n : Word) (nb ts : Nat) : (s.withGeometry rb n nb ts).rhW = s.rhW := rfl
@[simp] theorem State.withGeometry_rhMult (s : State) (rb n : Word) (nb ts : Nat) : (s.withGeometry rb n nb ts).rhMult = s.rhMult := rfl
@[simp] theorem State.withGeometry_ixRefBase (s : State) (rb n : Word) (nb ts : Nat) : (s.withGeometry rb n nb ts).ixRefBase = rb := rfl
@[simp] theorem State.withGeometry_ixRefLen (s : State) (rb n : Word) (nb ts : Nat) : (s.withGeometry rb n nb ts).ixRefLen = n := rfl
@[simp] theorem State.withGeometry_ixNblk (s : State) (rb n : Word) (nb ts : Nat) : (s.withGeometry rb n nb ts).ixNblk = BitVec.ofNat 32 nb := rfl
@[simp] theorem State.withGeometry_ixTblsiz (s : State) (rb n : Word) (nb ts : Nat) : (s.withGeometry rb n nb ts).ixTblsiz = BitVec.ofNat 32 ts := rfl
@[simp] theorem State.withGeometry_ixLastblk (s : State) (rb n : Word) (nb ts : Nat) : (s.withGeometry rb n nb ts).ixLastblk = noneWord := rfl
@[simp] theorem State.withGeometry_remtab (s : State) (rb n : Word) (nb ts : Nat) : (s.withGeometry rb n nb ts).remtab = s.remtab := rfl
@[simp] theorem State.withGeometry_headTab (s : State) (rb n : Word) (nb ts : Nat) : (s.withGeometry rb n nb ts).headTab = s.headTab := rfl
@[simp] theorem State.withGeometry_nextTab (s : State) (rb n : Word) (nb ts : Nat) : (s.withGeometry rb n nb ts).nextTab = s.nextTab := rfl
@[simp] theorem State.withGeometry_lastTab (s : State) (rb n : Word) (nb ts : Nat) : (s.withGeometry rb n nb ts).lastTab = s.lastTab := rfl
@[simp] theorem State.withGeometry_seq (s : State) (rb n : Word) (nb ts : Nat) : (s.withGeometry rb n nb ts).seq = s.seq := rfl
@[simp] theorem State.withGeometry_pend (s : State) (rb n : Word) (nb ts : Nat) : (s.withGeometry rb n nb ts).pend = s.pend := rfl
@[simp] theorem State.withGeometry_platform (s : State) (rb n : Word) (nb ts : Nat) : (s.withGeometry rb n nb ts).platform = s.platform := rfl
@[simp] theorem State.withGeometry_mem (s : State) (rb n : Word) (nb ts : Nat) : (s.withGeometry rb n nb ts).mem = s.mem := rfl
@[simp] theorem State.withGeometry_program (s : State) (rb n : Word) (nb ts : Nat) : (s.withGeometry rb n nb ts).program = s.program := rfl
@[simp] theorem State.withGeometry_schedule (s : State) (rb n : Word) (nb ts : Nat) : (s.withGeometry rb n nb ts).schedule = s.schedule := rfl
@[simp] theorem State.withGeometry_hostReads (s : State) (rb n : Word) (nb ts : Nat) : (s.withGeometry rb n nb ts).hostReads = s.hostReads := rfl
@[simp] theorem State.withGeometry_freeCtr (s : State) (rb n : Word) (nb ts : Nat) : (s.withGeometry rb n nb ts).freeCtr = s.freeCtr := rfl

/-! ### `withEmptyIndex` -/

@[simp] theorem State.withEmptyIndex_done (s : State) (nb ts : Nat) : (s.withEmptyIndex nb ts).done = s.done := rfl
@[simp] theorem State.withEmptyIndex_err (s : State) (nb ts : Nat) : (s.withEmptyIndex nb ts).err = s.err := rfl
@[simp] theorem State.withEmptyIndex_ovr (s : State) (nb ts : Nat) : (s.withEmptyIndex nb ts).ovr = s.ovr := rfl
@[simp] theorem State.withEmptyIndex_rhValid (s : State) (nb ts : Nat) : (s.withEmptyIndex nb ts).rhValid = s.rhValid := rfl
@[simp] theorem State.withEmptyIndex_ixValid (s : State) (nb ts : Nat) : (s.withEmptyIndex nb ts).ixValid = true := rfl
@[simp] theorem State.withEmptyIndex_lastErr (s : State) (nb ts : Nat) : (s.withEmptyIndex nb ts).lastErr = s.lastErr := rfl
@[simp] theorem State.withEmptyIndex_lastOp (s : State) (nb ts : Nat) : (s.withEmptyIndex nb ts).lastOp = s.lastOp := rfl
@[simp] theorem State.withEmptyIndex_errInfo (s : State) (nb ts : Nat) : (s.withEmptyIndex nb ts).errInfo = s.errInfo := rfl
@[simp] theorem State.withEmptyIndex_arg0 (s : State) (nb ts : Nat) : (s.withEmptyIndex nb ts).arg0 = s.arg0 := rfl
@[simp] theorem State.withEmptyIndex_arg1 (s : State) (nb ts : Nat) : (s.withEmptyIndex nb ts).arg1 = s.arg1 := rfl
@[simp] theorem State.withEmptyIndex_arg2 (s : State) (nb ts : Nat) : (s.withEmptyIndex nb ts).arg2 = s.arg2 := rfl
@[simp] theorem State.withEmptyIndex_arg3 (s : State) (nb ts : Nat) : (s.withEmptyIndex nb ts).arg3 = s.arg3 := rfl
@[simp] theorem State.withEmptyIndex_res0 (s : State) (nb ts : Nat) : (s.withEmptyIndex nb ts).res0 = s.res0 := rfl
@[simp] theorem State.withEmptyIndex_res1 (s : State) (nb ts : Nat) : (s.withEmptyIndex nb ts).res1 = s.res1 := rfl
@[simp] theorem State.withEmptyIndex_res2 (s : State) (nb ts : Nat) : (s.withEmptyIndex nb ts).res2 = s.res2 := rfl
@[simp] theorem State.withEmptyIndex_res3 (s : State) (nb ts : Nat) : (s.withEmptyIndex nb ts).res3 = s.res3 := rfl
@[simp] theorem State.withEmptyIndex_maxCand (s : State) (nb ts : Nat) : (s.withEmptyIndex nb ts).maxCand = s.maxCand := rfl
@[simp] theorem State.withEmptyIndex_rhW (s : State) (nb ts : Nat) : (s.withEmptyIndex nb ts).rhW = s.rhW := rfl
@[simp] theorem State.withEmptyIndex_rhMult (s : State) (nb ts : Nat) : (s.withEmptyIndex nb ts).rhMult = s.rhMult := rfl
@[simp] theorem State.withEmptyIndex_ixRefBase (s : State) (nb ts : Nat) : (s.withEmptyIndex nb ts).ixRefBase = s.ixRefBase := rfl
@[simp] theorem State.withEmptyIndex_ixRefLen (s : State) (nb ts : Nat) : (s.withEmptyIndex nb ts).ixRefLen = s.ixRefLen := rfl
@[simp] theorem State.withEmptyIndex_ixNblk (s : State) (nb ts : Nat) : (s.withEmptyIndex nb ts).ixNblk = s.ixNblk := rfl
@[simp] theorem State.withEmptyIndex_ixTblsiz (s : State) (nb ts : Nat) : (s.withEmptyIndex nb ts).ixTblsiz = s.ixTblsiz := rfl
@[simp] theorem State.withEmptyIndex_ixLastblk (s : State) (nb ts : Nat) : (s.withEmptyIndex nb ts).ixLastblk = s.ixLastblk := rfl
@[simp] theorem State.withEmptyIndex_remtab (s : State) (nb ts : Nat) : (s.withEmptyIndex nb ts).remtab = s.remtab := rfl
@[simp] theorem State.withEmptyIndex_headTab (s : State) (nb ts : Nat) : (s.withEmptyIndex nb ts).headTab = Sparse.clearBelow ts s.headTab := rfl
@[simp] theorem State.withEmptyIndex_nextTab (s : State) (nb ts : Nat) : (s.withEmptyIndex nb ts).nextTab = Sparse.clearBelow nb s.nextTab := rfl
@[simp] theorem State.withEmptyIndex_lastTab (s : State) (nb ts : Nat) : (s.withEmptyIndex nb ts).lastTab = Sparse.clearBelow nb s.lastTab := rfl
@[simp] theorem State.withEmptyIndex_seq (s : State) (nb ts : Nat) : (s.withEmptyIndex nb ts).seq = s.seq := rfl
@[simp] theorem State.withEmptyIndex_pend (s : State) (nb ts : Nat) : (s.withEmptyIndex nb ts).pend = s.pend := rfl
@[simp] theorem State.withEmptyIndex_platform (s : State) (nb ts : Nat) : (s.withEmptyIndex nb ts).platform = s.platform := rfl
@[simp] theorem State.withEmptyIndex_mem (s : State) (nb ts : Nat) : (s.withEmptyIndex nb ts).mem = s.mem := rfl
@[simp] theorem State.withEmptyIndex_program (s : State) (nb ts : Nat) : (s.withEmptyIndex nb ts).program = s.program := rfl
@[simp] theorem State.withEmptyIndex_schedule (s : State) (nb ts : Nat) : (s.withEmptyIndex nb ts).schedule = s.schedule := rfl
@[simp] theorem State.withEmptyIndex_hostReads (s : State) (nb ts : Nat) : (s.withEmptyIndex nb ts).hostReads = s.hostReads := rfl
@[simp] theorem State.withEmptyIndex_freeCtr (s : State) (nb ts : Nat) : (s.withEmptyIndex nb ts).freeCtr = s.freeCtr := rfl

/-! ### `append` changes the three arrays only -/

@[simp] theorem State.append_done (s : State) (k : Nat) (b : Word) : (s.append k b).done = s.done := by
  simp only [State.append]; split <;> rfl
@[simp] theorem State.append_err (s : State) (k : Nat) (b : Word) : (s.append k b).err = s.err := by
  simp only [State.append]; split <;> rfl
@[simp] theorem State.append_ovr (s : State) (k : Nat) (b : Word) : (s.append k b).ovr = s.ovr := by
  simp only [State.append]; split <;> rfl
@[simp] theorem State.append_rhValid (s : State) (k : Nat) (b : Word) : (s.append k b).rhValid = s.rhValid := by
  simp only [State.append]; split <;> rfl
@[simp] theorem State.append_ixValid (s : State) (k : Nat) (b : Word) : (s.append k b).ixValid = s.ixValid := by
  simp only [State.append]; split <;> rfl
@[simp] theorem State.append_lastErr (s : State) (k : Nat) (b : Word) : (s.append k b).lastErr = s.lastErr := by
  simp only [State.append]; split <;> rfl
@[simp] theorem State.append_lastOp (s : State) (k : Nat) (b : Word) : (s.append k b).lastOp = s.lastOp := by
  simp only [State.append]; split <;> rfl
@[simp] theorem State.append_errInfo (s : State) (k : Nat) (b : Word) : (s.append k b).errInfo = s.errInfo := by
  simp only [State.append]; split <;> rfl
@[simp] theorem State.append_arg0 (s : State) (k : Nat) (b : Word) : (s.append k b).arg0 = s.arg0 := by
  simp only [State.append]; split <;> rfl
@[simp] theorem State.append_arg1 (s : State) (k : Nat) (b : Word) : (s.append k b).arg1 = s.arg1 := by
  simp only [State.append]; split <;> rfl
@[simp] theorem State.append_arg2 (s : State) (k : Nat) (b : Word) : (s.append k b).arg2 = s.arg2 := by
  simp only [State.append]; split <;> rfl
@[simp] theorem State.append_arg3 (s : State) (k : Nat) (b : Word) : (s.append k b).arg3 = s.arg3 := by
  simp only [State.append]; split <;> rfl
@[simp] theorem State.append_res0 (s : State) (k : Nat) (b : Word) : (s.append k b).res0 = s.res0 := by
  simp only [State.append]; split <;> rfl
@[simp] theorem State.append_res1 (s : State) (k : Nat) (b : Word) : (s.append k b).res1 = s.res1 := by
  simp only [State.append]; split <;> rfl
@[simp] theorem State.append_res2 (s : State) (k : Nat) (b : Word) : (s.append k b).res2 = s.res2 := by
  simp only [State.append]; split <;> rfl
@[simp] theorem State.append_res3 (s : State) (k : Nat) (b : Word) : (s.append k b).res3 = s.res3 := by
  simp only [State.append]; split <;> rfl
@[simp] theorem State.append_maxCand (s : State) (k : Nat) (b : Word) : (s.append k b).maxCand = s.maxCand := by
  simp only [State.append]; split <;> rfl
@[simp] theorem State.append_rhW (s : State) (k : Nat) (b : Word) : (s.append k b).rhW = s.rhW := by
  simp only [State.append]; split <;> rfl
@[simp] theorem State.append_rhMult (s : State) (k : Nat) (b : Word) : (s.append k b).rhMult = s.rhMult := by
  simp only [State.append]; split <;> rfl
@[simp] theorem State.append_ixRefBase (s : State) (k : Nat) (b : Word) : (s.append k b).ixRefBase = s.ixRefBase := by
  simp only [State.append]; split <;> rfl
@[simp] theorem State.append_ixRefLen (s : State) (k : Nat) (b : Word) : (s.append k b).ixRefLen = s.ixRefLen := by
  simp only [State.append]; split <;> rfl
@[simp] theorem State.append_ixNblk (s : State) (k : Nat) (b : Word) : (s.append k b).ixNblk = s.ixNblk := by
  simp only [State.append]; split <;> rfl
@[simp] theorem State.append_ixTblsiz (s : State) (k : Nat) (b : Word) : (s.append k b).ixTblsiz = s.ixTblsiz := by
  simp only [State.append]; split <;> rfl
@[simp] theorem State.append_ixLastblk (s : State) (k : Nat) (b : Word) : (s.append k b).ixLastblk = s.ixLastblk := by
  simp only [State.append]; split <;> rfl
@[simp] theorem State.append_remtab (s : State) (k : Nat) (b : Word) : (s.append k b).remtab = s.remtab := by
  simp only [State.append]; split <;> rfl
@[simp] theorem State.append_seq (s : State) (k : Nat) (b : Word) : (s.append k b).seq = s.seq := by
  simp only [State.append]; split <;> rfl
@[simp] theorem State.append_pend (s : State) (k : Nat) (b : Word) : (s.append k b).pend = s.pend := by
  simp only [State.append]; split <;> rfl
@[simp] theorem State.append_platform (s : State) (k : Nat) (b : Word) : (s.append k b).platform = s.platform := by
  simp only [State.append]; split <;> rfl
@[simp] theorem State.append_mem (s : State) (k : Nat) (b : Word) : (s.append k b).mem = s.mem := by
  simp only [State.append]; split <;> rfl
@[simp] theorem State.append_program (s : State) (k : Nat) (b : Word) : (s.append k b).program = s.program := by
  simp only [State.append]; split <;> rfl
@[simp] theorem State.append_schedule (s : State) (k : Nat) (b : Word) : (s.append k b).schedule = s.schedule := by
  simp only [State.append]; split <;> rfl
@[simp] theorem State.append_hostReads (s : State) (k : Nat) (b : Word) : (s.append k b).hostReads = s.hostReads := by
  simp only [State.append]; split <;> rfl
@[simp] theorem State.append_freeCtr (s : State) (k : Nat) (b : Word) : (s.append k b).freeCtr = s.freeCtr := by
  simp only [State.append]; split <;> rfl

/-! ### The state after reset -/

@[simp] theorem State.resetOn_done (p : Platform) : (State.resetOn p).done = false := rfl
@[simp] theorem State.resetOn_err (p : Platform) : (State.resetOn p).err = false := rfl
@[simp] theorem State.resetOn_ovr (p : Platform) : (State.resetOn p).ovr = false := rfl
@[simp] theorem State.resetOn_rhValid (p : Platform) : (State.resetOn p).rhValid = false := rfl
@[simp] theorem State.resetOn_ixValid (p : Platform) : (State.resetOn p).ixValid = false := rfl
@[simp] theorem State.resetOn_lastErr (p : Platform) : (State.resetOn p).lastErr = 0 := rfl
@[simp] theorem State.resetOn_lastOp (p : Platform) : (State.resetOn p).lastOp = 0 := rfl
@[simp] theorem State.resetOn_errInfo (p : Platform) : (State.resetOn p).errInfo = 0 := rfl
@[simp] theorem State.resetOn_arg0 (p : Platform) : (State.resetOn p).arg0 = 0 := rfl
@[simp] theorem State.resetOn_arg1 (p : Platform) : (State.resetOn p).arg1 = 0 := rfl
@[simp] theorem State.resetOn_arg2 (p : Platform) : (State.resetOn p).arg2 = 0 := rfl
@[simp] theorem State.resetOn_arg3 (p : Platform) : (State.resetOn p).arg3 = 0 := rfl
@[simp] theorem State.resetOn_res0 (p : Platform) : (State.resetOn p).res0 = 0 := rfl
@[simp] theorem State.resetOn_res1 (p : Platform) : (State.resetOn p).res1 = 0 := rfl
@[simp] theorem State.resetOn_res2 (p : Platform) : (State.resetOn p).res2 = 0 := rfl
@[simp] theorem State.resetOn_res3 (p : Platform) : (State.resetOn p).res3 = 0 := rfl
@[simp] theorem State.resetOn_maxCand (p : Platform) : (State.resetOn p).maxCand = Config.maxCandReset := rfl
@[simp] theorem State.resetOn_rhW (p : Platform) : (State.resetOn p).rhW = 0 := rfl
@[simp] theorem State.resetOn_rhMult (p : Platform) : (State.resetOn p).rhMult = 0 := rfl
@[simp] theorem State.resetOn_ixRefBase (p : Platform) : (State.resetOn p).ixRefBase = 0 := rfl
@[simp] theorem State.resetOn_ixRefLen (p : Platform) : (State.resetOn p).ixRefLen = 0 := rfl
@[simp] theorem State.resetOn_ixNblk (p : Platform) : (State.resetOn p).ixNblk = 0 := rfl
@[simp] theorem State.resetOn_ixTblsiz (p : Platform) : (State.resetOn p).ixTblsiz = 0 := rfl
@[simp] theorem State.resetOn_ixLastblk (p : Platform) : (State.resetOn p).ixLastblk = noneWord := rfl
@[simp] theorem State.resetOn_remtab (p : Platform) : (State.resetOn p).remtab = Vector.replicate 256 0 := rfl
@[simp] theorem State.resetOn_headTab (p : Platform) : (State.resetOn p).headTab = [] := rfl
@[simp] theorem State.resetOn_nextTab (p : Platform) : (State.resetOn p).nextTab = [] := rfl
@[simp] theorem State.resetOn_lastTab (p : Platform) : (State.resetOn p).lastTab = [] := rfl
@[simp] theorem State.resetOn_seq (p : Platform) : (State.resetOn p).seq = .idle := rfl
@[simp] theorem State.resetOn_platform (p : Platform) : (State.resetOn p).platform = p := rfl
@[simp] theorem State.resetOn_mem (p : Platform) : (State.resetOn p).mem = [] := rfl
@[simp] theorem State.resetOn_program (p : Platform) : (State.resetOn p).program = [] := rfl
@[simp] theorem State.resetOn_schedule (p : Platform) : (State.resetOn p).schedule = [] := rfl
@[simp] theorem State.resetOn_hostReads (p : Platform) : (State.resetOn p).hostReads = [] := rfl
@[simp] theorem State.resetOn_freeCtr (p : Platform) : (State.resetOn p).freeCtr = 0 := rfl

/-! ### What the accessors read -/

/-- A data read depends on the platform and on memory only. -/
theorem State.readByte_congr {s t : State} (hp : t.platform = s.platform) (hm : t.mem = s.mem) (a : Nat) :
    t.readByte a = s.readByte a := by
  simp only [State.readByte, hp, hm]

/-- BUSY mirrors SEQ. -/
@[simp] theorem State.busy_iff (s : State) : s.busy = true ↔ s.seq = .busy := by
  simp [State.busy]

theorem State.busy_false_iff (s : State) : s.busy = false ↔ s.seq = .idle := by
  cases h : s.seq <;> simp [State.busy, h]

end Sys2Proof.Machine
end

