-- ==== Sys2Proof/Laws/Sparse.lean ====
section
/-! SUPPORT. Laws of the sparse tables that hold data memory and the index arrays: read after write, and that every operation keeps the
canonical form. -/

namespace Sys2Proof.Machine

@[simp] theorem Sparse.get_nil {β : Type} (d : β) (k : Nat) : Sparse.get d [] k = d := rfl

/-- A cleared key reads as the default, and every other key as before. -/
theorem Sparse.get_clearBelow {β : Type} (d : β) (n k : Nat) :
    ∀ t : List (Nat × β), Sparse.get d (Sparse.clearBelow n t) k = if k < n then d else Sparse.get d t k
  | [] => by simp [Sparse.clearBelow]
  | (a, x) :: rest => by
    have ih := Sparse.get_clearBelow d n k rest
    simp only [Sparse.clearBelow] at ih
    simp only [Sparse.clearBelow, List.filter]
    split
    · rename_i h
      simp only [decide_eq_true_eq] at h
      simp only [Sparse.get, ih]
      split
      · rename_i hk
        have : ¬ k < n := by omega
        simp [this]
      · rfl
    · rename_i h
      simp only [decide_eq_false_iff_not] at h
      rw [ih]
      split
      · rfl
      · have : a ≠ k := by omega
        simp [Sparse.get, this]

variable {β : Type} [DecidableEq β]

/-- A key below every key of a table reads as the default. -/
theorem Sparse.get_of_low (d : β) :
    ∀ (t : List (Nat × β)) (low k : Nat), Sparse.wfFrom d (some low) t = true → k ≤ low → Sparse.get d t k = d
  | [], _, _, _, _ => rfl
  | (a, v) :: rest, low, k, h, hk => by
    simp only [Sparse.wfFrom, Option.all_some, Bool.and_eq_true, decide_eq_true_eq] at h
    have : a ≠ k := by omega
    simp only [Sparse.get, this, if_false]
    exact Sparse.get_of_low d rest a k h.2 (by omega)

/-- A write changes no other key. -/
theorem Sparse.get_set_ne (d : β) (v : β) {key k : Nat} (hne : k ≠ key) :
    ∀ t : List (Nat × β), Sparse.get d (Sparse.set d t key v) k = Sparse.get d t k
  | [] => by
    simp only [Sparse.set]
    split <;> simp [Sparse.get, Ne.symm hne]
  | (a, x) :: rest => by
    simp only [Sparse.set]
    split
    · split <;> simp [Sparse.get, Ne.symm hne]
    · split
      · rename_i h
        subst h
        split <;> simp [Sparse.get, Ne.symm hne]
      · simp only [Sparse.get]
        rw [Sparse.get_set_ne d v hne rest]

/-- A written value that is not the default reads back. -/
theorem Sparse.get_set_self_of_ne (d : β) {v : β} (hv : v ≠ d) (key : Nat) :
    ∀ t : List (Nat × β), Sparse.get d (Sparse.set d t key v) key = v
  | [] => by simp [Sparse.set, Sparse.get, hv]
  | (a, x) :: rest => by
    simp only [Sparse.set, hv, if_false]
    split
    · simp [Sparse.get]
    · split
      · simp [Sparse.get]
      · rename_i h
        simp only [Sparse.get, Ne.symm h, if_false]
        exact Sparse.get_set_self_of_ne d hv key rest

/-- In a table whose keys rise from above `low`, any written value reads back. -/
theorem Sparse.get_set_self_from (d v : β) (key : Nat) :
    ∀ (t : List (Nat × β)) (low : Option Nat), Sparse.wfFrom d low t = true → Sparse.get d (Sparse.set d t key v) key = v
  | [], _, _ => by
    simp only [Sparse.set]
    split
    · rename_i h; simp [h]
    · simp [Sparse.get]
  | (a, x) :: rest, low, h => by
    have hrest : Sparse.wfFrom d (some a) rest = true := by
      simp only [Sparse.wfFrom, Bool.and_eq_true] at h
      exact h.2
    simp only [Sparse.set]
    split
    · rename_i hlt
      split
      · rename_i hv
        have : a ≠ key := by omega
        simp only [Sparse.get, this, if_false]
        rw [hv]
        exact Sparse.get_of_low d rest a key hrest (by omega)
      · simp [Sparse.get]
    · split
      · rename_i heq
        split
        · rename_i hv
          rw [hv]
          exact Sparse.get_of_low d rest a key hrest (by omega)
        · simp [Sparse.get]
      · rename_i h2
        simp only [Sparse.get, Ne.symm h2, if_false]
        exact Sparse.get_set_self_from d v key rest (some a) hrest

/-- In a canonical table, any written value reads back. -/
theorem Sparse.get_set_self (d v : β) (key : Nat) {t : List (Nat × β)} (h : Sparse.wf d t = true) :
    Sparse.get d (Sparse.set d t key v) key = v :=
  Sparse.get_set_self_from d v key t none h

/-- A write keeps the canonical form above any bound the key respects. -/
theorem Sparse.set_wfFrom (d v : β) (key : Nat) :
    ∀ (t : List (Nat × β)) (low : Option Nat), Sparse.wfFrom d low t = true → low.all (· < key) = true →
      Sparse.wfFrom d low (Sparse.set d t key v) = true
  | [], low, _, hlow => by
    simp only [Sparse.set]
    split
    · rfl
    · rename_i hv
      simp [Sparse.wfFrom, hlow, hv]
  | (a, x) :: rest, low, h, hlow => by
    simp only [Sparse.wfFrom, Bool.and_eq_true, decide_eq_true_eq] at h
    obtain ⟨⟨ha, hx⟩, hrest⟩ := h
    simp only [Sparse.set]
    split
    · rename_i hlt
      split
      · simp [Sparse.wfFrom, ha, hx, hrest]
      · rename_i hv
        simp [Sparse.wfFrom, hlow, hv, hx, hrest, hlt]
    · split
      · rename_i heq
        subst heq
        split
        · cases rest with
          | nil => rfl
          | cons e rest' =>
            obtain ⟨b, y⟩ := e
            simp only [Sparse.wfFrom, Option.all_some, Bool.and_eq_true, decide_eq_true_eq] at hrest ⊢
            refine ⟨⟨?_, hrest.1.2⟩, hrest.2⟩
            cases low with
            | none => rfl
            | some l =>
              simp only [Option.all_some, decide_eq_true_eq] at hlow ⊢
              omega
        · rename_i hv
          simp [Sparse.wfFrom, hlow, hv, hrest]
      · rename_i h1 h2
        simp only [Sparse.wfFrom, ha, Bool.true_and, Bool.and_eq_true, decide_eq_true_eq]
        exact ⟨hx, Sparse.set_wfFrom d v key rest (some a) hrest (by simp only [Option.all_some, decide_eq_true_eq]; omega)⟩

/-- A write keeps the canonical form. -/
theorem Sparse.set_wf (d v : β) (key : Nat) {t : List (Nat × β)} (h : Sparse.wf d t = true) :
    Sparse.wf d (Sparse.set d t key v) = true :=
  Sparse.set_wfFrom d v key t none h rfl

/-- Any list of entries has a canonical form. -/
theorem Sparse.ofEntries_wf (d : β) (es : List (Nat × β)) : Sparse.wf d (Sparse.ofEntries d es) = true := by
  have key : ∀ (es t : List (Nat × β)), Sparse.wf d t = true →
      Sparse.wf d (es.foldl (fun t e => Sparse.set d t e.1 e.2) t) = true := by
    intro es
    induction es with
    | nil => intro t h; exact h
    | cons e es ih => intro t h; exact ih _ (Sparse.set_wf d e.2 e.1 h)
  exact key es [] rfl

/-- Dropping entries keeps the canonical form. -/
theorem Sparse.filter_wfFrom (d : β) (p : Nat × β → Bool) :
    ∀ (t : List (Nat × β)) (low : Option Nat), Sparse.wfFrom d low t = true → Sparse.wfFrom d low (t.filter p) = true
  | [], _, _ => rfl
  | (a, x) :: rest, low, h => by
    simp only [Sparse.wfFrom, Bool.and_eq_true, decide_eq_true_eq] at h
    obtain ⟨⟨ha, hx⟩, hrest⟩ := h
    have hr := Sparse.filter_wfFrom d p rest (some a) hrest
    simp only [List.filter]
    split
    · simp [Sparse.wfFrom, ha, hx, hr]
    · cases low with
      | none =>
        cases hf : rest.filter p with
        | nil => rfl
        | cons e r' =>
          rw [hf] at hr
          simp only [Sparse.wfFrom, Option.all_none, Bool.true_and, Bool.and_eq_true, decide_eq_true_eq] at hr ⊢
          exact ⟨hr.1.2, hr.2⟩
      | some l =>
        cases hf : rest.filter p with
        | nil => rfl
        | cons e r' =>
          rw [hf] at hr
          simp only [Sparse.wfFrom, Option.all_some, Bool.and_eq_true, decide_eq_true_eq] at hr ha ⊢
          exact ⟨⟨by omega, hr.1.2⟩, hr.2⟩

theorem Sparse.clearBelow_wf (d : β) (n : Nat) {t : List (Nat × β)} (h : Sparse.wf d t = true) :
    Sparse.wf d (Sparse.clearBelow n t) = true :=
  Sparse.filter_wfFrom d _ t none h

/-! ### Data memory -/

theorem Memory.read_write_self (m : List Host.Cell) (a : Nat) (v : Byte) (h : Memory.wf m = true) :
    Memory.read (Memory.write m a v) a = v := by
  simp only [Memory.wf, Bool.and_eq_true] at h
  exact Sparse.get_set_self _ _ _ h.1

theorem Memory.read_write_ne (m : List Host.Cell) {a b : Nat} (v : Byte) (h : b ≠ a) :
    Memory.read (Memory.write m a v) b = Memory.read m b :=
  Sparse.get_set_ne _ _ h m

/-- A write keeps every key below a bound that the written key is below. -/
theorem Sparse.set_all_lt (d v : β) (key bound : Nat) (hk : key < bound) :
    ∀ t : List (Nat × β), (t.all fun c => decide (c.1 < bound)) = true →
      ((Sparse.set d t key v).all fun c => decide (c.1 < bound)) = true
  | [], _ => by
    simp only [Sparse.set]
    split <;> simp [hk]
  | (a, x) :: rest, h => by
    simp only [List.all_cons, Bool.and_eq_true, decide_eq_true_eq] at h
    simp only [Sparse.set]
    split
    · split <;> simp only [List.all_cons, Bool.and_eq_true, decide_eq_true_eq] <;> simp [hk, h.1, h.2]
    · split
      · split
        · exact h.2
        · simp only [List.all_cons, Bool.and_eq_true, decide_eq_true_eq]; exact ⟨hk, h.2⟩
      · simp only [List.all_cons, Bool.and_eq_true, decide_eq_true_eq]
        exact ⟨h.1, Sparse.set_all_lt d v key bound hk rest h.2⟩

theorem Memory.write_wf (m : List Host.Cell) (a : Word) (v : Byte) (h : Memory.wf m = true) :
    Memory.wf (Memory.write m a.toNat v) = true := by
  simp only [Memory.wf, Bool.and_eq_true] at h ⊢
  exact ⟨Sparse.set_wf _ _ _ h.1, Sparse.set_all_lt _ _ _ _ a.isLt m h.2⟩

/-- The arrays a reset leaves are in canonical form. -/
theorem freeArray_wf (n : Nat) : Sparse.wf noneWord (freeArray n) = true := Sparse.ofEntries_wf _ _

end Sys2Proof.Machine
end

