-- ==== Sys2Proof/Laws/Ops.lean ====
section
/-! SUPPORT. What the shared operations can answer: the data read, the completions, and the end of a reading command. -/

namespace Sys2Proof.Machine

/-! ### Data reads -/

theorem State.readByte_of_memory {s : State} {a : Nat} (h : s.platform.kindAt a = some .memory) :
    s.readByte a = .ok (Memory.read s.mem a) := by
  simp [State.readByte, h]

theorem State.readByte_of_none {s : State} {a : Nat} (h : s.platform.kindAt a = none) : s.readByte a = .error (.fails a) := by
  simp [State.readByte, h]

/-- A read that answers gives the byte memory holds. -/
theorem State.readByte_ok {s : State} {a : Nat} {v : Byte} (h : s.readByte a = .ok v) : v = Memory.read s.mem a := by
  unfold State.readByte at h
  split at h <;> simp_all

/-- A read that stops says why. -/
theorem State.readByte_error {s : State} {a : Nat} {e : ReadStop} (h : s.readByte a = .error e) :
    (e = .fails a ∧ s.platform.kindAt a = none) ∨ (e = .device a ∧ s.platform.kindAt a = some .device) := by
  unfold State.readByte at h
  split at h <;> simp_all

/-- A stop that a read could have given, at some address. -/
def State.Stops (s : State) : ReadStop → Prop
  | .fails a => s.platform.kindAt a = none
  | .device a => s.platform.kindAt a = some .device

theorem State.readByte_stops {s : State} {a : Nat} {e : ReadStop} (h : s.readByte a = .error e) : s.Stops e := by
  obtain ⟨rfl, h'⟩ | ⟨rfl, h'⟩ := State.readByte_error h <;> exact h'

/-! ### The end of a reading command -/

@[simp] theorem State.finishRead_ok {α : Type} (s : State) (x : α) (k : α → State) : s.finishRead (.ok x) k = .next (k x) := rfl

@[simp] theorem State.finishRead_fails {α : Type} (s : State) (a : Nat) (k : α → State) :
    s.finishRead (.error (.fails a)) k = .next (s.raise .memoryFault (BitVec.ofNat 32 a)) := rfl

@[simp] theorem State.finishRead_device {α : Type} (s : State) (a : Nat) (k : α → State) :
    s.finishRead (.error (.device a)) k = .refused (.deviceRead a) := rfl

/-- All that a reading command can answer with a next state: its result, or a MemoryFault. -/
theorem State.finishRead_next {α : Type} {s t : State} {r : Except ReadStop α} {k : α → State}
    (h : s.finishRead r k = .next t) :
    (∃ x, r = .ok x ∧ t = k x) ∨ (∃ a, r = .error (.fails a) ∧ t = s.raise .memoryFault (BitVec.ofNat 32 a)) := by
  cases r with
  | ok x => exact .inl ⟨x, rfl, by simpa using h.symm⟩
  | error e =>
    cases e with
    | fails a => exact .inr ⟨a, rfl, by simpa using h.symm⟩
    | device a => simp at h

theorem State.finishRead_ne_fault {α : Type} {s : State} {r : Except ReadStop α} {k : α → State} {f : Fault} :
    s.finishRead r k ≠ .fault f := by
  cases r with
  | ok x => simp
  | error e => cases e <;> simp

/-! ### Operands -/

theorem passesTop_iff (p n : Word) : passesTop p n = true ↔ 2 ^ 32 < p.toNat + n.toNat := by
  simp [passesTop, addrSpace]

theorem passesTop_false_iff (p n : Word) : passesTop p n = false ↔ p.toNat + n.toNat ≤ 2 ^ 32 := by
  simp [passesTop, addrSpace]

/-- A byte operand is its register's value where that is at most 255, and none above. -/
theorem byteOperand_spec (w : Word) :
    (w.toNat ≤ 0xFF → ∃ b : Byte, byteOperand w = some b ∧ b.toNat = w.toNat) ∧ (0xFF < w.toNat → byteOperand w = none) := by
  have hz : w.extractLsb' 8 24 = 0#24 ↔ w.toNat ≤ 0xFF := by
    have := w.isLt
    rw [BitVec.toNat_eq]
    simp only [BitVec.extractLsb'_toNat, BitVec.toNat_ofNat, Nat.shiftRight_eq_div_pow, Nat.zero_mod]
    omega
  constructor
  · intro h
    refine ⟨w.extractLsb' 0 8, if_pos (hz.2 h), ?_⟩
    simp only [BitVec.extractLsb'_toNat, Nat.shiftRight_zero]
    omega
  · intro h
    exact if_neg fun h0 => absurd (hz.1 h0) (by omega)

end Sys2Proof.Machine
end

