-- ==== Sys2Proof/Laws/BlockIndex.lean ====
section
/-! SUPPORT. The index geometry and the chain append. -/

namespace Sys2Proof.Machine

theorem tableSizeFrom_spec (need : Nat) : ∀ fuel t, (∃ j, t = 2^j) → need ≤ t * 2^fuel → (t = 1 ∨ t < 2 * need) →
    ∃ j, tableSizeFrom need fuel t = 2^j ∧ need ≤ 2^j ∧ (2^j = 1 ∨ 2^j < 2*need)
  | 0, t, ⟨j, hj⟩, h, hl => ⟨j, by simpa [tableSizeFrom] using hj, by subst hj; simpa using h, by subst hj; exact hl⟩
  | fuel+1, t, ⟨j, hj⟩, h, hl => by
    simp only [tableSizeFrom]
    split
    · rename_i hlt
      exact tableSizeFrom_spec need fuel (2*t) ⟨j+1, by rw [hj, pow_succ]; ring⟩
        (by rw [pow_succ] at h; rw [show 2 * t * 2^fuel = t * (2^fuel*2) by ring]; exact h) (Or.inr (by omega))
    · exact ⟨j, hj, by omega, by subst hj; exact hl⟩

/-- The bucket count is a power of two that reaches the need, and less than twice it unless it is 1. -/
theorem tableSize_spec (n : Nat) (h : n < 2^32) : ∃ j, tableSize n = 2^j ∧ n/4+1 ≤ 2^j ∧ (2^j = 1 ∨ 2^j < 2*(n/4+1)) :=
  tableSizeFrom_spec (n/4+1) 32 1 ⟨0, rfl⟩ (by omega) (Or.inl rfl)

theorem tableSize_bounds (n : Nat) (h : n < 2^32) : 1 ≤ tableSize n ∧ tableSize n ≤ 2^30 := by
  obtain ⟨j, h1, h2, h3⟩ := tableSize_spec n h
  rw [h1]
  refine ⟨Nat.one_le_two_pow, ?_⟩
  rcases h3 with h3 | h3
  · rw [h3]; decide
  · have : 2^j < 2^31 := by omega
    have : j < 31 := (Nat.pow_lt_pow_iff_right (by decide)).1 this
    exact Nat.pow_le_pow_right (by decide) (by omega)

/-- A power-of-two mask is a remainder (41_block_index.md R123). -/
theorem bucket_eq {s : State} {j : Nat} (h : s.ixTblsiz.toNat = 2^j) (x : Word) : s.bucket x = x.toNat % s.ixTblsiz.toNat := by
  have hj : j < 32 := by have := s.ixTblsiz.isLt; rw [h] at this; exact (Nat.pow_lt_pow_iff_right (by decide)).1 this
  unfold State.bucket
  rw [BitVec.toNat_and]
  have : (s.ixTblsiz - 1).toNat = 2^j - 1 := by
    have h1 : 1 ≤ 2^j := Nat.one_le_two_pow
    rw [BitVec.toNat_sub, h]
    have h2 : (2:ℕ)^j < 2^32 := by rw [← h]; exact s.ixTblsiz.isLt
    have : (1 : Word).toNat = 1 := rfl
    rw [this]; omega
  rw [this, Nat.and_two_pow_sub_one_eq_mod, h]

/-- The block IX_ADD would append is never indexed yet: why DuplicateBlock does not happen (41_block_index.md R128). -/
theorem indexed_nextBlock (s : State) : s.indexed s.nextBlock = false := by
  unfold State.indexed State.nextBlock
  rw [Bool.and_eq_false_iff, decide_eq_false_iff_not, decide_eq_false_iff_not]
  by_cases h : s.ixLastblk = noneWord
  · left; exact fun h' => h' h
  · right
    have h1 : s.ixLastblk.toNat ≠ 0xFFFFFFFF := fun h2 => h (BitVec.eq_of_toNat_eq h2)
    have := s.ixLastblk.isLt
    rw [BitVec.toNat_add]
    have : (1:Word).toNat = 1 := rfl
    omega

theorem none_toNat : noneWord.toNat = 4294967295 := rfl

theorem ne_none_of_lt {b : Word} {n : Word} (h : b.toNat < n.toNat) : b ≠ noneWord := by
  rintro rfl
  have := n.isLt
  rw [none_toNat] at h; omega

/-- An append to an empty bucket. -/
theorem append_empty {s : State} {k : Nat} (b : Word) (h : s.head k = noneWord) :
    s.append k b =
      { s with headTab := Sparse.set noneWord s.headTab k b, lastTab := Sparse.set noneWord s.lastTab b.toNat b } := if_pos h

/-- An append behind the tail that `LAST` of the head names. -/
theorem append_behind {s : State} {k : Nat} (b : Word) (h : s.head k ≠ noneWord) :
    s.append k b =
      { s with
        nextTab := Sparse.set noneWord s.nextTab (s.lastOf (s.head k).toNat).toNat b
        lastTab := Sparse.set noneWord s.lastTab (s.head k).toNat b } := if_neg h

/-- A chain is determined by where it starts. -/
theorem walk_unique {s : State} : ∀ {cs cs' : List Nat} {c}, s.Walk cs c → s.Walk cs' c → cs = cs'
  | [], [], _, _, _ => rfl
  | [], _ :: _, _, h, h' => absurd h h'.1
  | _ :: _, [], _, h, h' => absurd h' h.1
  | x :: r, y :: r', _, ⟨_, h2, h3⟩, ⟨_, h2', h3'⟩ => by
    have : x = y := by rw [← h2, ← h2']
    subst this
    rw [walk_unique h3 h3']

/-- Behind a block of a chain stands the rest of that chain. -/
theorem walk_next {s : State} {chain c} (hw : s.Walk chain c) {b} (hb : b ∈ chain) :
    ∃ post, s.Walk post (s.nextOf b) ∧ post ⊆ chain := by
  induction chain generalizing c with
  | nil => simp at hb
  | cons x rest ih =>
    obtain ⟨h1, h2, h3⟩ := hw
    rcases List.mem_cons.1 hb with rfl | hb
    · exact ⟨rest, h3, fun _ => List.mem_cons_of_mem _⟩
    · obtain ⟨p, h4, h5⟩ := ih h3 hb
      exact ⟨p, h4, fun _ h => List.mem_cons_of_mem _ (h5 h)⟩

end Sys2Proof.Machine
end

