-- ==== Sys2Proof/Laws/MatchVerify.lean ====
section
/-! SUPPORT. The verifier and the bounded scan: what they answer, why they stop, and what they depend on. -/

namespace Sys2Proof.Machine

theorem readBytes_stops (s : State) : ∀ n a e, s.readBytes n a = .error e → s.Stops e
  | 0, a, e, h => by simp [State.readBytes] at h
  | n+1, a, e, h => by
    simp only [State.readBytes] at h
    split at h
    · rename_i e' h'; cases h; exact State.readByte_stops h'
    · split at h
      · rename_i h'; cases h; exact readBytes_stops s n _ _ h'
      · simp at h

theorem compareUp_stops (s : State) : ∀ n a b e, s.compareUp n a b = .error e → s.Stops e
  | 0, a, b, e, h => by simp [State.compareUp] at h
  | n+1, a, b, e, h => by
    simp only [State.compareUp] at h
    split at h
    · rename_i h'; cases h; exact State.readByte_stops h'
    · split at h
      · rename_i h'; cases h; exact State.readByte_stops h'
      · split at h
        · exact compareUp_stops s n _ _ _ h
        · simp at h

theorem scan_stops (s : State) (tp) : ∀ n c e, s.scan tp n c = .error e → s.Stops e
  | 0, c, e, h => by simp [State.scan] at h
  | n+1, c, e, h => by
    simp only [State.scan] at h
    split at h
    · simp at h
    · split at h
      · rename_i h'; cases h; exact compareUp_stops s _ _ _ _ h'
      · simp at h
      · split at h
        · rename_i h'; cases h; exact scan_stops s tp n _ _ h'
        · simp at h

/-- Over readable bytes the comparison answers, and says whether they are all equal. -/
theorem compareUp_ok {s : State} : ∀ n ra ta, Readable s.platform ra n → Readable s.platform ta n →
    s.compareUp n ra ta = .ok ((List.range n).all fun k => Memory.read s.mem (ra + k) == Memory.read s.mem (ta + k))
  | 0, _, _, _, _ => rfl
  | n + 1, ra, ta, h, h' => by
    have h0 := State.readByte_of_memory (h 0 (by omega))
    have h0' := State.readByte_of_memory (h' 0 (by omega))
    have ih := compareUp_ok (s := s) n (ra + 1) (ta + 1)
      (fun k hk => by have := h (k + 1) (by omega); rwa [show ra + (k + 1) = ra + 1 + k by omega] at this)
      (fun k hk => by have := h' (k + 1) (by omega); rwa [show ta + (k + 1) = ta + 1 + k by omega] at this)
    simp only [State.compareUp, Nat.add_zero] at h0 h0' ⊢
    rw [h0, h0', ih, List.range_succ_eq_map, List.all_cons, List.all_map]
    simp only [Nat.add_zero, Function.comp_def]
    by_cases hx : Memory.read s.mem ra = Memory.read s.mem ta
    · simp only [hx, if_true, beq_self_eq_true, Bool.true_and]
      congr 2
      funext k
      simp only [Nat.succ_eq_add_one, show ra + (k + 1) = ra + 1 + k by omega, show ta + (k + 1) = ta + 1 + k by omega]
    · simp [hx]

/-- Equality is answered only of equal bytes, whatever is readable. -/
theorem compareUp_true {s : State} : ∀ n ra ta, s.compareUp n ra ta = .ok true → s.sameBytes ra ta n
  | 0, _, _, _ => fun k hk => absurd hk (by omega)
  | n + 1, ra, ta, h => by
    simp only [State.compareUp] at h
    split at h
    · cases h
    · rename_i x hx
      split at h
      · cases h
      · rename_i y hy
        split at h
        · rename_i hxy
          have ih := compareUp_true n _ _ h
          intro k hk
          cases k with
          | zero => simp only [Nat.add_zero]; rw [← State.readByte_ok hx, ← State.readByte_ok hy, hxy]
          | succ k =>
            have := ih k (by omega)
            rwa [show ra + 1 + k = ra + (k + 1) by omega, show ta + 1 + k = ta + (k + 1) by omega] at this
        · cases h

/-- Inequality is answered only of bytes that differ, whatever is readable. -/
theorem compareUp_false {s : State} : ∀ n ra ta, s.compareUp n ra ta = .ok false →
    ((List.range n).all fun k => Memory.read s.mem (ra + k) == Memory.read s.mem (ta + k)) = false
  | 0, _, _, h => by simp [State.compareUp] at h
  | n + 1, ra, ta, h => by
    simp only [State.compareUp] at h
    rw [List.range_succ_eq_map, List.all_cons, List.all_map, Bool.and_eq_false_iff]
    split at h
    · cases h
    · rename_i x hx
      split at h
      · cases h
      · rename_i y hy
        split at h
        · right
          have ih := compareUp_false n _ _ h
          simpa only [Function.comp_def, Nat.succ_eq_add_one, show ∀ k, ra + 1 + k = ra + (k + 1) by omega,
            show ∀ k, ta + 1 + k = ta + (k + 1) by omega] using ih
        · rename_i hxy
          left
          rw [State.readByte_ok hx, State.readByte_ok hy] at hxy
          simpa using hxy

/-- A scan of a chain whose compared blocks all verify one way or the other: the first match in the budget, and the count of blocks
compared. -/
theorem scan_ok {s : State} (tp : Nat) (m : Nat → Bool) :
    ∀ n c chain, s.Walk chain c →
      (∀ b ∈ (chain.take n).take ((chain.take n).findIdx m + 1), s.verify b tp = .ok (m b)) →
      s.scan tp n c =
        .ok
          ((match (chain.take n).find? m with
            | some b => BitVec.ofNat 32 b
            | none => noneWord),
          min ((chain.take n).findIdx m + 1) (chain.take n).length)
  | 0, c, chain, hw, hv => by simp [State.scan]
  | n + 1, c, chain, hw, hv => by
    cases chain with
    | nil => have : c = noneWord := hw; simp [State.scan, this]
    | cons b rest =>
      obtain ⟨hc, hb, hw'⟩ := hw
      simp only [List.take_succ_cons, List.findIdx_cons] at hv
      have hvb := hv b (by simp)
      simp only [State.scan, hc, if_false, hb, hvb]
      cases hm : m b with
      | true =>
        simp [hm, List.findIdx_cons]
        rw [← hb]; simp
      | false =>
        simp only [hm, cond_false, List.mem_cons] at hv
        simp only [scan_ok tp m n _ rest hw' (fun b hb => hv b (.inr hb))]
        simp only [List.take_succ_cons, List.find?_cons, hm, List.findIdx_cons, List.length_cons, cond_false]
        congr 2
        omega

theorem verify_ok {s : State} (b tp : Nat) (hin : b * s.rhW.toNat + s.rhW.toNat ≤ s.ixRefLen.toNat)
    (hr : Readable s.platform s.ixRefBase.toNat s.ixRefLen.toNat) (ht : Readable s.platform tp s.rhW.toNat) :
    s.verify b tp = .ok (s.blockMatches tp b) := by
  unfold State.verify
  rw [compareUp_ok]
  · rfl
  · intro k hk
    unfold State.blockAddr
    have := hr (b * s.rhW.toNat + k) (by omega)
    rwa [← Nat.add_assoc] at this
  · exact ht

/-- Whatever a scan answers: the budget, when no probe is made, and that a block it reports matches. -/
theorem scan_answers {s : State} (tp) : ∀ n c x p, s.scan tp n c = .ok (x, p) →
    p ≤ n ∧ (n ≠ 0 → (p = 0 ↔ c = noneWord)) ∧
      (x ≠ noneWord → s.sameBytes (s.blockAddr x.toNat) tp s.rhW.toNat)
  | 0, c, x, p, h => by simp only [State.scan] at h; cases h; simp
  | n+1, c, x, p, h => by
    simp only [State.scan] at h
    split at h
    · rename_i hc; cases h; simp [hc]
    · rename_i hc
      split at h
      · cases h
      · rename_i hv; cases h; exact ⟨by omega, fun _ => ⟨fun h => absurd h (by omega), fun h => absurd h hc⟩, fun _ => compareUp_true _ _ _ hv⟩
      · split at h
        · cases h
        · cases h; rename_i h'
          obtain ⟨h1, h2, h3⟩ := scan_answers tp n _ _ _ h'
          exact ⟨by omega, fun _ => ⟨fun h => absurd h (by omega), fun h => absurd h hc⟩, h3⟩

/-- A block a scan of a chain reports splits that chain. -/
theorem scan_found {s : State} (tp) : ∀ n c chain x p, s.Walk chain c → s.scan tp n c = .ok (x, p) → x ≠ noneWord →
    ∃ pre post, chain = pre ++ x.toNat :: post ∧ s.Walk post (s.nextOf x.toNat)
  | 0, c, chain, x, p, hw, h, hx => by simp only [State.scan] at h; cases h; exact absurd rfl hx
  | n+1, c, chain, x, p, hw, h, hx => by
    simp only [State.scan] at h
    split at h
    · cases h; exact absurd rfl hx
    · rename_i hc
      cases chain with
      | nil => exact absurd hw hc
      | cons b rest =>
        obtain ⟨_, hb, hw'⟩ := hw
        split at h
        · cases h
        · cases h; exact ⟨[], rest, by simp [hb], by rw [hb]; exact hw'⟩
        · split at h
          · cases h
          · cases h
            rename_i h'
            rw [hb] at h'
            obtain ⟨pre, post, e, w⟩ := scan_found tp n _ rest _ _ hw' h' hx
            exact ⟨b :: pre, post, by simp [e], w⟩

theorem probed_mem {s : State} (tp) : ∀ n c chain, s.Walk chain c → ∀ b ∈ s.probed tp n c, b.toNat ∈ chain
  | 0, c, chain, hw, b, hb => by simp [State.probed] at hb
  | n+1, c, chain, hw, b, hb => by
    simp only [State.probed] at hb
    split at hb
    · simp at hb
    · rename_i hc
      cases chain with
      | nil => exact absurd hw hc
      | cons b' rest =>
        obtain ⟨_, hb', hw'⟩ := hw
        split at hb
        · simp at hb; subst hb; simp [hb']
        · simp at hb; subst hb; simp [hb']
        · simp only [List.mem_cons] at hb
          rcases hb with rfl | hb
          · simp [hb']
          · rw [hb'] at hb; exact List.mem_cons_of_mem _ (probed_mem tp n _ rest hw' b hb)

end Sys2Proof.Machine
end

