-- ==== Sys2Proof/Laws/BestMatch.lean ====
section
/-! SUPPORT. The extenders and the match selector: what they answer and why they stop. -/

namespace Sys2Proof.Machine

theorem equalDown_stops (s : State) : ∀ n a b e, s.equalDown n a b = .error e → s.Stops e
  | 0, a, b, e, h => by simp [State.equalDown] at h
  | n+1, a, b, e, h => by
    simp only [State.equalDown] at h
    split at h
    · rename_i h'; cases h; exact State.readByte_stops h'
    · split at h
      · rename_i h'; cases h; exact State.readByte_stops h'
      · split at h
        · split at h
          · rename_i h'; cases h; exact equalDown_stops s n _ _ _ h'
          · simp at h
        · simp at h

theorem equalUp_stops (s : State) : ∀ n a b e, s.equalUp n a b = .error e → s.Stops e
  | 0, a, b, e, h => by simp [State.equalUp] at h
  | n+1, a, b, e, h => by
    simp only [State.equalUp] at h
    split at h
    · rename_i h'; cases h; exact State.readByte_stops h'
    · split at h
      · rename_i h'; cases h; exact State.readByte_stops h'
      · split at h
        · split at h
          · rename_i h'; cases h; exact equalUp_stops s n _ _ _ h'
          · simp at h
        · simp at h

theorem candidate_stops (s : State) (c t e) (h : s.candidate c t = .error e) : s.Stops e := by
  simp only [State.candidate] at h
  split at h
  · rename_i h'; cases h; exact equalDown_stops s _ _ _ _ h'
  · split at h
    · rename_i h'; cases h; exact equalUp_stops s _ _ _ _ h'
    · simp at h

theorem bestFrom_stops (s : State) (t) : ∀ n c b e, s.bestFrom t n c b = .error e → s.Stops e
  | 0, c, b, e, h => by simp [State.bestFrom] at h
  | n+1, c, b, e, h => by
    simp only [State.bestFrom] at h
    split at h
    · rename_i h'; cases h; exact scan_stops s _ _ _ _ h'
    · split at h
      · simp at h
      · split at h
        · rename_i h'; cases h; exact candidate_stops s _ _ _ h'
        · exact bestFrom_stops s t n _ _ _ h

/-- Upward extension over readable bytes: as many equal bytes as the limit allows. -/
theorem equalUp_ok {s : State} : ∀ n ra ta, Readable s.platform ra n → Readable s.platform ta n →
    ∃ e, s.equalUp n ra ta = .ok e ∧ e ≤ n ∧ (∀ j, j < e → Memory.read s.mem (ra + j) = Memory.read s.mem (ta + j)) ∧
      (e < n → Memory.read s.mem (ra + e) ≠ Memory.read s.mem (ta + e))
  | 0, _, _, _, _ => ⟨0, rfl, by omega, fun _ h => absurd h (by omega), fun h => absurd h (by omega)⟩
  | n + 1, ra, ta, h, h' => by
    have h0 := State.readByte_of_memory (h 0 (by omega))
    have h0' := State.readByte_of_memory (h' 0 (by omega))
    obtain ⟨e, h1, h2, h3, h4⟩ := equalUp_ok (s := s) n (ra + 1) (ta + 1)
      (fun k hk => by have := h (k + 1) (by omega); rwa [show ra + (k + 1) = ra + 1 + k by omega] at this)
      (fun k hk => by have := h' (k + 1) (by omega); rwa [show ta + (k + 1) = ta + 1 + k by omega] at this)
    simp only [Nat.add_zero] at h0 h0'
    simp only [State.equalUp, h0, h0', h1]
    by_cases hx : Memory.read s.mem ra = Memory.read s.mem ta
    · rw [if_pos hx]
      refine ⟨e + 1, rfl, by omega, ?_, ?_⟩
      · intro j hj
        cases j with
        | zero => exact hx
        | succ j =>
          have := h3 j (by omega)
          rwa [show ra + 1 + j = ra + (j + 1) by omega, show ta + 1 + j = ta + (j + 1) by omega] at this
      · intro hj
        have := h4 (by omega)
        rwa [show ra + 1 + e = ra + (e + 1) by omega, show ta + 1 + e = ta + (e + 1) by omega] at this
    · rw [if_neg hx]
      exact ⟨0, rfl, by omega, fun _ h => absurd h (by omega), fun _ => hx⟩

/-- Downward extension over readable bytes. -/
theorem equalDown_ok {s : State} : ∀ n ra ta, n ≤ ra → n ≤ ta → Readable s.platform (ra - n) n →
    Readable s.platform (ta - n) n →
    ∃ e, s.equalDown n ra ta = .ok e ∧ e ≤ n ∧
      (∀ j, j < e → Memory.read s.mem (ra - 1 - j) = Memory.read s.mem (ta - 1 - j)) ∧
      (e < n → Memory.read s.mem (ra - 1 - e) ≠ Memory.read s.mem (ta - 1 - e))
  | 0, _, _, _, _, _, _ => ⟨0, rfl, by omega, fun _ h => absurd h (by omega), fun h => absurd h (by omega)⟩
  | n + 1, ra, ta, hra, hta, h, h' => by
    have h0 := State.readByte_of_memory (h n (by omega))
    have h0' := State.readByte_of_memory (h' n (by omega))
    rw [show ra - (n + 1) + n = ra - 1 by omega] at h0
    rw [show ta - (n + 1) + n = ta - 1 by omega] at h0'
    obtain ⟨e, h1, h2, h3, h4⟩ := equalDown_ok (s := s) n (ra - 1) (ta - 1) (by omega) (by omega)
      (fun k hk => by have := h k (by omega); rwa [show ra - (n + 1) + k = ra - 1 - n + k by omega] at this)
      (fun k hk => by have := h' k (by omega); rwa [show ta - (n + 1) + k = ta - 1 - n + k by omega] at this)
    simp only [State.equalDown, h0, h0', h1]
    by_cases hx : Memory.read s.mem (ra - 1) = Memory.read s.mem (ta - 1)
    · rw [if_pos hx]
      refine ⟨e + 1, rfl, by omega, ?_, ?_⟩
      · intro j hj
        cases j with
        | zero => exact hx
        | succ j =>
          have := h3 j (by omega)
          rwa [show ra - 1 - 1 - j = ra - 1 - (j + 1) by omega, show ta - 1 - 1 - j = ta - 1 - (j + 1) by omega] at this
      · intro hj
        have := h4 (by omega)
        rwa [show ra - 1 - 1 - e = ra - 1 - (e + 1) by omega, show ta - 1 - 1 - e = ta - 1 - (e + 1) by omega] at this
    · rw [if_neg hx]
      exact ⟨0, rfl, by omega, fun _ h => absurd h (by omega), fun _ => hx⟩

/-- A candidate inside readable buffers is extended both ways. -/
theorem candidate_ok {s : State} (c : Word) (t : Target)
    (hin : c.toNat * s.rhW.toNat + s.rhW.toNat ≤ s.ixRefLen.toNat) (htl : s.rhW.toNat ≤ t.tl) (htb : t.tb ≤ t.tp)
    (hr : Readable s.platform s.ixRefBase.toNat s.ixRefLen.toNat)
    (ht : Readable s.platform t.tb (t.tp + t.tl - t.tb)) :
    ∃ le re, s.IsLeftExt (c.toNat * s.rhW.toNat) t.tp t.tb le ∧ s.IsRightExt (c.toNat * s.rhW.toNat) t.tp t.tl re ∧
      s.candidate c t = .ok ⟨c, c.toNat * s.rhW.toNat - le, (t.tp - t.tb) - le, s.rhW.toNat + le + re⟩ := by
  have R : ∀ a n, s.ixRefBase.toNat ≤ a → a + n ≤ s.ixRefBase.toNat + s.ixRefLen.toNat → Readable s.platform a n := by
    intro a n h1 h2 k hk
    have := hr (a + k - s.ixRefBase.toNat) (by omega)
    rwa [show s.ixRefBase.toNat + (a + k - s.ixRefBase.toNat) = a + k by omega] at this
  have T : ∀ a n, t.tb ≤ a → a + n ≤ t.tp + t.tl → Readable s.platform a n := by
    intro a n h1 h2 k hk
    have := ht (a + k - t.tb) (by omega)
    rwa [show t.tb + (a + k - t.tb) = a + k by omega] at this
  obtain ⟨le, l1, l2, l3, l4⟩ := equalDown_ok (s := s) (min (c.toNat * s.rhW.toNat) (t.tp - t.tb))
    (s.ixRefBase.toNat + c.toNat * s.rhW.toNat) t.tp
    (by omega) (by omega) (R _ _ (by omega) (by omega)) (T _ _ (by omega) (by omega))
  obtain ⟨re, r1, r2, r3, r4⟩ := equalUp_ok (s := s)
    (min (s.ixRefLen.toNat - (c.toNat * s.rhW.toNat + s.rhW.toNat)) (t.tl - s.rhW.toNat))
    (s.ixRefBase.toNat + c.toNat * s.rhW.toNat + s.rhW.toNat) (t.tp + s.rhW.toNat)
    (R _ _ (by omega) (by omega)) (T _ _ (by omega) (by omega))
  refine ⟨le, re, ⟨l2, l3, l4⟩, ⟨r2, r3, r4⟩, ?_⟩
  simp only [State.candidate, State.extendLeft, State.extendRight, l1, r1]

theorem equalUp_inv {s : State} : ∀ n ra ta e, s.equalUp n ra ta = .ok e →
    e ≤ n ∧ (∀ j, j < e → Memory.read s.mem (ra + j) = Memory.read s.mem (ta + j))
  | 0, _, _, e, h => by simp only [State.equalUp] at h; cases h; exact ⟨by omega, fun _ h => absurd h (by omega)⟩
  | n + 1, ra, ta, e, h => by
    simp only [State.equalUp] at h
    split at h
    · cases h
    · rename_i x hx
      split at h
      · cases h
      · rename_i y hy
        split at h
        · rename_i hxy
          split at h
          · cases h
          · cases h
            rename_i h'
            obtain ⟨h1, h2⟩ := equalUp_inv n _ _ _ h'
            refine ⟨by omega, ?_⟩
            intro j hj
            cases j with
            | zero => simp only [Nat.add_zero]; rw [← State.readByte_ok hx, ← State.readByte_ok hy, hxy]
            | succ j =>
              have := h2 j (by omega)
              rwa [show ra + 1 + j = ra + (j + 1) by omega, show ta + 1 + j = ta + (j + 1) by omega] at this
        · cases h; exact ⟨by omega, fun _ h => absurd h (by omega)⟩

theorem equalDown_inv {s : State} : ∀ n ra ta e, s.equalDown n ra ta = .ok e →
    e ≤ n ∧ (∀ j, j < e → Memory.read s.mem (ra - 1 - j) = Memory.read s.mem (ta - 1 - j))
  | 0, _, _, e, h => by simp only [State.equalDown] at h; cases h; exact ⟨by omega, fun _ h => absurd h (by omega)⟩
  | n + 1, ra, ta, e, h => by
    simp only [State.equalDown] at h
    split at h
    · cases h
    · rename_i x hx
      split at h
      · cases h
      · rename_i y hy
        split at h
        · rename_i hxy
          split at h
          · cases h
          · cases h
            rename_i h'
            obtain ⟨h1, h2⟩ := equalDown_inv n _ _ _ h'
            refine ⟨by omega, ?_⟩
            intro j hj
            cases j with
            | zero => simp only [Nat.sub_zero]; rw [← State.readByte_ok hx, ← State.readByte_ok hy, hxy]
            | succ j =>
              have := h2 j (by omega)
              rwa [show ra - 1 - 1 - j = ra - 1 - (j + 1) by omega, show ta - 1 - 1 - j = ta - 1 - (j + 1) by omega] at this
        · cases h; exact ⟨by omega, fun _ h => absurd h (by omega)⟩

theorem better_eq (b : Option Match) (m : Match) : better b m = some m ∨ better b m = b := by
  unfold better
  split
  · exact .inl rfl
  · split
    · exact .inl rfl
    · exact .inr rfl

/-- Every enumerated candidate is a matching block of the chain. -/
theorem enumerate_sub (m : Nat → Bool) : ∀ cap chain, ∀ b ∈ enumerate m cap chain, b ∈ chain ∧ m b = true
  | 0, _, _, h => by simp [enumerate] at h
  | cap + 1, chain, b, h => by
    simp only [enumerate] at h
    split at h
    · simp at h
    · rename_i c hf
      rcases List.mem_cons.1 h with rfl | h
      · exact ⟨List.mem_of_mem_take (List.mem_of_find?_eq_some hf), List.find?_some hf⟩
      · obtain ⟨h1, h2⟩ := enumerate_sub m cap _ _ h
        exact ⟨(List.dropWhile_suffix _).subset (List.mem_of_mem_drop h1), h2⟩

theorem enumerate_sorted (m : Nat → Bool) : ∀ cap chain, chain.Pairwise (· < ·) → (enumerate m cap chain).Pairwise (· < ·)
  | 0, _, _ => by simp [enumerate]
  | cap + 1, chain, h => by
    simp only [enumerate]
    split
    · simp
    · rename_i c hf
      have hmem := List.mem_of_mem_take (List.mem_of_find?_eq_some hf)
      have hs : (chain.dropWhile (· != c)).Pairwise (· < ·) := h.sublist (List.dropWhile_suffix _).sublist
      have : ∃ r, chain.dropWhile (· != c) = c :: r := by
        clear hs hf h
        induction chain with
        | nil => simp at hmem
        | cons x r ih =>
          by_cases hx : x = c
          · subst hx; exact ⟨r, by simp⟩
          · have : (x != c) = true := by simp [hx]
            simp only [List.dropWhile_cons, this, if_true]
            exact ih (by simpa [Ne.symm hx] using hmem)
      obtain ⟨r, hr⟩ := this
      rw [hr] at hs ⊢
      rw [List.pairwise_cons] at hs ⊢
      simp only [List.drop_succ_cons, List.drop_zero]
      exact ⟨fun b hb => hs.1 b (enumerate_sub m cap _ b hb).1, enumerate_sorted m cap r hs.2⟩

end Sys2Proof.Machine
end

