-- ==== Sys2Proof/Laws/Commands.lean ====
section
/-! SUPPORT. Everything a command can answer with a next state, said once. -/

namespace Sys2Proof.Machine

/-- The shapes of a completion, each with the guards it comes under. -/
inductive Answer (s : State) : Instr → State → Prop
  | err (i e info) : e.invalidatesIndex = false → e ≠ .memoryFault → i ≠ .rhInit → Answer s i (s.raise e info)
  | fault (i a) : s.platform.kindAt a = none → i ∈ [Instr.rhHash, .ixFirst, .ixNext, .ixBest] →
      Answer s i (s.raise .memoryFault (BitVec.ofNat 32 a))
  | invalid (i b) : i ∈ [Instr.ixAdd, .ixNext] → Answer s i (s.raise .invalidIndex b)
  | ok (i a b c d) : i ∈ [Instr.rhHash, .rhUpdate, .ixFirst, .ixNext, .ixBest, .ixAdd] → Answer s i (s.complete a b c d)
  | initBad : s.pend.a0.toNat ≤ 2 →
      Answer s .rhInit
        ({ s with
            ixValid := false, rhValid := false, rhW := 0, rhMult := 0
            remtab := Config.freeRemtab s.freeCtr, freeCtr := s.freeCtr + 1 }.raise .invalidWindow s.pend.a0)
  | initOk (m) : 3 ≤ s.pend.a0.toNat → m = multW s.pend.a0.toNat →
      Answer s .rhInit
        ({ s with
            ixValid := false, rhValid := true, rhW := s.pend.a0, rhMult := BitVec.ofNat 32 m
            remtab := removalTable m }.complete (BitVec.ofNat 32 m) 0 0 0)
  | ixErr (e info) : s.rhValid = true → e.invalidatesIndex = false → e ≠ .memoryFault →
      Answer s .ixInit ({ s with ixValid := false }.raise e info)
  | ixAlloc (rb n nb ts) : s.rhValid = true →
      Answer s .ixInit (({ s with ixValid := false }.withGeometry rb n nb ts).raise .allocationFailure 0)
  | ixOk (rb n nb ts) : s.rhValid = true → rb = s.pend.a0 → n = s.pend.a1 → nb = n.toNat / s.rhW.toNat →
      ts = tableSize n.toNat → n ≠ 0 → rb.toNat + n.toNat ≤ 2 ^ 32 → nb ≤ s.platform.maxBlocks.toNat →
      ts ≤ s.platform.maxTblsiz.toNat →
      Answer s .ixInit
        ((({ s with ixValid := false }.withGeometry rb n nb ts).withEmptyIndex nb ts).complete (BitVec.ofNat 32 nb)
          (BitVec.ofNat 32 ts) 0 0)
  | add (b) : s.ixValid = true → b = s.nextBlock → b.toNat < s.ixNblk.toNat →
      Answer s .ixAdd ({ s.append (s.bucket s.pend.a1) b with ixLastblk := b }.complete 1 b 0 0)

theorem answer {i s t} (h : exec i s = .next t) : Answer s i t := by
  cases i with
  | rhInit =>
    simp only [exec, execRhInit] at h
    split at h
    · cases h
      exact .initBad ‹_›
    · rename_i h2
      cases h
      exact .initOk _ (by simp only [State.operand0] at h2; omega) rfl
  | rhHash =>
    simp only [exec, execRhHash] at h
    split at h
    · split at h
      · cases h; exact .err _ _ _ rfl (by decide) (by decide)
      · rcases State.finishRead_next h with ⟨x, hx, rfl⟩ | ⟨a, ha, rfl⟩
        · exact .ok _ _ _ _ _ (by decide)
        · exact .fault _ _ (readBytes_stops s _ _ _ ha) (by decide)
    · cases h; exact .err _ _ _ rfl (by decide) (by decide)
  | rhUpdate =>
    simp only [exec, execRhUpdate] at h
    split at h
    · split at h
      · cases h; exact .err _ _ _ rfl (by decide) (by decide)
      · split at h
        · cases h; exact .err _ _ _ rfl (by decide) (by decide)
        · cases h; exact .ok _ _ _ _ _ (by decide)
    · cases h; exact .err _ _ _ rfl (by decide) (by decide)
  | ixInit =>
    simp only [exec, execIxInit] at h
    split at h
    · rename_i hv
      split at h
      · cases h; exact .ixErr _ _ hv rfl (by decide)
      · split at h
        · cases h; exact .ixErr _ _ hv rfl (by decide)
        · split at h
          · cases h; exact .ixAlloc _ _ _ _ hv
          · rename_i h0 h1 h2
            cases h
            refine .ixOk _ _ _ _ hv rfl rfl rfl rfl h0 ?_ ?_ ?_
            · rw [Bool.not_eq_true, passesTop_false_iff] at h1; exact h1
            · simp only [blockCount] at h2 ⊢; omega
            · omega
    · cases h; exact .err _ _ _ rfl (by decide) (by decide)
  | ixAdd =>
    simp only [exec, execIxAdd] at h
    split at h
    · rename_i hv
      split at h
      · cases h; exact .ok _ _ _ _ _ (by decide)
      · split at h
        · cases h; exact .invalid _ _ (by decide)
        · rw [indexed_nextBlock] at h
          rename_i h2 
          cases h; exact .add _ hv rfl (by omega)
    · cases h; exact .err _ _ _ rfl (by decide) (by decide)
  | ixFirst =>
    simp only [exec, execIxFirst] at h
    split at h
    · split at h
      · cases h; exact .err _ _ _ rfl (by decide) (by decide)
      · rcases State.finishRead_next h with ⟨x, hx, rfl⟩ | ⟨a, ha, rfl⟩
        · exact .ok _ _ _ _ _ (by decide)
        · exact .fault _ _ (scan_stops s _ _ _ _ ha) (by decide)
    · cases h; exact .err _ _ _ rfl (by decide) (by decide)
  | ixNext =>
    simp only [exec, execIxNext] at h
    split at h
    · split at h
      · cases h; exact .invalid _ _ (by decide)
      · split at h
        · cases h; exact .err _ _ _ rfl (by decide) (by decide)
        · rcases State.finishRead_next h with ⟨x, hx, rfl⟩ | ⟨a, ha, rfl⟩
          · exact .ok _ _ _ _ _ (by decide)
          · exact .fault _ _ (scan_stops s _ _ _ _ ha) (by decide)
    · cases h; exact .err _ _ _ rfl (by decide) (by decide)
  | ixBest =>
    simp only [exec, execIxBest] at h
    split at h
    · split at h
      · cases h; exact .err _ _ _ rfl (by decide) (by decide)
      · split at h
        · cases h; exact .err _ _ _ rfl (by decide) (by decide)
        · split at h
          · cases h; exact .err _ _ _ rfl (by decide) (by decide)
          · rcases State.finishRead_next h with ⟨x, hx, rfl⟩ | ⟨a, ha, rfl⟩
            · cases x
              · exact .ok _ _ _ _ _ (by decide)
              · exact .ok _ _ _ _ _ (by decide)
            · exact .fault _ _ (bestFrom_stops s _ _ _ _ _ ha) (by decide)
    · cases h; exact .err _ _ _ rfl (by decide) (by decide)

theorem finish_total {α} {s : State} {r : Except ReadStop α} {k} (hs : ∀ e, r = .error e → s.Stops e)
    (h : ∀ a, s.platform.kindAt a ≠ some .device) : ∃ t, s.finishRead r k = .next t := by
  cases r with
  | ok x => exact ⟨_, rfl⟩
  | error e => cases e with
    | fails a => exact ⟨_, rfl⟩
    | device a => exact absurd (hs _ rfl) (h a)

/-- A device byte apart, every command completes. -/
theorem exec_total (i : Instr) (s : State) (h : ∀ a, s.platform.kindAt a ≠ some .device) : ∃ t, exec i s = .next t := by
  cases i with
  | rhInit => simp only [exec, execRhInit]; split <;> exact ⟨_, rfl⟩
  | rhHash =>
    simp only [exec, execRhHash]; split
    · split
      · exact ⟨_, rfl⟩
      · exact finish_total (readBytes_stops s _ _) h
    · exact ⟨_, rfl⟩
  | rhUpdate => simp only [exec, execRhUpdate]; repeat' split
                all_goals exact ⟨_, rfl⟩
  | ixInit => simp only [exec, execIxInit]; repeat' split
              all_goals exact ⟨_, rfl⟩
  | ixAdd => simp only [exec, execIxAdd]; repeat' split
             all_goals exact ⟨_, rfl⟩
  | ixFirst =>
    simp only [exec, execIxFirst]; split
    · split
      · exact ⟨_, rfl⟩
      · exact finish_total (scan_stops s _ _ _) h
    · exact ⟨_, rfl⟩
  | ixNext =>
    simp only [exec, execIxNext]; split
    · split
      · exact ⟨_, rfl⟩
      · split
        · exact ⟨_, rfl⟩
        · exact finish_total (scan_stops s _ _ _) h
    · exact ⟨_, rfl⟩
  | ixBest =>
    simp only [exec, execIxBest]; split
    · split
      · exact ⟨_, rfl⟩
      · split
        · exact ⟨_, rfl⟩
        · split
          · exact ⟨_, rfl⟩
          · exact finish_total (bestFrom_stops s _ _ _ _) h
    · exact ⟨_, rfl⟩

end Sys2Proof.Machine
end

