-- ==== Sys2Proof/Laws/Congruence.lean ====
section
/-! SUPPORT. Two states that hold the same index and agree on the bytes a command reads give it the same answer. -/

namespace Sys2Proof.Machine

theorem readBytes_congr {s s' : State} : ∀ n a, (∀ k, k < n → s'.readByte (a + k) = s.readByte (a + k)) →
    s'.readBytes n a = s.readBytes n a
  | 0, _, _ => rfl
  | n + 1, a, h => by
    have h0 := h 0 (by omega)
    have ih := readBytes_congr (s := s) (s' := s') n (a + 1) fun k hk => by
      have := h (k + 1) (by omega); rwa [show a + (k + 1) = a + 1 + k by omega] at this
    simp only [State.readBytes, Nat.add_zero] at h0 ⊢
    rw [h0, ih]

theorem compareUp_congr {s s' : State} : ∀ n ra ta, (∀ k, k < n → s'.readByte (ra + k) = s.readByte (ra + k)) →
    (∀ k, k < n → s'.readByte (ta + k) = s.readByte (ta + k)) → s'.compareUp n ra ta = s.compareUp n ra ta
  | 0, _, _, _, _ => rfl
  | n + 1, ra, ta, h, h' => by
    have h0 := h 0 (by omega)
    have h0' := h' 0 (by omega)
    have ih := compareUp_congr (s := s) (s' := s') n (ra + 1) (ta + 1)
      (fun k hk => by have := h (k + 1) (by omega); rwa [show ra + (k + 1) = ra + 1 + k by omega] at this)
      (fun k hk => by have := h' (k + 1) (by omega); rwa [show ta + (k + 1) = ta + 1 + k by omega] at this)
    simp only [State.compareUp, Nat.add_zero] at h0 h0' ⊢
    rw [h0, h0', ih]

theorem equalUp_congr {s s' : State} : ∀ n ra ta, (∀ k, k < n → s'.readByte (ra + k) = s.readByte (ra + k)) →
    (∀ k, k < n → s'.readByte (ta + k) = s.readByte (ta + k)) → s'.equalUp n ra ta = s.equalUp n ra ta
  | 0, _, _, _, _ => rfl
  | n + 1, ra, ta, h, h' => by
    have h0 := h 0 (by omega)
    have h0' := h' 0 (by omega)
    have ih := equalUp_congr (s := s) (s' := s') n (ra + 1) (ta + 1)
      (fun k hk => by have := h (k + 1) (by omega); rwa [show ra + (k + 1) = ra + 1 + k by omega] at this)
      (fun k hk => by have := h' (k + 1) (by omega); rwa [show ta + (k + 1) = ta + 1 + k by omega] at this)
    simp only [State.equalUp, Nat.add_zero] at h0 h0' ⊢
    rw [h0, h0', ih]

theorem equalDown_congr {s s' : State} : ∀ n ra ta, (∀ k, k < n → s'.readByte (ra - 1 - k) = s.readByte (ra - 1 - k)) →
    (∀ k, k < n → s'.readByte (ta - 1 - k) = s.readByte (ta - 1 - k)) → s'.equalDown n ra ta = s.equalDown n ra ta
  | 0, _, _, _, _ => rfl
  | n + 1, ra, ta, h, h' => by
    have h0 := h 0 (by omega)
    have h0' := h' 0 (by omega)
    have ih := equalDown_congr (s := s) (s' := s') n (ra - 1) (ta - 1)
      (fun k hk => by have := h (k + 1) (by omega); rwa [show ra - 1 - (k + 1) = ra - 1 - 1 - k by omega] at this)
      (fun k hk => by have := h' (k + 1) (by omega); rwa [show ta - 1 - (k + 1) = ta - 1 - 1 - k by omega] at this)
    simp only [State.equalDown, Nat.sub_zero] at h0 h0' ⊢
    rw [h0, h0', ih]

/-- Two states with the same window and the same index. -/
structure SameUnits (s s' : State) : Prop where
  rhW : s'.rhW = s.rhW
  base : s'.ixRefBase = s.ixRefBase
  len : s'.ixRefLen = s.ixRefLen
  next : s'.nextTab = s.nextTab

theorem scan_congr {s s' : State} (hu : SameUnits s s') (tp : Nat)
    (ht : ∀ k, k < s.rhW.toNat → s'.readByte (tp + k) = s.readByte (tp + k)) :
    ∀ n c, (∀ b ∈ s.probed tp n c, ∀ k, k < s.rhW.toNat →
        s'.readByte (s.blockAddr b.toNat + k) = s.readByte (s.blockAddr b.toNat + k)) →
      s'.scan tp n c = s.scan tp n c
  | 0, _, _ => rfl
  | n + 1, c, h => by
    by_cases hc : c = noneWord
    · simp [State.scan, hc]
    have hb : s'.blockAddr c.toNat = s.blockAddr c.toNat := by simp [State.blockAddr, hu.rhW, hu.base]
    have hmem : c ∈ s.probed tp (n + 1) c := by
      simp only [State.probed, hc, if_false]; split <;> simp
    have hv : s'.verify c.toNat tp = s.verify c.toNat tp := by
      unfold State.verify
      rw [hu.rhW, hb]
      exact compareUp_congr _ _ _ (h c hmem) ht
    have hn : s'.nextOf c.toNat = s.nextOf c.toNat := by simp [State.nextOf, hu.next]
    simp only [State.scan, hc, if_false, hv]
    cases hvv : s.verify c.toNat tp with
    | error e => rfl
    | ok x => cases x with
      | true => rfl
      | false =>
        simp only [hn]
        rw [scan_congr hu tp ht n (s.nextOf c.toNat)]
        intro b hb'
        apply h
        simp only [State.probed, hc, if_false, hvv]
        exact List.mem_cons_of_mem _ hb'

theorem candidate_congr {s s' : State} (hu : SameUnits s s') (c : Word) (t : Target)
    (hin : c.toNat * s.rhW.toNat + s.rhW.toNat ≤ s.ixRefLen.toNat) (htl : s.rhW.toNat ≤ t.tl) (htb : t.tb ≤ t.tp)
    (hr : ∀ k, k < s.ixRefLen.toNat → s'.readByte (s.ixRefBase.toNat + k) = s.readByte (s.ixRefBase.toNat + k))
    (ht : ∀ a, t.tb ≤ a → a < t.tp + t.tl → s'.readByte a = s.readByte a) :
    s'.candidate c t = s.candidate c t := by
  have hl : s'.extendLeft (c.toNat * s.rhW.toNat) t = s.extendLeft (c.toNat * s.rhW.toNat) t := by
    unfold State.extendLeft
    rw [hu.base]
    apply equalDown_congr
    · intro k hk
      have := hr (c.toNat * s.rhW.toNat - 1 - k) (by omega)
      rwa [show s.ixRefBase.toNat + (c.toNat * s.rhW.toNat - 1 - k) = s.ixRefBase.toNat + c.toNat * s.rhW.toNat - 1 - k by omega] at this
    · intro k hk
      exact ht _ (by omega) (by omega)
  have hR : s'.extendRight (c.toNat * s.rhW.toNat) t = s.extendRight (c.toNat * s.rhW.toNat) t := by
    unfold State.extendRight
    rw [hu.base, hu.len, hu.rhW]
    apply equalUp_congr
    · intro k hk
      have := hr (c.toNat * s.rhW.toNat + s.rhW.toNat + k) (by omega)
      rwa [show s.ixRefBase.toNat + (c.toNat * s.rhW.toNat + s.rhW.toNat + k) = s.ixRefBase.toNat + c.toNat * s.rhW.toNat + s.rhW.toNat + k by omega] at this
    · intro k hk
      exact ht _ (by omega) (by omega)
  simp only [State.candidate, hu.rhW, hl, hR]

theorem bestFrom_congr {s s' : State} (hu : SameUnits s s') (t : Target)
    (htl : s.rhW.toNat ≤ t.tl) (htb : t.tb ≤ t.tp)
    (hr : ∀ k, k < s.ixRefLen.toNat → s'.readByte (s.ixRefBase.toNat + k) = s.readByte (s.ixRefBase.toNat + k))
    (ht : ∀ a, t.tb ≤ a → a < t.tp + t.tl → s'.readByte a = s.readByte a) :
    ∀ n c best chain, s.Walk chain c → (∀ b ∈ chain, b * s.rhW.toNat + s.rhW.toNat ≤ s.ixRefLen.toNat) →
      s'.bestFrom t n c best = s.bestFrom t n c best
  | 0, _, _, _, _, _ => rfl
  | n + 1, c, best, chain, hw, hin => by
    have hs : s'.scan t.tp Config.maxProbes c = s.scan t.tp Config.maxProbes c := by
      apply scan_congr hu
      · intro k hk; exact ht _ (by omega) (by omega)
      · intro b hb k hk
        have := hin _ (probed_mem _ _ _ _ hw _ hb)
        unfold State.blockAddr
        have h2 := hr (b.toNat * s.rhW.toNat + k) (by omega)
        rwa [← Nat.add_assoc] at h2
    simp only [State.bestFrom, hs]
    cases hsc : s.scan t.tp Config.maxProbes c with
    | error e => rfl
    | ok r =>
      obtain ⟨x, p⟩ := r
      by_cases hx : x = noneWord
      · simp [hx]
      · obtain ⟨pre, post, e, w⟩ := scan_found _ _ _ _ _ _ hw hsc hx
        have hc := candidate_congr hu x t (hin _ (by simp [e])) htl htb hr ht
        simp only [hx, if_false, hc]
        cases s.candidate x t with
        | error e => rfl
        | ok m =>
          have hn : s'.nextOf x.toNat = s.nextOf x.toNat := by simp [State.nextOf, hu.next]
          simp only [hn]
          exact bestFrom_congr hu t htl htb hr ht n _ _ post w (fun b hb => hin b (by simp [e, hb]))

end Sys2Proof.Machine
end

