-- ==== Sys2Proof/Laws/Decode.lean ====
section
/-! SUPPORT. What the fields of a command word are as numbers, and the only error the decoder gives. -/

namespace Sys2Proof

/-- The must-be-zero field is clear exactly in the words below 256. -/
theorem mbzClear_iff (w : Word) : mbzClear w = true ↔ w.toNat < 256 := by
  have := w.isLt
  have e : mbzClear w = (w.extractLsb' 8 24 == 0#24) := rfl
  rw [e, beq_iff_eq, BitVec.toNat_eq]
  simp only [BitVec.extractLsb'_toNat, BitVec.toNat_ofNat, Nat.shiftRight_eq_div_pow, Nat.zero_mod]
  omega

theorem opField_toNat (w : Word) : (opField w).toNat = w.toNat % 256 := by
  simp only [opField, BitVec.extractLsb'_toNat, Nat.shiftRight_zero]

theorem opField_eq_setWidth (w : Word) : opField w = w.setWidth 8 := by
  apply BitVec.eq_of_toNat_eq
  rw [opField_toNat]
  simp

/-- A refused word is reported as it was written. -/
theorem decode_error {w : Word} {e : DecodeError} (h : decode w = .error e) : e = .illegalCommand w := by
  unfold decode at h
  split at h
  · split at h <;> simp_all
  · simp_all

end Sys2Proof
end

