-- ==== Sys2Proof/Laws/PerInstr.lean ====
section
/-! SUPPORT. One lemma per command for the statements made of every instruction. -/

/-- The command's word has its must-be-zero field clear, its opcode is in the table, and no other command has that opcode
(30_encoding.md R80 and R82). -/
def Sys2Proof.Laws.Encoding.Statement (i : Sys2Proof.Instr) : Prop :=
  i.wellFormed = true ∧ Sys2Proof.mbzClear (Sys2Proof.encode i) = true ∧
    ∀ j, Sys2Proof.decodeOp (Sys2Proof.opField (Sys2Proof.encode i)) = some j ↔ j = i

theorem Sys2Proof.Laws.Encoding.rhInit : Sys2Proof.Laws.Encoding.Statement .rhInit :=
  ⟨rfl, by decide, fun j => by cases j <;> decide⟩

theorem Sys2Proof.Laws.Encoding.rhHash : Sys2Proof.Laws.Encoding.Statement .rhHash :=
  ⟨rfl, by decide, fun j => by cases j <;> decide⟩

theorem Sys2Proof.Laws.Encoding.rhUpdate : Sys2Proof.Laws.Encoding.Statement .rhUpdate :=
  ⟨rfl, by decide, fun j => by cases j <;> decide⟩

theorem Sys2Proof.Laws.Encoding.ixInit : Sys2Proof.Laws.Encoding.Statement .ixInit :=
  ⟨rfl, by decide, fun j => by cases j <;> decide⟩

theorem Sys2Proof.Laws.Encoding.ixAdd : Sys2Proof.Laws.Encoding.Statement .ixAdd :=
  ⟨rfl, by decide, fun j => by cases j <;> decide⟩

theorem Sys2Proof.Laws.Encoding.ixFirst : Sys2Proof.Laws.Encoding.Statement .ixFirst :=
  ⟨rfl, by decide, fun j => by cases j <;> decide⟩

theorem Sys2Proof.Laws.Encoding.ixNext : Sys2Proof.Laws.Encoding.Statement .ixNext :=
  ⟨rfl, by decide, fun j => by cases j <;> decide⟩

theorem Sys2Proof.Laws.Encoding.ixBest : Sys2Proof.Laws.Encoding.Statement .ixBest :=
  ⟨rfl, by decide, fun j => by cases j <;> decide⟩
end

