-- ==== Sys2Proof/Laws/Step.lean ====
section
/-! SUPPORT. Whose turn a step takes, and what it then comes down to for each agent. -/

namespace Sys2Proof.Machine

theorem nextTurn_of_head {s : State} {t : Turn} (h : s.schedule.head? = some t) : s.nextTurn = t := by
  unfold State.nextTurn
  cases hs : s.schedule with
  | nil => simp [hs] at h
  | cons u us => simpa [hs] using h

theorem nextTurn_core {s : State} (hb : s.seq = .busy) (h : s.coreMoves) : s.nextTurn = .core := by
  rcases h with h | h
  · simp [State.nextTurn, h, hb]
  · exact nextTurn_of_head h

theorem nextTurn_host {s : State} (h : s.hostMoves) : s.nextTurn = .host := by
  rcases h with ⟨h, hi⟩ | h
  · simp [State.nextTurn, h, hi]
  · exact nextTurn_of_head h

/-- The core's turn with a command pending. -/
theorem step_core {s : State} (hb : s.seq = .busy) (h : s.coreMoves) : step s = s.popTurn.coreStep := by
  rw [step, nextTurn_core hb h]
  rfl

/-- A platform event or another agent's write. -/
theorem step_of_head {s : State} {t : Turn} (h : s.schedule.head? = some t) : step s = s.popTurn.takeTurn t := by
  rw [step, nextTurn_of_head h]

theorem program_of_hostDoes {s : State} {op : HostOp} (h : s.hostDoes op) : ∃ rest, s.popTurn.program = op :: rest := by
  cases hs : s.program with
  | nil => simp [State.hostDoes, hs] at h
  | cons o rest => exact ⟨rest, by simpa [State.hostDoes, hs] using h.2⟩

theorem accessOffset_ok {s : State} {off : Nat} (ho : off < 0x100) (ha : off % 4 = 0) :
    s.accessOffset (s.platform.regBase + off) 4 = .ok off := by
  simp [State.accessOffset, Config.regBlockBytes, ho, accessWellFormed, ha]

/-- A well-formed host write reaches its register. -/
theorem step_wr {s : State} {off : Nat} {v : Word} (h : s.hostDoes (.wr (s.platform.regBase + off) 4 v)) (ho : off < 0x100)
    (ha : off % 4 = 0) : step s = .next (s.afterHost.writeOffset off v) := by
  obtain ⟨rest, hp⟩ := program_of_hostDoes h
  rw [step, nextTurn_host h.1]
  have ha : s.popTurn.accessOffset (s.platform.regBase + off) 4 = .ok off := accessOffset_ok (s := s.popTurn) ho ha
  simp only [State.takeTurn, State.hostStep, hp, ha]
  rfl

/-- A well-formed host read gives the host the register's value. -/
theorem step_rd {s : State} {off : Nat} (h : s.hostDoes (.rd (s.platform.regBase + off) 4)) (ho : off < 0x100)
    (ha : off % 4 = 0) : step s = .next (s.afterHost.logRead off) := by
  obtain ⟨rest, hp⟩ := program_of_hostDoes h
  rw [step, nextTurn_host h.1]
  have ha : s.popTurn.accessOffset (s.platform.regBase + off) 4 = .ok off := accessOffset_ok (s := s.popTurn) ho ha
  simp only [State.takeTurn, State.hostStep, hp, ha]
  rfl

/-- A host store. -/
theorem step_store {s : State} {a : Word} {v : Byte} (h : s.hostDoes (.store a v)) : step s = s.afterHost.storeByte a v := by
  obtain ⟨rest, hp⟩ := program_of_hostDoes h
  rw [step, nextTurn_host h.1]
  simp only [State.takeTurn, State.hostStep, hp]
  rfl

/-- All a byte written by the host or another agent can lead to. -/
theorem storeByte_next {s t : State} {a : Word} {v : Byte} (h : s.storeByte a v = .next t) :
    (s.busy && s.inReadRange a.toNat) = false ∧ t = { s with mem := Memory.write s.mem a.toNat v } := by
  unfold State.storeByte at h
  split at h
  · cases h
  · rename_i hr
    refine ⟨by simpa using hr, ?_⟩
    split at h
    · cases h
    · cases h; rfl
    · cases h; rfl

theorem regOffset_of_regAt {off : Nat} {r : Reg} (h : regAt off = some r) : regOffset r = off := by
  simpa using List.find?_some h

/-- All a host step can lead to. -/
theorem hostStep_next {s t : State} (h : s.hostStep = .next t) :
    t = s ∨ (∃ off v, t = s.popProgram.writeOffset off v) ∨ (∃ off, t = s.popProgram.logRead off) ∨ (∃ off, t = s.logRead off) ∨
      ∃ a v, s.popProgram.storeByte a v = .next t := by
  unfold State.hostStep at h
  split at h
  · cases h; exact .inl rfl
  · split at h
    · cases h; exact .inr (.inl ⟨_, _, rfl⟩)
    · cases h
  · split at h
    · cases h; exact .inr (.inr (.inl ⟨_, rfl⟩))
    · cases h
  · cases h
    split
    · exact .inr (.inr (.inr (.inl ⟨_, rfl⟩)))
    · exact .inr (.inr (.inl ⟨_, rfl⟩))
  · exact .inr (.inr (.inr (.inr ⟨_, _, h⟩)))

/-- All the core's turn can lead to. -/
theorem coreStep_next {s t : State} (h : s.coreStep = .next t) :
    (s.seq = .idle ∧ t = s) ∨
      (s.seq = .busy ∧ ((∃ i, decode s.pend.cmdword = .ok i ∧ exec i s = .next t) ∨ t = s.raise .illegalCommand s.pend.cmdword)) := by
  unfold State.coreStep at h
  cases hs : s.seq with
  | idle =>
    have hb : s.busy = false := (State.busy_false_iff s).2 hs
    rw [hb] at h
    cases h
    exact .inl ⟨rfl, rfl⟩
  | busy =>
    have hb : s.busy = true := by simp [hs]
    rw [hb] at h
    refine .inr ⟨rfl, ?_⟩
    simp only [if_true] at h
    split at h
    · rename_i i hi
      split at h
      · exact .inl ⟨i, hi, h⟩
      · cases h
    · rename_i w hw
      obtain ⟨rfl⟩ := decode_error hw
      cases h
      exact .inr rfl

end Sys2Proof.Machine
end

