-- ==== Sys2Proof/Laws/ReadRange.lean ====
section
/-! SUPPORT. The read range of the pending command: what lies in it, where a device in it is found, and what it does not depend on. -/

namespace Sys2Proof

theorem Platform.mem_marks {p : Platform} {lo n a : Nat} : a ∈ p.marks lo n ↔
    (a = lo ∨ ∃ r ∈ p.dataMap, a = r.base ∨ a = r.base + r.size) ∧ lo ≤ a ∧ a < lo + n := by
  simp [Platform.marks, List.mem_filter]

/-- Away from every region's base and end the data map does not change. -/
theorem Platform.kindAt_succ {p : Platform} {a : Nat} (hlt : a + 1 < addrSpace)
    (h : ∀ r ∈ p.dataMap, a + 1 ≠ r.base ∧ a + 1 ≠ r.base + r.size) : p.kindAt (a + 1) = p.kindAt a := by
  have hf : ∀ l : List Region, (∀ r ∈ l, a + 1 ≠ r.base ∧ a + 1 ≠ r.base + r.size) →
      l.find? (·.holds (a + 1)) = l.find? (·.holds a) := by
    intro l hl
    induction l with
    | nil => rfl
    | cons r rest ih =>
      have hr := hl r (by simp)
      have : r.holds (a + 1) = r.holds a := by
        unfold Region.holds
        congr 1 <;> rw [decide_eq_decide] <;> omega
      simp only [List.find?_cons, this, ih fun x hx => hl x (by simp [hx])]
  simp only [Platform.kindAt, hlt, show a < addrSpace by omega, if_true, hf _ h]

/-- A device in a range shows at a mark of that range. -/
theorem Platform.device_at_mark {p : Platform} {lo n : Nat} : ∀ d, d < n → p.kindAt (lo + d) = some .device →
    ∃ m ∈ p.marks lo n, p.kindAt m = some .device
  | 0, hd, h => ⟨lo, Platform.mem_marks.2 ⟨.inl rfl, by omega, by omega⟩, h⟩
  | d + 1, hd, h => by
    by_cases hm : ∃ r ∈ p.dataMap, lo + (d + 1) = r.base ∨ lo + (d + 1) = r.base + r.size
    · exact ⟨lo + (d + 1), Platform.mem_marks.2 ⟨.inr hm, by omega, by omega⟩, h⟩
    · have hlt : lo + d + 1 < addrSpace := by
        by_contra hge
        rw [show lo + (d + 1) = lo + d + 1 by omega] at h
        simp [Platform.kindAt, hge] at h
      refine Platform.device_at_mark d (by omega) ?_
      rw [← h, show lo + (d + 1) = lo + d + 1 by omega]
      exact (Platform.kindAt_succ hlt fun r hr =>
        ⟨fun e => hm ⟨r, hr, .inl (by omega)⟩, fun e => hm ⟨r, hr, .inr (by omega)⟩⟩).symm

theorem Platform.deviceIn_some {p : Platform} {lo n a : Nat} (h : p.deviceIn lo n = some a) :
    lo ≤ a ∧ a < lo + n ∧ p.kindAt a = some .device := by
  have hm := Platform.mem_marks.1 (List.mem_of_find?_eq_some h)
  exact ⟨hm.2.1, hm.2.2, by simpa using List.find?_some h⟩

theorem Platform.deviceIn_none {p : Platform} {lo n a : Nat} (h : p.deviceIn lo n = none) (h1 : lo ≤ a) (h2 : a < lo + n) :
    p.kindAt a ≠ some .device := by
  intro hk
  obtain ⟨m, hm, hd⟩ := Platform.device_at_mark (p := p) (lo := lo) (n := n) (a - lo) (by omega)
    (by rwa [show lo + (a - lo) = a by omega])
  have := List.find?_eq_none.1 h m hm
  simp [hd] at this

end Sys2Proof

namespace Sys2Proof.Machine

theorem inReadRange_iff {s : State} {a : Nat} : s.inReadRange a = true ↔ ∃ r ∈ s.readRanges, r.1 ≤ a ∧ a < r.1 + r.2 := by
  simp [State.inReadRange]

/-- A device found stands in the read range. -/
theorem deviceInReadRange_some {s : State} {a : Nat} (h : s.deviceInReadRange = some a) :
    s.inReadRange a = true ∧ s.platform.kindAt a = some .device := by
  obtain ⟨r, hr, hd⟩ := List.exists_of_findSome?_eq_some h
  obtain ⟨h1, h2, h3⟩ := Platform.deviceIn_some hd
  exact ⟨inReadRange_iff.2 ⟨r, hr, h1, h2⟩, h3⟩

/-- Where no device is found, none stands in the read range. -/
theorem deviceInReadRange_none_iff {s : State} :
    s.deviceInReadRange = none ↔ ∀ a, s.inReadRange a = true → s.platform.kindAt a ≠ some .device := by
  constructor
  · intro h a ha
    obtain ⟨r, hr, h1, h2⟩ := inReadRange_iff.1 ha
    exact Platform.deviceIn_none (List.findSome?_eq_none_iff.1 h r hr) h1 h2
  · intro h
    cases hd : s.deviceInReadRange with
    | none => rfl
    | some a => exact absurd (deviceInReadRange_some hd).2 (h a (deviceInReadRange_some hd).1)

/-- The read range is the block's and the memory's: whose turn it is and what the host will do next do not matter. -/
theorem readRanges_agents (s : State) (turns : List Turn) (ops : List HostOp) :
    ({ s with schedule := turns, program := ops } : State).readRanges = s.readRanges := by
  have hv : ∀ b tp, ({ s with schedule := turns, program := ops } : State).verify b tp = s.verify b tp := by
    have hc : ∀ n ra ta, ({ s with schedule := turns, program := ops } : State).compareUp n ra ta = s.compareUp n ra ta := by
      intro n
      induction n with
      | zero => intros; rfl
      | succ n ih => intro ra ta; simp only [State.compareUp, ih]; rfl
    intro b tp
    exact hc _ _ _
  have hp : ∀ tp n c, ({ s with schedule := turns, program := ops } : State).probed tp n c = s.probed tp n c := by
    intro tp n
    induction n with
    | zero => intros; rfl
    | succ n ih => intro c; simp only [State.probed, hv, ih]; rfl
  have hl : ∀ tp c, ({ s with schedule := turns, program := ops } : State).lookupRanges tp c = s.lookupRanges tp c := by
    intro tp c
    simp only [State.lookupRanges, hp]
    rfl
  simp only [State.readRanges, hl]
  rfl

@[simp] theorem inReadRange_popTurn (s : State) (a : Nat) : s.popTurn.inReadRange a = s.inReadRange a := by
  unfold State.inReadRange State.popTurn
  rw [show ({ s with schedule := s.schedule.tail } : State).readRanges = s.readRanges from readRanges_agents s _ s.program]

@[simp] theorem inReadRange_afterHost (s : State) (a : Nat) : s.afterHost.inReadRange a = s.inReadRange a := by
  unfold State.inReadRange State.afterHost
  rw [readRanges_agents]

@[simp] theorem deviceInReadRange_popTurn (s : State) : s.popTurn.deviceInReadRange = s.deviceInReadRange := by
  unfold State.deviceInReadRange State.popTurn
  rw [show ({ s with schedule := s.schedule.tail } : State).readRanges = s.readRanges from readRanges_agents s _ s.program]

/-- All that a scan probes is compared: the first 16 blocks of the chain, none behind the first match. -/
theorem probed_compared {s : State} {tp : Nat} : ∀ n c chain, s.Walk chain c → ∀ b ∈ s.probed tp n c,
    b.toNat ∈ (chain.take n).take ((chain.take n).findIdx (s.blockMatches tp) + 1)
  | 0, _, _, _, _, hb => by simp [State.probed] at hb
  | n + 1, c, chain, hw, b, hb => by
    simp only [State.probed] at hb
    split at hb
    · simp at hb
    · rename_i hc
      cases chain with
      | nil => exact absurd hw hc
      | cons x rest =>
        obtain ⟨_, hx, hw'⟩ := hw
        simp only [List.take_succ_cons, List.findIdx_cons]
        split at hb
        · simp at hb; subst hb; simp [hx]
        · simp at hb; subst hb; simp [hx]
        · rename_i hv
          rcases List.mem_cons.1 hb with rfl | hb
          · simp [hx]
          · have hm : s.blockMatches tp x = false := by
              rw [hx] at hv
              exact compareUp_false _ _ _ hv
            rw [hx] at hb
            simp only [hm, cond_false]
            exact List.mem_cons_of_mem _ (probed_compared n _ rest hw' b hb)

end Sys2Proof.Machine
end

