-- ==== Sys2Proof/Laws/Reads.lean ====
section
/-! SUPPORT. The reads of a lookup in their order: a command goes on where they all succeed, and stops at the first that fails. -/

namespace Sys2Proof.Machine

/-! ### Lists of reads -/

@[simp] theorem allReadable_nil (p : Platform) : AllReadable p [] := fun _ h => absurd h (List.not_mem_nil)

theorem allReadable_cons {p : Platform} {a : Nat} {l : List Nat} :
    AllReadable p (a :: l) ↔ p.kindAt a = some .memory ∧ AllReadable p l := List.forall_mem_cons

theorem allReadable_append {p : Platform} {l l' : List Nat} :
    AllReadable p (l ++ l') ↔ AllReadable p l ∧ AllReadable p l' := List.forall_mem_append

theorem firstFailure_nil {p : Platform} {a : Nat} : ¬ FirstFailure p [] a := fun h => absurd h.1 (by simp)

/-- The first failure of a list is at its head, or its head is readable and the first failure is behind it. -/
theorem firstFailure_cons {p : Platform} {x a : Nat} {l : List Nat} (h : FirstFailure p (x :: l) a) :
    (x = a ∧ p.kindAt x = none) ∨ (p.kindAt x = some .memory ∧ FirstFailure p l a) := by
  obtain ⟨h1, h2⟩ := h
  by_cases hx : p.kindAt x = some .memory
  · exact .inr ⟨hx, by simpa [hx] using h1, h2⟩
  · have : x = a := by simpa [hx] using h1
    exact .inl ⟨this, this ▸ h2⟩

/-- The first failure of two lists is in the first, or the first is readable and it is in the second. -/
theorem firstFailure_append {p : Platform} {a : Nat} : ∀ {l l' : List Nat}, FirstFailure p (l ++ l') a →
    FirstFailure p l a ∨ (AllReadable p l ∧ FirstFailure p l' a)
  | [], _, h => .inr ⟨allReadable_nil p, h⟩
  | x :: l, l', h => by
    rcases firstFailure_cons h with ⟨rfl, hx⟩ | ⟨hx, h⟩
    · exact .inl ⟨by simp [hx], hx⟩
    · rcases firstFailure_append h with ⟨h1, h2⟩ | ⟨h1, h2⟩
      · exact .inl ⟨by simpa [hx] using h1, h2⟩
      · exact .inr ⟨allReadable_cons.2 ⟨hx, h1⟩, h2⟩

/-! ### Comparing pairs of bytes -/

@[simp] theorem pairReads_zero (s : State) (ra ta : Nat → Nat) : s.pairReads ra ta 0 = [] := by simp [State.pairReads]

/-- The reads of a comparison: the first pair, and the rest only if the pair is equal. -/
theorem pairReads_succ (s : State) (ra ta : Nat → Nat) (n : Nat) :
    s.pairReads ra ta (n + 1) =
      ra 0 :: ta 0 ::
        if Memory.read s.mem (ra 0) = Memory.read s.mem (ta 0) then s.pairReads (fun k => ra (k + 1)) (fun k => ta (k + 1)) n
        else [] := by
  unfold State.pairReads
  rw [List.range_succ_eq_map, List.findIdx_cons]
  by_cases h : Memory.read s.mem (ra 0) = Memory.read s.mem (ta 0)
  · simp only [h, bne_self_eq_false, cond_false, if_true]
    rw [List.findIdx_map, Nat.min_def, Nat.min_def]
    simp only [Nat.add_le_add_iff_right, Function.comp_def, Nat.succ_eq_add_one]
    split <;> simp [List.range_succ_eq_map, List.flatMap_cons, List.flatMap_map]
  · have : (Memory.read s.mem (ra 0) != Memory.read s.mem (ta 0)) = true := by simpa using h
    simp [this, h, List.range_succ_eq_map, List.flatMap_cons]

/-- A comparison stops at the first of its reads that fails. -/
theorem compareUp_fails {s : State} {a : Nat} : ∀ n ra ta,
    FirstFailure s.platform (s.pairReads (fun k => ra + k) (fun k => ta + k) n) a → s.compareUp n ra ta = .error (.fails a)
  | 0, _, _, h => absurd h (by simp)
  | n + 1, ra, ta, h => by
    rw [pairReads_succ] at h
    simp only [Nat.add_zero] at h
    simp only [State.compareUp]
    rcases firstFailure_cons h with ⟨rfl, hx⟩ | ⟨hx, h⟩
    · rw [State.readByte_of_none hx]
    · rw [State.readByte_of_memory hx]
      rcases firstFailure_cons h with ⟨rfl, hy⟩ | ⟨hy, h⟩
      · rw [State.readByte_of_none hy]
      · rw [State.readByte_of_memory hy]
        by_cases hxy : Memory.read s.mem ra = Memory.read s.mem ta
        · rw [if_pos hxy] at h
          simp only [if_pos hxy]
          apply compareUp_fails n
          simpa only [show ∀ k, ra + 1 + k = ra + (k + 1) by omega, show ∀ k, ta + 1 + k = ta + (k + 1) by omega] using h
        · rw [if_neg hxy] at h
          exact absurd h firstFailure_nil

/-- Over the bytes it reaches, if readable, the comparison answers, and says whether all pairs are equal. -/
theorem compareUp_reads {s : State} : ∀ n ra ta,
    AllReadable s.platform (s.pairReads (fun k => ra + k) (fun k => ta + k) n) →
    s.compareUp n ra ta = .ok ((List.range n).all fun k => Memory.read s.mem (ra + k) == Memory.read s.mem (ta + k))
  | 0, _, _, _ => rfl
  | n + 1, ra, ta, h => by
    rw [pairReads_succ] at h
    simp only [Nat.add_zero] at h
    obtain ⟨hx, h⟩ := allReadable_cons.1 h
    obtain ⟨hy, h⟩ := allReadable_cons.1 h
    simp only [State.compareUp]
    rw [State.readByte_of_memory hx, State.readByte_of_memory hy, List.range_succ_eq_map, List.all_cons, List.all_map]
    by_cases hxy : Memory.read s.mem ra = Memory.read s.mem ta
    · rw [if_pos hxy] at h
      have ih := compareUp_reads (s := s) n (ra + 1) (ta + 1) (by
        simpa only [show ∀ k, ra + 1 + k = ra + (k + 1) by omega, show ∀ k, ta + 1 + k = ta + (k + 1) by omega] using h)
      simp only [if_true, ih, Nat.add_zero, hxy, beq_self_eq_true, Bool.true_and, Function.comp_def, Nat.succ_eq_add_one,
        show ∀ k, ra + 1 + k = ra + (k + 1) by omega, show ∀ k, ta + 1 + k = ta + (k + 1) by omega]
    · simp [hxy]

theorem equalUp_fails {s : State} {a : Nat} : ∀ n ra ta,
    FirstFailure s.platform (s.pairReads (fun k => ra + k) (fun k => ta + k) n) a → s.equalUp n ra ta = .error (.fails a)
  | 0, _, _, h => absurd h (by simp)
  | n + 1, ra, ta, h => by
    rw [pairReads_succ] at h
    simp only [Nat.add_zero] at h
    simp only [State.equalUp]
    rcases firstFailure_cons h with ⟨rfl, hx⟩ | ⟨hx, h⟩
    · rw [State.readByte_of_none hx]
    · rw [State.readByte_of_memory hx]
      rcases firstFailure_cons h with ⟨rfl, hy⟩ | ⟨hy, h⟩
      · rw [State.readByte_of_none hy]
      · rw [State.readByte_of_memory hy]
        by_cases hxy : Memory.read s.mem ra = Memory.read s.mem ta
        · rw [if_pos hxy] at h
          have ih := equalUp_fails (s := s) (a := a) n (ra + 1) (ta + 1) (by
            simpa only [show ∀ k, ra + 1 + k = ra + (k + 1) by omega, show ∀ k, ta + 1 + k = ta + (k + 1) by omega] using h)
          simp only [if_pos hxy, ih]
        · rw [if_neg hxy] at h
          exact absurd h firstFailure_nil

/-- Upward extension over the bytes it reaches: as many equal bytes as the limit allows. -/
theorem equalUp_reads {s : State} : ∀ n ra ta, AllReadable s.platform (s.pairReads (fun k => ra + k) (fun k => ta + k) n) →
    ∃ e, s.equalUp n ra ta = .ok e ∧ e ≤ n ∧ (∀ j, j < e → Memory.read s.mem (ra + j) = Memory.read s.mem (ta + j)) ∧
      (e < n → Memory.read s.mem (ra + e) ≠ Memory.read s.mem (ta + e))
  | 0, _, _, _ => ⟨0, rfl, by omega, fun _ h => absurd h (by omega), fun h => absurd h (by omega)⟩
  | n + 1, ra, ta, h => by
    rw [pairReads_succ] at h
    simp only [Nat.add_zero] at h
    obtain ⟨hx, h⟩ := allReadable_cons.1 h
    obtain ⟨hy, h⟩ := allReadable_cons.1 h
    simp only [State.equalUp]
    rw [State.readByte_of_memory hx, State.readByte_of_memory hy]
    by_cases hxy : Memory.read s.mem ra = Memory.read s.mem ta
    · rw [if_pos hxy] at h
      obtain ⟨e, h1, h2, h3, h4⟩ := equalUp_reads (s := s) n (ra + 1) (ta + 1) (by
        simpa only [show ∀ k, ra + 1 + k = ra + (k + 1) by omega, show ∀ k, ta + 1 + k = ta + (k + 1) by omega] using h)
      simp only [if_pos hxy, h1]
      refine ⟨e + 1, rfl, by omega, ?_, ?_⟩
      · intro j hj
        cases j with
        | zero => exact hxy
        | succ j =>
          have := h3 j (by omega)
          rwa [show ra + 1 + j = ra + (j + 1) by omega, show ta + 1 + j = ta + (j + 1) by omega] at this
      · intro hj
        have := h4 (by omega)
        rwa [show ra + 1 + e = ra + (e + 1) by omega, show ta + 1 + e = ta + (e + 1) by omega] at this
    · simp only [if_neg hxy]
      exact ⟨0, rfl, by omega, fun _ h => absurd h (by omega), fun _ => hxy⟩

theorem equalDown_fails {s : State} {a : Nat} : ∀ n ra ta,
    FirstFailure s.platform (s.pairReads (fun k => ra - 1 - k) (fun k => ta - 1 - k) n) a →
    s.equalDown n ra ta = .error (.fails a)
  | 0, _, _, h => absurd h (by simp)
  | n + 1, ra, ta, h => by
    rw [pairReads_succ] at h
    simp only [Nat.sub_zero] at h
    simp only [State.equalDown]
    rcases firstFailure_cons h with ⟨rfl, hx⟩ | ⟨hx, h⟩
    · rw [State.readByte_of_none hx]
    · rw [State.readByte_of_memory hx]
      rcases firstFailure_cons h with ⟨rfl, hy⟩ | ⟨hy, h⟩
      · rw [State.readByte_of_none hy]
      · rw [State.readByte_of_memory hy]
        by_cases hxy : Memory.read s.mem (ra - 1) = Memory.read s.mem (ta - 1)
        · rw [if_pos hxy] at h
          have ih := equalDown_fails (s := s) (a := a) n (ra - 1) (ta - 1) (by
            simpa only [show ∀ k, ra - 1 - 1 - k = ra - 1 - (k + 1) by omega, show ∀ k, ta - 1 - 1 - k = ta - 1 - (k + 1) by omega]
              using h)
          simp only [if_pos hxy, ih]
        · rw [if_neg hxy] at h
          exact absurd h firstFailure_nil

/-- Downward extension over the bytes it reaches. -/
theorem equalDown_reads {s : State} : ∀ n ra ta,
    AllReadable s.platform (s.pairReads (fun k => ra - 1 - k) (fun k => ta - 1 - k) n) →
    ∃ e, s.equalDown n ra ta = .ok e ∧ e ≤ n ∧
      (∀ j, j < e → Memory.read s.mem (ra - 1 - j) = Memory.read s.mem (ta - 1 - j)) ∧
      (e < n → Memory.read s.mem (ra - 1 - e) ≠ Memory.read s.mem (ta - 1 - e))
  | 0, _, _, _ => ⟨0, rfl, by omega, fun _ h => absurd h (by omega), fun h => absurd h (by omega)⟩
  | n + 1, ra, ta, h => by
    rw [pairReads_succ] at h
    simp only [Nat.sub_zero] at h
    obtain ⟨hx, h⟩ := allReadable_cons.1 h
    obtain ⟨hy, h⟩ := allReadable_cons.1 h
    simp only [State.equalDown]
    rw [State.readByte_of_memory hx, State.readByte_of_memory hy]
    by_cases hxy : Memory.read s.mem (ra - 1) = Memory.read s.mem (ta - 1)
    · rw [if_pos hxy] at h
      obtain ⟨e, h1, h2, h3, h4⟩ := equalDown_reads (s := s) n (ra - 1) (ta - 1) (by
        simpa only [show ∀ k, ra - 1 - 1 - k = ra - 1 - (k + 1) by omega, show ∀ k, ta - 1 - 1 - k = ta - 1 - (k + 1) by omega]
          using h)
      simp only [if_pos hxy, h1]
      refine ⟨e + 1, rfl, by omega, ?_, ?_⟩
      · intro j hj
        cases j with
        | zero => exact hxy
        | succ j =>
          have := h3 j (by omega)
          rwa [show ra - 1 - 1 - j = ra - 1 - (j + 1) by omega, show ta - 1 - 1 - j = ta - 1 - (j + 1) by omega] at this
      · intro hj
        have := h4 (by omega)
        rwa [show ra - 1 - 1 - e = ra - 1 - (e + 1) by omega, show ta - 1 - 1 - e = ta - 1 - (e + 1) by omega] at this
    · simp only [if_neg hxy]
      exact ⟨0, rfl, by omega, fun _ h => absurd h (by omega), fun _ => hxy⟩

/-! ### Verifying, scanning and extending -/

theorem verify_reads {s : State} {tp b : Nat} (h : AllReadable s.platform (s.verifyReads tp b)) :
    s.verify b tp = .ok (s.blockMatches tp b) := compareUp_reads _ _ _ h

theorem verify_fails {s : State} {tp b a : Nat} (h : FirstFailure s.platform (s.verifyReads tp b) a) :
    s.verify b tp = .error (.fails a) := compareUp_fails _ _ _ h

/-- A scan of the blocks that stand at the start of a chain stops at the first of its reads that fails. -/
theorem scan_fails {s : State} {tp a : Nat} : ∀ n blocks c, s.Follows blocks c →
    FirstFailure s.platform (((blocks.take n).take ((blocks.take n).findIdx (s.blockMatches tp) + 1)).flatMap (s.verifyReads tp)) a →
    s.scan tp n c = .error (.fails a)
  | 0, _, _, _, h => absurd h (by simp)
  | _ + 1, [], _, _, h => absurd h (by simp)
  | n + 1, b :: rest, c, ⟨hc, hb, hf⟩, h => by
    simp only [List.take_succ_cons, List.findIdx_cons, List.flatMap_cons] at h
    simp only [State.scan, hc, if_false, hb]
    rcases firstFailure_append h with h | ⟨hr, h⟩
    · rw [verify_fails h]
    · rw [verify_reads hr]
      cases hm : s.blockMatches tp b with
      | true => simp only [hm, cond_true, List.take_zero, List.flatMap_nil] at h; exact absurd h firstFailure_nil
      | false =>
        simp only [hm, cond_false] at h
        simp only [scan_fails n rest _ hf h]

/-- A scan over readable reads finds the first match among the blocks that stand at the start of a chain, if there is one. -/
theorem scan_finds {s : State} {tp b : Nat} : ∀ n blocks c, s.Follows blocks c →
    AllReadable s.platform
      (((blocks.take n).take ((blocks.take n).findIdx (s.blockMatches tp) + 1)).flatMap (s.verifyReads tp)) →
    (blocks.take n).find? (s.blockMatches tp) = some b →
    ∃ x p, s.scan tp n c = .ok (x, p) ∧ x.toNat = b ∧ x ≠ noneWord ∧
      s.Follows ((blocks.dropWhile (· != b)).drop 1) (s.nextOf b)
  | 0, _, _, _, _, h => by simp at h
  | _ + 1, [], _, _, _, h => by simp at h
  | n + 1, x :: rest, c, ⟨hc, hx, hf⟩, hr, h => by
    simp only [List.take_succ_cons, List.findIdx_cons, List.flatMap_cons, List.find?_cons] at hr h
    obtain ⟨hr, hr'⟩ := allReadable_append.1 hr
    simp only [State.scan, hc, if_false, hx, verify_reads hr]
    cases hm : s.blockMatches tp x with
    | true =>
      simp only [hm, Option.some.injEq] at h
      subst h
      exact ⟨c, 1, rfl, hx, hc, by simpa using hf⟩
    | false =>
      simp only [hm, cond_false] at hr' h
      have hne : (x != b) = true := by
        rw [bne_iff_ne]
        rintro rfl
        have := List.find?_some h
        rw [hm] at this
        cases this
      obtain ⟨y, p, h1, h2, h3, h4⟩ := scan_finds n rest _ hf hr' h
      exact ⟨y, p + 1, by simp only [h1], h2, h3, by simpa [List.dropWhile_cons, hne] using h4⟩

/-- A candidate is extended left and then right, and stops at the first of these reads that fails. -/
theorem candidate_fails {s : State} {c : Word} {t : Target} {a : Nat}
    (h : FirstFailure s.platform
      (s.leftReads (c.toNat * s.rhW.toNat) t.tp t.tb ++ s.rightReads (c.toNat * s.rhW.toNat) t.tp t.tl) a) :
    s.candidate c t = .error (.fails a) := by
  rcases firstFailure_append h with h | ⟨hl, h⟩
  · have hd : s.extendLeft (c.toNat * s.rhW.toNat) t = .error (.fails a) := equalDown_fails _ _ _ h
    simp only [State.candidate, hd]
  · obtain ⟨e, hd, _⟩ := equalDown_reads _ _ _ hl
    have hu : s.extendRight (c.toNat * s.rhW.toNat) t = .error (.fails a) := equalUp_fails _ _ _ h
    have hd : s.extendLeft (c.toNat * s.rhW.toNat) t = .ok e := hd
    simp only [State.candidate, hd, hu]

/-- A candidate whose extensions read readable bytes only. -/
theorem candidate_reads {s : State} {c : Word} {t : Target}
    (hl : AllReadable s.platform (s.leftReads (c.toNat * s.rhW.toNat) t.tp t.tb))
    (hr : AllReadable s.platform (s.rightReads (c.toNat * s.rhW.toNat) t.tp t.tl)) :
    ∃ le re, s.IsLeftExt (c.toNat * s.rhW.toNat) t.tp t.tb le ∧ s.IsRightExt (c.toNat * s.rhW.toNat) t.tp t.tl re ∧
      s.candidate c t = .ok ⟨c, c.toNat * s.rhW.toNat - le, (t.tp - t.tb) - le, s.rhW.toNat + le + re⟩ := by
  obtain ⟨le, l1, l2, l3, l4⟩ := equalDown_reads _ _ _ hl
  obtain ⟨re, r1, r2, r3, r4⟩ := equalUp_reads _ _ _ hr
  refine ⟨le, re, ⟨l2, l3, l4⟩, ⟨r2, r3, r4⟩, ?_⟩
  have l1 : s.extendLeft (c.toNat * s.rhW.toNat) t = .ok le := l1
  have r1 : s.extendRight (c.toNat * s.rhW.toNat) t = .ok re := r1
  simp only [State.candidate, l1, r1]

/-- The selector stops at the first of its reads that fails. -/
theorem bestFrom_fails {s : State} {t : Target} {a : Nat} : ∀ cap blocks c best, s.Follows blocks c →
    FirstFailure s.platform (s.bestReads t.tp t.tb t.tl cap blocks) a → s.bestFrom t cap c best = .error (.fails a)
  | 0, _, _, _, _, h => absurd h firstFailure_nil
  | cap + 1, blocks, c, best, hf, h => by
    simp only [State.bestReads] at h
    simp only [State.bestFrom]
    rcases firstFailure_append h with h | ⟨hr, h⟩
    · simp only [scan_fails (s := s) Config.maxProbes blocks c hf h]
    · split at h
      · exact absurd h firstFailure_nil
      · rename_i b hb
        obtain ⟨x, p, h1, h2, h3, h4⟩ := scan_finds (s := s) Config.maxProbes blocks c hf hr hb
        subst h2
        simp only [h1, h3, if_false]
        rcases firstFailure_append h with h | ⟨he, h⟩
        · rw [candidate_fails h]
        · obtain ⟨hl, hr⟩ := allReadable_append.1 he
          obtain ⟨le, re, _, _, hc⟩ := candidate_reads hl hr
          rw [hc]
          exact bestFrom_fails cap _ _ _ h4 h

/-- A whole chain is a start of itself. -/
theorem follows_of_walk {s : State} : ∀ {chain : List Nat} {c}, s.Walk chain c → s.Follows chain c
  | [], _, _ => trivial
  | _ :: _, _, ⟨h1, h2, h3⟩ => ⟨h1, h2, follows_of_walk h3⟩

end Sys2Proof.Machine
end

