-- ==== Sys2Proof/Laws/RollingHash.lean ====
section
/-! SUPPORT. The rolling-hash functions in closed form, and the window read. -/

namespace Sys2Proof.Machine

/-- Squaring computes the power. -/
theorem powMod_eq (b m : Nat) (hm : 0 < m) : ∀ bits e, e < 2 ^ bits → powMod b m bits e = b ^ e % m
  | 0, e, h => by
    have : e = 0 := by omega
    subst this; simp [powMod]
  | bits+1, e, h => by
    have h2 : e / 2 < 2 ^ bits := by rw [pow_succ] at h; omega
    simp only [powMod, powMod_eq b m hm bits (e/2) h2]
    split
    · rename_i ho
      have : e = (e/2) + (e/2) + 1 := by omega
      conv_rhs => rw [this, pow_add, pow_add, pow_one]
      simp [Nat.mul_mod]
    · rename_i ho
      have : e = (e/2) + (e/2) := by omega
      conv_rhs => rw [this, pow_add]
      simp [Nat.mul_mod]

/-- The multiplier in closed form (40_rolling_hash.md R103). -/
theorem multW_eq (w : Nat) (h : w ≤ 2 ^ 32) : multW w = 257 ^ (w - 1) % 2 ^ 23 := by
  unfold multW
  rw [powMod_eq _ _ (by decide) _ _ (by omega)]; rfl

/-- A removal-table entry as a natural number (40_rolling_hash.md R103). -/
theorem remOf_eq (m v : Nat) : remOf m v = remClosed m v := by
  unfold remOf remClosed Config.hashMod
  have : ((v:Int) * m) = ((v*m : Nat) : Int) := by push_cast; rfl
  rw [this]
  generalize v*m = x
  omega

theorem remOf_lt (m v : Nat) : remOf m v < 2^23 := by
  rw [remOf_eq]; unfold remClosed; omega

theorem removalTable_get (m : Nat) (v : Byte) : ((removalTable m)[v.toFin]).toNat = remClosed m v.toNat := by
  simp only [removalTable, Fin.getElem_fin, Vector.getElem_ofFn, BitVec.toNat_ofNat]
  rw [Nat.mod_eq_of_lt (remOf_lt _ _), remOf_eq]; rfl

/-- The steps folded over a list add its bytes with rising powers. -/
theorem foldl_hashStep (l : List Nat) : ∀ h,
    l.foldl (fun h b => hashStep h b) h % 2^23 =
      (h * 257^l.length + ((List.range l.length).map fun k => l.getD k 0 * 257 ^ (l.length - 1 - k)).sum) % 2^23 := by
  induction l with
  | nil => simp
  | cons x l ih =>
    intro h
    rw [List.foldl_cons, ih]
    simp only [hashStep, Config.hashMult, Config.hashMod, List.length_cons, List.range_succ_eq_map, List.map_cons, List.sum_cons, List.getD_cons_zero, List.map_map]
    have e : (fun k => (x :: l).getD k 0 * 257 ^ (l.length + 1 - 1 - k)) ∘ Nat.succ = fun k => l.getD k 0 * 257 ^ (l.length - 1 - k) := by
      funext k
      simp only [Function.comp, List.getD_cons_succ]
      congr 2
      omega
    rw [e]
    have : l.length + 1 - 1 - 0 = l.length := by omega
    rw [this]
    generalize (List.map (fun k => l.getD k 0 * 257 ^ (l.length - 1 - k)) (List.range l.length)).sum = S
    have h8 : (8388608:ℕ) = 2^23 := by norm_num
    rw [h8]
    have : (h * 257 + x) % 2^23 * 257 ^ l.length + S ≡ (h*257+x) * 257 ^ l.length + S [MOD 2^23] :=
      Nat.ModEq.add_right _ (Nat.ModEq.mul_right _ (Nat.mod_modEq _ _))
    refine Eq.trans this ?_
    congr 1
    ring

theorem hashWindow_lt (l : List Byte) (h : 3 ≤ l.length) : hashWindow l < 2^23 := by
  match l, h with
  | x :: y :: z :: rest, _ =>
    simp only [hashWindow]
    rw [← List.reverse_reverse (z::rest), List.foldl_reverse]
    have : (z::rest).reverse ≠ [] := by simp
    cases hr : (z::rest).reverse with
    | nil => exact absurd hr this
    | cons a b =>
      simp only [List.foldr_cons, hashStep, Config.hashMod]
      omega

/-- A window of at least three bytes hashes to its polynomial (40_rolling_hash.md R102). -/
theorem hashWindow_eq (l : List Byte) (h : 3 ≤ l.length) :
    hashWindow l = ((List.range l.length).map fun k => (l.getD k 0).toNat * 257 ^ (l.length - 1 - k)).sum % 2^23 := by
  rw [← Nat.mod_eq_of_lt (hashWindow_lt l h)]
  match l, h with
  | x :: y :: rest, h2 =>
    simp only [hashWindow]
    have := foldl_hashStep (rest.map BitVec.toNat) (first2 x.toNat y.toNat)
    rw [List.foldl_map] at this
    rw [this]
    simp only [List.length_map, List.length_cons, List.range_succ_eq_map, List.map_cons, List.map_map, List.sum_cons, first2, Config.hashMult]
    congr 1
    simp only [List.getD_cons_zero, Function.comp_def, List.getD_cons_succ]
    have e1 : rest.length + 1 + 1 - 1 - 0 = rest.length + 1 := by omega
    have e2 : rest.length + 1 + 1 - 1 - Nat.succ 0 = rest.length := by omega
    rw [e1, e2]
    have e3 : (List.map (fun k => (List.map BitVec.toNat rest).getD k 0 * 257 ^ (rest.length - 1 - k)) (List.range rest.length)) = (List.map (fun x => (rest.getD x 0).toNat * 257 ^ (rest.length + 1 + 1 - 1 - x.succ.succ)) (List.range rest.length)) := by
      apply List.map_congr_left
      intro k hk
      have hk : k < rest.length := by simpa using hk
      simp only [List.getD_eq_getElem?_getD, List.getElem?_map, List.getElem?_eq_getElem hk, Option.map_some, Option.getD_some]
      congr 2
      omega
    rw [e3]
    ring

/-- Readable bytes are read as memory holds them. -/
theorem readBytes_ok (s : State) : ∀ n a, Readable s.platform a n →
    s.readBytes n a = .ok ((List.range n).map fun k => Memory.read s.mem (a + k))
  | 0, a, _ => rfl
  | n+1, a, h => by
    have h0 : s.platform.kindAt a = some .memory := h 0 (by omega)
    have ih := readBytes_ok s n (a+1) (fun k hk => by have := h (k+1) (by omega); rwa [show a + (k+1) = a + 1 + k by omega] at this)
    simp only [State.readBytes, State.readByte_of_memory h0, ih, List.range_succ_eq_map, List.map_cons, List.map_map]
    congr 2
    apply List.map_congr_left; intro k _; simp only [Function.comp]; congr 1; omega

/-- The first byte whose read fails is the one reported. -/
theorem readBytes_fail (s : State) : ∀ n a k, k < n → Readable s.platform a k → s.platform.kindAt (a+k) = none →
    s.readBytes n a = .error (.fails (a+k))
  | 0, a, k, h, _, _ => by omega
  | n+1, a, 0, _, _, hk => by simp [State.readBytes, State.readByte_of_none (show s.platform.kindAt a = none from hk)]
  | n+1, a, k+1, h, hr, hk => by
    have h0 : s.platform.kindAt a = some .memory := hr 0 (by omega)
    have ih := readBytes_fail s n (a+1) k (by omega) (fun j hj => by have := hr (j+1) (by omega); rwa [show a + (j+1) = a + 1 + j by omega] at this) (by rwa [show a + (k+1) = a + 1 + k by omega] at hk)
    simp only [State.readBytes, State.readByte_of_memory h0, ih]
    rw [show a + (k+1) = a + 1 + k by omega]

/-- The hash of the bytes read is the closed form over memory. -/
theorem hashWindow_polyHash (s : State) (p w : Nat) (hw : 3 ≤ w) :
    hashWindow ((List.range w).map fun k => Memory.read s.mem (p + k)) = s.polyHash p w := by
  rw [hashWindow_eq _ (by simpa using hw)]
  unfold State.polyHash State.byteVal
  congr 2
  simp only [List.length_map, List.length_range]
  apply List.map_congr_left
  intro k hk
  have hk : k < w := by simpa using hk
  simp [List.getD_eq_getElem?_getD, hk]

end Sys2Proof.Machine
end

