-- ==== Sys2Proof/Tests/Slice0.lean ====
section
/-! SUPPORT. The model's own tests: what the well-formedness checks refuse, command words written out from the spec, single steps with
expected values from the spec's rules and vectors, and a witness for the hypotheses of every obligation that has some. -/

namespace Sys2Proof.Tests

open Sys2Proof.Machine

set_option Elab.async false

/-- A step ended in this refusal. -/
def refusedWith (o : Host.Outcome State Fault Refusal) (r : Refusal) : Bool :=
  match o with
  | .next _ => false
  | .fault _ => false
  | .refused r' => r == r'

/-- A step ended in a next state of which `f` is true. -/
def nextWith (o : Host.Outcome State Fault Refusal) (f : State → Bool) : Bool :=
  match o with
  | .next t => f t
  | .fault _ => false
  | .refused _ => false

theorem exists_of_nextWith {o : Host.Outcome State Fault Refusal} {f : State → Bool} (h : nextWith o f = true) :
    ∃ t, o = .next t ∧ f t = true := by
  cases o with
  | next t => exact ⟨t, rfl, h⟩
  | fault _ => cases h
  | refused _ => cases h

/-! ### Well-formedness: each check refuses an ill-formed term -/

theorem test_mbz_refused : mbzClear 0x00000101 = false := by decide
theorem test_narrow_access_refused : accessWellFormed 0x10 2 = false := by decide
theorem test_unaligned_access_refused : accessWellFormed 0x12 4 = false := by decide
theorem test_unaligned_host_write_refused : HostOp.wellFormed 0x1000 (.wr 0x1002 4 0) = false := by decide
theorem test_narrow_host_read_refused : HostOp.wellFormed 0x1000 (.rd 0x1004 1) = false := by decide
theorem test_no_power_of_two : isPowerOfTwo 3 = false := by decide
theorem test_platform_without_blocks_refused : Platform.wellFormed ⟨0, 0, 8, []⟩ = false := by decide
theorem test_platform_with_odd_table_refused : Platform.wellFormed ⟨0, 1, 3, []⟩ = false := by decide
theorem test_default_platform_wellFormed : Platform.default.wellFormed = true := by decide
theorem test_every_command_wellFormed : ∀ i : Instr, i.wellFormed = true := by intro i; cases i <;> decide

/-! ### Decoding: words written out bit by bit from 30_encoding.md R80 and R82 -/

theorem test_decode_rhInit : decode 0b0000_0000_0000_0000_0000_0000_0000_0001 = .ok .rhInit := by decide
theorem test_decode_rhHash : decode 0b0000_0000_0000_0000_0000_0000_0000_0010 = .ok .rhHash := by decide
theorem test_decode_rhUpdate : decode 0b0000_0000_0000_0000_0000_0000_0000_0011 = .ok .rhUpdate := by decide
theorem test_decode_ixInit : decode 0b0000_0000_0000_0000_0000_0000_0001_0000 = .ok .ixInit := by decide
theorem test_decode_ixAdd : decode 0b0000_0000_0000_0000_0000_0000_0001_0001 = .ok .ixAdd := by decide
theorem test_decode_ixFirst : decode 0b0000_0000_0000_0000_0000_0000_0001_0010 = .ok .ixFirst := by decide
theorem test_decode_ixNext : decode 0b0000_0000_0000_0000_0000_0000_0001_0011 = .ok .ixNext := by decide
theorem test_decode_ixBest : decode 0b0000_0000_0000_0000_0000_0000_0001_0100 = .ok .ixBest := by decide
theorem test_zero_word_illegal : decode 0 = .error (.illegalCommand 0) := by decide
theorem test_dirty_high_bits_illegal : decode 0x80000012 = .error (.illegalCommand 0x80000012) := by decide
theorem test_table_word : decodeTableWord 32 0x13 = some .ixNext := by decide

/-! ### Small states -/

/-- The latch of a command with its operands. -/
def latch (op : Word) (a0 a1 a2 a3 : Word) : Latch := ⟨op.setWidth 8, op, a0, a1, a2, a3, 32⟩

/-- The state after reset, a command latched. -/
def pending (op : Word) (a0 a1 a2 a3 : Word) : State :=
  { State.reset with seq := .busy, lastOp := op.setWidth 8, pend := latch op a0 a1 a2 a3 }

/-- Bytes laid out from an address on, none of them zero. -/
def bytesAt (a : Nat) (bs : List Byte) : List Host.Cell := bs.zipIdx.map fun e => (a + e.2, e.1)

/-- A window configured as by `RH_INIT 4`; the tests that read the removal table give it. -/
def window4 (s : State) : State := { s with rhValid := true, rhW := 4, rhMult := 0x30301 }

/-- The index of 41_block_index.md R127's example, its first three blocks filed. -/
def example127 (op a0 a1 : Word) : State :=
  { window4 (pending op a0 a1 0 0) with
    ixValid := true, ixRefBase := 0x2000, ixRefLen := 16, ixNblk := 4, ixTblsiz := 8, ixLastblk := 2
    headTab := [(2, 0)], nextTab := [(0, 1), (1, 2)], lastTab := [(0, 2)]
    mem := bytesAt 0x2000 [0x61, 0x62, 0x63, 0x64, 0x58, 0x59, 0x5A, 0x57, 0x61, 0x62, 0x63, 0x64, 0x51, 0x52, 0x53, 0x54] }

/-! ### Single commands, the expected values from the examples of the command's rule -/

/-- 40_rolling_hash.md R110, example. -/
theorem test_rhInit_4 :
    nextWith (exec .rhInit (pending 1 4 0 0 0))
      (fun t => t.res0 == 0x00030301 && t.rhW == 4 && t.rhValid && t.removal 0x61 == 0x5BDC9F) = true := by
  decide +kernel

/-- 40_rolling_hash.md R110, corner case. -/
theorem test_rhInit_2_fails :
    nextWith (exec .rhInit (pending 1 2 0 0 0))
      (fun t => t.lastErr == 1 && t.errInfo == 2 && t.err && !t.rhValid) = true := by
  decide +kernel

/-- 40_rolling_hash.md R111, example. -/
theorem test_rhHash_abcd :
    nextWith (exec .rhHash { window4 (pending 2 0x100 0 0 0) with mem := bytesAt 0x100 [0x61, 0x62, 0x63, 0x64] })
      (fun t => t.res0 == 0x00074B8A) = true := by
  decide +kernel

/-- 40_rolling_hash.md R111: a window that would pass the top of the data space. -/
theorem test_rhHash_past_the_top :
    nextWith (exec .rhHash (window4 (pending 2 0xFFFFFFFD 0 0 0))) (fun t => t.lastErr == 8 && t.errInfo == 0) = true := by
  decide +kernel

/-- 40_rolling_hash.md R112, example. -/
theorem test_rhUpdate_to_bcde :
    nextWith (exec .rhUpdate { window4 (pending 3 0x74B8A 0x61 0x65 0) with remtab := removalTable 0x30301 })
      (fun t => t.res0 == 0x000B518E) = true := by
  decide +kernel

/-- 40_rolling_hash.md R112, corner case. -/
theorem test_rhUpdate_all_ones :
    nextWith (exec .rhUpdate { window4 (pending 3 0xFFFFFFFF 0xFF 0xFF 0) with remtab := removalTable 0x30301 })
      (fun t => t.res0 == 0x000202FF) = true := by
  decide +kernel

/-- 41_block_index.md R125, example. -/
theorem test_ixInit_16 :
    nextWith (exec .ixInit (window4 (pending 0x10 0x2000 16 0 0)))
      (fun t => t.res0 == 4 && t.res1 == 8 && t.ixLastblk == 0xFFFFFFFF && t.ixValid) = true := by
  decide +kernel

/-- 41_block_index.md R122: an empty reference. -/
theorem test_ixInit_empty :
    nextWith (exec .ixInit (window4 (pending 0x10 0x2000 0 0 0))) (fun t => t.lastErr == 5 && !t.ixValid) = true := by
  decide +kernel

/-- 41_block_index.md R127, example: the fourth block behind the third. -/
theorem test_ixAdd_fourth_block :
    nextWith (exec .ixAdd (example127 0x11 12 0x46EB4A))
      (fun t => t.res0 == 1 && t.res1 == 3 && t.nextOf 2 == 3 && t.lastOf 0 == 3 && t.lastOf 3 == 0xFFFFFFFF &&
        t.ixLastblk == 3) = true := by
  decide +kernel

/-- 41_block_index.md R127: an index that is no next block's start. -/
theorem test_ixAdd_no_op :
    nextWith (exec .ixAdd (example127 0x11 5 0)) (fun t => t.res0 == 0 && t.res1 == 0xFFFFFFFF && t.lastErr == 0) = true := by
  decide +kernel

/-- 42_match_verify.md R145, example. -/
theorem test_ixFirst :
    nextWith (exec .ixFirst (example127 0x12 0x74B8A 0x2000)) (fun t => t.res0 == 0 && t.res1 == 1) = true := by
  decide +kernel

/-- 42_match_verify.md R145: an empty bucket. -/
theorem test_ixFirst_empty_bucket :
    nextWith (exec .ixFirst (example127 0x12 1 0x2000)) (fun t => t.res0 == 0xFFFFFFFF && t.res1 == 0) = true := by
  decide +kernel

/-- 42_match_verify.md R146, example: past block 1 to block 2. -/
theorem test_ixNext :
    nextWith (exec .ixNext (example127 0x13 0 0x2000)) (fun t => t.res0 == 2 && t.res1 == 2) = true := by
  decide +kernel

/-- 42_match_verify.md R146: a block number out of range. -/
theorem test_ixNext_out_of_range :
    nextWith (exec .ixNext (example127 0x13 4 0x2000)) (fun t => t.lastErr == 2 && t.errInfo == 4 && !t.ixValid) = true := by
  decide +kernel

/-- The index of 43_best_match.md R166's example: "abcdefgXabcdefgh" at 0x3000, the target "abcdefgh" at 0x4000. -/
def example166 (cap : Word) : State :=
  { window4 { pending 0x14 0x74B8A 0x4000 0x4000 8 with pend := { latch 0x14 0x74B8A 0x4000 0x4000 8 with maxcand := cap } } with
    ixValid := true, ixRefBase := 0x3000, ixRefLen := 16, ixNblk := 4, ixTblsiz := 8, ixLastblk := 3
    headTab := [(2, 0)], nextTab := [(0, 2)], lastTab := [(0, 2)]
    mem := bytesAt 0x3000 [0x61, 0x62, 0x63, 0x64, 0x65, 0x66, 0x67, 0x58, 0x61, 0x62, 0x63, 0x64, 0x65, 0x66, 0x67, 0x68] ++
      bytesAt 0x4000 [0x61, 0x62, 0x63, 0x64, 0x65, 0x66, 0x67, 0x68] }

/-- 43_best_match.md R166, example. -/
theorem test_ixBest :
    nextWith (exec .ixBest (example166 32)) (fun t => t.res0 == 2 && t.res1 == 8 && t.res2 == 0 && t.res3 == 8) = true := by
  decide +kernel

/-- 43_best_match.md R166: with a cap of 1 only block 0 is considered, which totals 7. -/
theorem test_ixBest_cap_one :
    nextWith (exec .ixBest (example166 1)) (fun t => t.res0 == 0 && t.res1 == 0 && t.res3 == 7) = true := by
  decide +kernel

/-! ### Single steps of the agents -/

/-- The state after reset, its host about to make one access. -/
def hostAt (op : HostOp) : State := { State.reset with program := [op] }

/-- The same with a command pending and the host's turn next. -/
def hostWhileBusy (op : HostOp) : State := { pending 2 0 0 0 0 with program := [op], schedule := [.host] }

/-- 44_control.md R180. -/
theorem test_issue : nextWith (step (hostAt (.wr 0 4 0x10))) (fun t => t.statusWord == 0x00100001) = true := by decide +kernel

/-- 44_control.md R184. -/
theorem test_illegal_word :
    nextWith (step (State.reset.withFetchWord 32 0x112))
      (fun t => t.errInfo == 0x112 && t.statusWord == 0x00120706) = true := by
  decide +kernel

/-- 44_control.md R182. -/
theorem test_overrun :
    nextWith (step (hostWhileBusy (.wr 0x10 4 5))) (fun t => t.arg0 == 0 && t.ovr && t.busy) = true := by decide +kernel

/-- 44_control.md R185. -/
theorem test_soft_reset_while_busy :
    nextWith (step (hostWhileBusy (.wr 8 4 1))) (fun t => !t.busy && t.statusWord == 0 && t.maxCand == 32) = true := by
  decide +kernel

/-- 20_memory.md R64. -/
theorem test_narrow_write_refused : step (hostAt (.wr 0x10 2 5)) = .refused .registerAccessForm := rfl

/-- The first command after reset runs as its word says, wherever the machine takes its next command. -/
theorem test_withFetchWord : nextWith (step (State.reset.withFetchWord 32 0x11)) (fun t => t.lastErr == 6) = true := by
  decide +kernel

/-- 45_host_delta_encoder.md R202: a target shorter than a window is one Add. -/
theorem test_encode_short :
    (match encodeTarget ⟨0, 2, 4⟩ State.reset with
      | .ok r => r.1 == [.add 0 2]
      | .error _ => false) = true := by
  decide +kernel

/-! ### A small state that meets the invariant: window 3, two blocks over "abcabc", the first one filed in bucket 0 -/

/-- The state on a data map, a command latched with its operands. -/
def halfOn (map : List Region) (op : Word) (a0 a1 a2 a3 : Word) : State :=
  { pending op a0 a1 a2 a3 with
    platform := { Platform.default with dataMap := map }
    rhValid := true, rhW := 3, rhMult := 66049, remtab := removalTable 66049
    ixValid := true, ixRefBase := 0, ixRefLen := 6, ixNblk := 2, ixTblsiz := 2, ixLastblk := 0
    headTab := [(0, 0)], nextTab := [], lastTab := [(0, 0)]
    mem := bytesAt 0 [0x61, 0x62, 0x63, 0x61, 0x62, 0x63] }

/-- The state with every data byte readable. -/
abbrev half (op : Word) (a0 a1 a2 a3 : Word) : State := halfOn Platform.default.dataMap op a0 a1 a2 a3

theorem half_indexed {map : List Region} {op a0 a1 a2 a3 : Word} {b : Nat} : (halfOn map op a0 a1 a2 a3).Indexed b ↔ b = 0 := by
  constructor
  · exact fun h => Nat.le_zero.1 h.2
  · rintro rfl
    exact ⟨by show (0 : Word) ≠ noneWord; decide, Nat.le_refl 0⟩

theorem half_chain (map : List Region) (op a0 a1 a2 a3 : Word) (k : Nat) (hk : k < 2) :
    (halfOn map op a0 a1 a2 a3).Walk (if k = 0 then [0] else []) ((halfOn map op a0 a1 a2 a3).head k) := by
  match k, hk with
  | 0, _ => exact ⟨by show (0 : Word) ≠ noneWord; decide, rfl, rfl⟩
  | 1, _ => exact rfl

theorem half_chain_eq {map : List Region} {op a0 a1 a2 a3 : Word} {k : Nat} (hk : k < 2) {cs : List Nat}
    (h : (halfOn map op a0 a1 a2 a3).Walk cs ((halfOn map op a0 a1 a2 a3).head k)) : cs = if k = 0 then [0] else [] :=
  walk_unique h (half_chain map op a0 a1 a2 a3 k hk)

theorem half_rhInv (map : List Region) (op a0 a1 a2 a3 : Word) : (halfOn map op a0 a1 a2 a3).RhInv :=
  ⟨by show (66049 : Word).toNat < 2 ^ 23; decide,
    fun _ => ⟨by show 3 ≤ 3; decide, by show (66049 : Word).toNat = multClosed 3; decide, fun v => removalTable_get 66049 v⟩⟩

theorem half_chains (map : List Region) (op a0 a1 a2 a3 : Word) : (halfOn map op a0 a1 a2 a3).Chains where
  lastInRange := .inr (by show 0 < 2; decide)
  chain := fun k hk => by
    refine ⟨_, half_chain map op a0 a1 a2 a3 k hk, ?_, ?_, ?_⟩
    · split <;> simp
    · intro b hb
      rw [half_indexed]
      split at hb <;> simp at hb
      exact hb
    · intro h t hh ht
      split at hh
      · rename_i hk0
        simp [hk0] at hh ht
        subst hh
        subst ht
        rfl
      · simp at hh
  once := fun b hb => by
    rw [half_indexed] at hb
    subst hb
    refine ⟨0, ⟨by show 0 < 2; decide, [0], half_chain map op a0 a1 a2 a3 0 (by decide), by simp⟩, ?_⟩
    rintro k ⟨hk, cs, hw, hm⟩
    rw [half_chain_eq hk hw] at hm
    split at hm
    · assumption
    · simp at hm
  unindexed := fun b hb hu => by
    rw [half_indexed] at hu
    have hb : b < 2 := hb
    have : b = 1 := by omega
    subst this
    exact ⟨rfl, rfl⟩
  notHead := fun b hb hh => by
    rw [half_indexed] at hb
    subst hb
    exact absurd rfl (hh 0 (by show 0 < 2; decide))

theorem half_inv (map : List Region) (op a0 a1 a2 a3 : Word) (h : op.setWidth 8 = opField op) : (halfOn map op a0 a1 a2 a3).Inv where
  canonical :=
    ⟨by show Memory.wf (bytesAt 0 [0x61, 0x62, 0x63, 0x61, 0x62, 0x63]) = true; decide,
      by show Sparse.wf noneWord [(0, 0)] = true; decide, rfl, by show Sparse.wf noneWord [(0, 0)] = true; decide⟩
  status := ⟨by show 0 ≤ 9; decide, fun _ => ⟨rfl, h, h⟩⟩
  rh := half_rhInv map op a0 a1 a2 a3
  ix := fun _ => ⟨rfl, ⟨by show (6 : Word) ≠ 0; decide, by show 0 + 6 ≤ 2 ^ 32; decide, by show 2 = 6 / 3; decide, by show 2 = tableSize 6; decide,
    by show 2 ≤ 0x55555555; decide, by show 2 ≤ 0x40000000; decide⟩, half_chains map op a0 a1 a2 a3⟩

theorem memory_everywhere (a : Nat) (h : a < 4294967296) : Platform.default.kindAt a = some .memory := by
  simp [Platform.kindAt, Platform.default, Region.holds, addrSpace, h]

theorem readable (a n : Nat) (h : a + n ≤ 4294967296) : Readable Platform.default a n :=
  fun k hk => memory_everywhere (a + k) (by omega)

/-! ### Witnesses: for each obligation with hypotheses, a state and operands that meet them together -/

/-- The default data map with a device byte at 5 that reads with side effects. -/
def deviceAtFive : List Region := [⟨5, 1, .device⟩, ⟨0, addrSpace, .memory⟩]

/-- 20_memory.md R67: a device in the target window is refused though the comparison would stop at the first byte ("a" against "b"). -/
theorem test_device_not_reached_refused :
    refusedWith (step (halfOn deviceAtFive 0x12 0 4 0 0)) (.deviceRead 5) = true := by decide +kernel

/-- 20_memory.md R63: a byte of the window that cannot be read, and is not reached, does not matter. -/
theorem test_unreadable_not_reached_completes :
    nextWith (step (halfOn [⟨0, 5, .memory⟩] 0x12 0 4 0 0)) (fun t => t.lastErr == 0 && t.res0 == 0xFFFFFFFF && t.res1 == 1) = true := by
  decide +kernel

/-- 45_host_delta_encoder.md R215: "aaaaaaaaaa" from one literal byte and an overlapping copy. -/
theorem test_replay_overlapping_copy :
    replay (bytesAt 0 (List.replicate 10 0x61)) 0 [] [.add 0 1, .copy 0 9] = some (List.replicate 10 0x61) := by decide +kernel

/-- 45_host_delta_encoder.md R212: an Add appends as many bytes as it says, from its own offset on. -/
theorem test_replay_add_length : (replay (bytesAt 0x100 [1, 2, 3]) 0x100 [9] [.add 1 5]).map List.length = some 6 := by decide +kernel

/-- The same small state with the host's or a platform's turn next and a host program. -/
def halfTurn (op a0 a1 a2 a3 : Word) (t : Turn) (ops : List HostOp) : State :=
  { half op a0 a1 a2 a3 with schedule := [t], program := ops }

theorem witness_WordSelectsCommandExactlyByAllBits :
    (0x00000015 : Word) ∉ [(0x00000001 : Word), 0x00000002, 0x00000003, 0x00000010, 0x00000011, 0x00000012, 0x00000013, 0x00000014] ∧
      decode 0x00000014 = .ok .ixBest := by
  decide

theorem witness_EncodedCommandDecodesToItself : Instr.wellFormed .ixNext = true := by decide

theorem no_device (a : Nat) : Platform.default.kindAt a ≠ some .device := by
  by_cases h : a < 4294967296
  · simp [memory_everywhere a h]
  · simp [Platform.kindAt, addrSpace, h]

theorem witness_CoreStepRunsTheLatchedCommand :
    (half 0x12 0 0 0 0).seq = .busy ∧ (half 0x12 0 0 0 0).coreMoves ∧ decode (half 0x12 0 0 0 0).pend.cmdword = .ok .ixFirst ∧
      ∀ a, (half 0x12 0 0 0 0).inReadRange a = true → (half 0x12 0 0 0 0).platform.kindAt a ≠ some .device :=
  ⟨rfl, .inl rfl, rfl, fun a _ => no_device a⟩

theorem witness_DeviceInTheReadRangeIsRefused :
    (halfOn deviceAtFive 0x12 0 4 0 0).seq = .busy ∧ (halfOn deviceAtFive 0x12 0 4 0 0).coreMoves ∧
      (halfOn deviceAtFive 0x12 0 4 0 0).platform.kindAt 5 = some .device ∧ (halfOn deviceAtFive 0x12 0 4 0 0).inReadRange 5 = true ∧
      ((halfOn deviceAtFive 0x02 3 0 0 0).rhValid = true ∧
        (halfOn deviceAtFive 0x02 3 0 0 0).pend.a0.toNat + (halfOn deviceAtFive 0x02 3 0 0 0).rhW.toNat ≤ 2 ^ 32 ∧
        (halfOn deviceAtFive 0x02 3 0 0 0).pend.a0.toNat ≤ 5 ∧
        5 < (halfOn deviceAtFive 0x02 3 0 0 0).pend.a0.toNat + (halfOn deviceAtFive 0x02 3 0 0 0).rhW.toNat) ∧
      ((halfOn deviceAtFive 0x14 0 3 3 3).ixValid = true ∧
        (halfOn deviceAtFive 0x14 0 3 3 3).pend.a2.toNat ≤ (halfOn deviceAtFive 0x14 0 3 3 3).pend.a1.toNat ∧
        (halfOn deviceAtFive 0x14 0 3 3 3).rhW.toNat ≤ (halfOn deviceAtFive 0x14 0 3 3 3).pend.a3.toNat ∧
        (halfOn deviceAtFive 0x14 0 3 3 3).pend.a1.toNat + (halfOn deviceAtFive 0x14 0 3 3 3).pend.a3.toNat ≤ 2 ^ 32 ∧
        5 < (halfOn deviceAtFive 0x14 0 3 3 3).ixRefBase.toNat + (halfOn deviceAtFive 0x14 0 3 3 3).ixRefLen.toNat ∧
        5 < (halfOn deviceAtFive 0x14 0 3 3 3).pend.a1.toNat + (halfOn deviceAtFive 0x14 0 3 3 3).pend.a3.toNat) :=
  ⟨rfl, .inl rfl, by decide +kernel, by decide +kernel, by decide +kernel, by decide +kernel⟩

theorem witness_IllegalWordCompletesWithCodeSeven :
    (half 0x112 0 0 0 0).seq = .busy ∧ (half 0x112 0 0 0 0).coreMoves ∧
      (half 0x112 0 0 0 0).pend.cmdword ∉
        [0x00000001, 0x00000002, 0x00000003, 0x00000010, 0x00000011, 0x00000012, 0x00000013, 0x00000014] ∧
      (half 0x112 0 0 0 0).lastOp = (half 0x112 0 0 0 0).pend.cmdword.setWidth 8 :=
  ⟨rfl, .inl rfl, by
    show (0x112 : Word) ∉ [(0x00000001 : Word), 0x00000002, 0x00000003, 0x00000010, 0x00000011, 0x00000012, 0x00000013, 0x00000014]
    decide, rfl⟩

theorem witness_IdleCoreKeepsAllState :
    let s : State := { State.reset with schedule := [.core] }
    s.seq = .idle ∧ s.schedule.head? = some .core :=
  ⟨rfl, rfl⟩

theorem witness_PendingCommandCompletesInOneCoreStep :
    (half 0x12 0 0 0 0).seq = .busy ∧ (half 0x12 0 0 0 0).coreMoves ∧
      ∀ r ∈ (half 0x12 0 0 0 0).platform.dataMap, r.kind = .memory :=
  ⟨rfl, .inl rfl, by
    intro r hr
    have hr : r ∈ [(⟨0, addrSpace, .memory⟩ : Region)] := hr
    simp at hr
    rw [hr]⟩

theorem witness_EveryRegisterHasItsResetValue :
    (0x000, 0) ∈ resetValues Platform.default ∧ (0x034, 0x00000020) ∈ resetValues Platform.default ∧
      (0x058, 0xFFFFFFFF) ∈ resetValues Platform.default := by
  decide

theorem witness_SoftResetActsAtAnyTime :
    (halfTurn 0x12 0 0 0 0 .host [.wr 0x008 4 1]).hostDoes (.wr (0 + 0x008) 4 1) ∧ (1 : Word).getLsbD 0 = true :=
  ⟨⟨.inr rfl, rfl⟩, by decide⟩

theorem witness_HardResetActsAtAnyTime :
    (halfTurn 0x12 0 0 0 0 .hardReset []).schedule.head? = some .hardReset := rfl

theorem witness_RegisterReadHasNoSideEffect :
    (halfTurn 0x12 0 0 0 0 .host [.rd 0x0FC 4]).hostDoes (.rd (0 + 0x0FC) 4) ∧ 0x0FC < 0x100 ∧ 0x0FC % 4 = 0 :=
  ⟨⟨.inr rfl, rfl⟩, by decide, by decide⟩

theorem witness_AccessCodesHoldAtEveryOffset :
    (halfTurn 0x12 0 0 0 0 .host [.wr 0x05C 4 7]).hostDoes (.wr (0 + 0x05C) 4 7) ∧ 0x05C < 0x100 ∧ 0x05C % 4 = 0 ∧ 0x058 < 0x05C ∧
      0x05C ∉ [0x000, 0x008, 0x010, 0x014, 0x018, 0x01C, 0x034] :=
  ⟨⟨.inr rfl, rfl⟩, by decide, by decide, by decide, by decide⟩

theorem witness_WriteWhileBusySetsOverrunOnly :
    (halfTurn 0x12 0 0 0 0 .host [.wr 0x034 4 7]).seq = .busy ∧
      (halfTurn 0x12 0 0 0 0 .host [.wr 0x034 4 7]).hostDoes (.wr (0 + 0x034) 4 7) ∧
      0x034 ∈ [0x000, 0x010, 0x014, 0x018, 0x01C, 0x034] :=
  ⟨rfl, ⟨.inr rfl, rfl⟩, by decide⟩

theorem witness_IdleWriteSetsArgumentsAndCap :
    (hostAt (.wr 0x010 4 7)).seq = .idle ∧ (hostAt (.wr 0x010 4 7)).hostDoes (.wr (0 + 0x010) 4 7) ∧
      (hostAt (.wr 0x014 4 7)).hostDoes (.wr (0 + 0x014) 4 7) ∧ (hostAt (.wr 0x018 4 7)).hostDoes (.wr (0 + 0x018) 4 7) ∧
      (hostAt (.wr 0x01C 4 7)).hostDoes (.wr (0 + 0x01C) 4 7) ∧ (hostAt (.wr 0x034 4 7)).hostDoes (.wr (0 + 0x034) 4 7) :=
  ⟨rfl, ⟨.inl ⟨rfl, rfl⟩, rfl⟩, ⟨.inl ⟨rfl, rfl⟩, rfl⟩, ⟨.inl ⟨rfl, rfl⟩, rfl⟩, ⟨.inl ⟨rfl, rfl⟩, rfl⟩, ⟨.inl ⟨rfl, rfl⟩, rfl⟩⟩

theorem witness_CommandIssueLatchesArguments :
    (hostAt (.wr 0 4 0x14)).seq = .idle ∧ (hostAt (.wr 0 4 0x14)).hostDoes (.wr 0 4 0x14) :=
  ⟨rfl, .inl ⟨rfl, rfl⟩, rfl⟩

theorem witness_MisformedRegisterAccessIsRefused :
    (hostAt (.wr 0x0FF 4 7)).hostDoes (.wr (0 + 0x0FF) 4 7) ∧ 0x0FF < 0x100 ∧ 0x0FF % 4 ≠ 0 ∧
      (hostAt (.rd 0x010 2)).hostDoes (.rd (0 + 0x010) 2) ∧ 2 ≠ 4 :=
  ⟨⟨.inl ⟨rfl, rfl⟩, rfl⟩, by decide, by decide, ⟨.inl ⟨rfl, rfl⟩, rfl⟩, by decide⟩

theorem witness_WaitPollsUntilNotBusy :
    (halfTurn 0x12 0 0 0 0 .host [.wait]).hostDoes .wait ∧ (halfTurn 0x12 0 0 0 0 .host [.wait]).seq = .busy ∧
      (hostAt .wait).hostDoes .wait ∧ (hostAt .wait).seq = .idle :=
  ⟨⟨.inr rfl, rfl⟩, rfl, ⟨.inl ⟨rfl, rfl⟩, rfl⟩, rfl⟩

theorem witness_OnlyResetClearsStickyBits :
    let s : State := { half 0x112 0 0 0 0 with err := true, ovr := true }
    (∃ t, step s = .next t) ∧ s.schedule.head? ≠ some .hardReset ∧ s.err = true ∧ s.ovr = true ∧
      ∀ v : Word, s.hostDoes (.wr (s.platform.regBase + 0x008) 4 v) → v.getLsbD 0 = false :=
  ⟨⟨_, rfl⟩, by simp [halfOn, pending, State.reset, State.resetOn], rfl, rfl, fun v h => by
    have h : ([] : List HostOp).head? = some (.wr (0 + 0x008) 4 v) := h.2
    simp at h⟩

theorem witness_WriteInReadRangeIsADataRace :
    (halfTurn 0x12 0 3 0 0 .host [.store 5 7]).seq = .busy ∧
      (halfTurn 0x12 0 3 0 0 .host [.store 5 7]).hostDoes (.store 5 7) ∧
      (halfTurn 0x12 0 3 0 0 .host [.store 5 7]).inReadRange 5 = true ∧
      (halfTurn 0x02 3 0 0 0 (.busWrite 5 7) []).schedule.head? = some (.busWrite 5 7) ∧
      (halfTurn 0x02 3 0 0 0 (.busWrite 5 7) []).pend.a0.toNat + 3 ≤ 2 ^ 32 ∧ 3 ≤ 5 ∧ 5 < 3 + 3 ∧
      (halfTurn 0x14 0 3 0 3 (.busWrite 5 7) []).pend.a2.toNat ≤ (halfTurn 0x14 0 3 0 3 (.busWrite 5 7) []).pend.a1.toNat ∧
      (halfTurn 0x14 0 3 0 3 (.busWrite 5 7) []).rhW.toNat ≤ (halfTurn 0x14 0 3 0 3 (.busWrite 5 7) []).pend.a3.toNat := by
  refine ⟨rfl, ⟨.inr rfl, rfl⟩, by decide +kernel, rfl, ?_, ?_, ?_, ?_, ?_⟩ <;> decide +kernel

theorem witness_OnlyAWriteInTheReadRangeFaults :
    ∃ f, step (halfTurn 0x12 0 3 0 0 (.busWrite 5 7) []) = .fault f := by
  have h : (halfTurn 0x12 0 3 0 0 (.busWrite 5 7) []).popTurn.inReadRange 5 = true := by decide +kernel
  refine ⟨.dataRace, ?_⟩
  rw [step_of_head (t := .busWrite 5 7) rfl]
  have hb : ((halfTurn 0x12 0 3 0 0 (.busWrite 5 7) []).popTurn.busy &&
      (halfTurn 0x12 0 3 0 0 (.busWrite 5 7) []).popTurn.inReadRange (5 : Word).toNat) = true := by
    rw [show (5 : Word).toNat = 5 from rfl, h]
    rfl
  simp only [State.takeTurn, State.storeByte, hb, if_true]

theorem witness_WriteOutsideReadRangeLeavesTheCommandsOutcome :
    (half 0x14 0 3 0 3).Inv ∧ decode (half 0x14 0 3 0 3).pend.cmdword = .ok .ixBest ∧ (half 0x14 0 3 0 3).inReadRange 6 = false :=
  ⟨half_inv _ _ _ _ _ _ (by decide), rfl, by decide +kernel⟩

theorem witness_IdleWriteSetsOneByteOfMemory :
    ((hostAt (.store 0xFFFFFFFF 7)).seq = .idle ∧ Memory.wf (hostAt (.store 0xFFFFFFFF 7)).mem = true ∧
      Platform.default.kindAt 0xFFFFFFFF = some .memory ∧ (hostAt (.store 0xFFFFFFFF 7)).hostDoes (.store 0xFFFFFFFF 7)) ∧
    ({ State.reset with schedule := [.busWrite 0 7] } : State).schedule.head? = some (.busWrite 0 7) :=
  ⟨⟨rfl, rfl, memory_everywhere _ (by decide), .inl ⟨rfl, rfl⟩, rfl⟩, rfl⟩

theorem witness_WriteOutsideTheReadRangeGoesThrough :
    let turn := fun op a0 a1 a2 a3 => halfTurn op a0 a1 a2 a3 (.busWrite 6 7) []
    ((turn 0x01 3 0 0 0).seq = .busy ∧ Memory.wf (turn 0x01 3 0 0 0).mem = true ∧
      (turn 0x01 3 0 0 0).platform.kindAt 6 = some .memory ∧ (turn 0x01 3 0 0 0).schedule.head? = some (.busWrite 6 7) ∧
      (turn 0x01 3 0 0 0).pend.cmdword ∉ [0x00000002, 0x00000012, 0x00000013, 0x00000014]) ∧
    (Outside 6 (turn 0x02 3 0 0 0).pend.a0.toNat (turn 0x02 3 0 0 0).rhW.toNat ∧
      Outside 2 (turn 0x02 3 0 0 0).pend.a0.toNat (turn 0x02 3 0 0 0).rhW.toNat) ∧
    ((turn 0x12 0 3 0 0).Walk [0] ((turn 0x12 0 3 0 0).firstOf 0) ∧ Outside 6 3 (turn 0x12 0 3 0 0).rhW.toNat ∧
      ∀ b ∈ (turn 0x12 0 3 0 0).compared 3 [0],
        Outside 6 ((turn 0x12 0 3 0 0).ixRefBase.toNat + b * (turn 0x12 0 3 0 0).rhW.toNat) (turn 0x12 0 3 0 0).rhW.toNat) ∧
    ((turn 0x13 0 3 0 0).Walk [] ((turn 0x13 0 3 0 0).nextOf 0) ∧ Outside 2 3 (turn 0x13 0 3 0 0).rhW.toNat) ∧
    (Outside 6 (turn 0x14 0 3 0 3).ixRefBase.toNat (turn 0x14 0 3 0 3).ixRefLen.toNat ∧
      (turn 0x14 0 3 0 3).pend.a1.toNat + (turn 0x14 0 3 0 3).pend.a3.toNat ≤ 6) :=
  ⟨⟨rfl, by decide +kernel, by decide +kernel, rfl, by decide +kernel⟩, by decide +kernel,
    ⟨⟨by decide +kernel, rfl, rfl⟩, by decide +kernel, by decide +kernel⟩, ⟨rfl, by decide +kernel⟩, by decide +kernel⟩

/-- The commands that complete from the small state, each with a success; used where a statement speaks of any command that completes. -/
theorem witness_every_command_completes :
    nextWith (exec .rhInit (half 0x01 0xFFFFFFFF 0 0 0)) (fun t => t.lastErr == 0) = true ∧
      nextWith (exec .rhHash (half 0x02 0 0 0 0)) (fun t => t.lastErr == 0) = true ∧
      nextWith (exec .rhUpdate (half 0x03 0 0xFF 0xFF 0)) (fun t => t.lastErr == 0) = true ∧
      nextWith (exec .ixInit (half 0x10 0xFFFFFFFA 6 0 0)) (fun t => t.lastErr == 0) = true ∧
      nextWith (exec .ixAdd (half 0x11 3 1 0 0)) (fun t => t.lastErr == 0) = true ∧
      nextWith (exec .ixFirst (half 0x12 0 3 0 0)) (fun t => t.lastErr == 0 && t.res0 != 0xFFFFFFFF) = true ∧
      nextWith (exec .ixNext (half 0x13 1 3 0 0)) (fun t => t.lastErr == 0) = true ∧
      nextWith (exec .ixBest (half 0x14 0 3 0 3)) (fun t => t.lastErr == 0 && t.res0 != 0xFFFFFFFF) = true := by
  refine ⟨?_, ?_, ?_, ?_, ?_, ?_, ?_, ?_⟩ <;> decide +kernel

theorem witness_NoCommandWritesDataMemory : ∃ t, exec .ixFirst (half 0x12 0 3 0 0) = .next t :=
  (exists_of_nextWith witness_every_command_completes.2.2.2.2.2.1).imp fun _ h => h.1

theorem witness_CommandsLeaveArgumentsAndHostAlone : ∃ t, exec .ixAdd (half 0x11 3 1 0 0) = .next t :=
  (exists_of_nextWith witness_every_command_completes.2.2.2.2.1).imp fun _ h => h.1

theorem witness_EveryCompletionIsASuccessOrAnError : ∃ t, exec .rhHash (half 0x02 0 0 0 0) = .next t :=
  (exists_of_nextWith witness_every_command_completes.2.1).imp fun _ h => h.1

theorem witness_CommandOnAnInvalidUnitIsNotConfigured :
    State.reset.rhValid = false ∧ Instr.ixInit ∈ [Instr.rhHash, .rhUpdate, .ixInit] ∧
      State.reset.ixValid = false ∧ Instr.ixBest ∈ [Instr.ixAdd, .ixFirst, .ixNext, .ixBest] := by
  decide

/-- A platform on which no data byte is readable. -/
def noData (s : State) : State := { s with platform := { s.platform with dataMap := [] } }

theorem witness_MemoryFaultNamesAnInadmissibleByte :
    (halfOn [] 0x02 0 0 0 0).Inv ∧ ∃ t, exec .rhHash (halfOn [] 0x02 0 0 0 0) = .next t ∧ t.lastErr = 9 := by
  obtain ⟨t, h, h9⟩ := exists_of_nextWith (o := exec .rhHash (halfOn [] 0x02 0 0 0 0)) (f := fun t => t.lastErr == 9)
    (by decide +kernel)
  exact ⟨half_inv _ _ _ _ _ _ (by decide), t, h, by simpa using h9⟩

theorem witness_DuplicateBlockIsNeverReported : ∃ t, exec .ixAdd (half 0x11 3 1 0 0) = .next t :=
  witness_CommandsLeaveArgumentsAndHostAlone

theorem witness_OnlyInvalidIndexInvalidatesTheIndex :
    ∃ t, exec .ixNext (half 0x13 2 3 0 0) = .next t ∧ Instr.ixNext ≠ .rhInit ∧ Instr.ixNext ≠ .ixInit ∧ t.lastErr = 2 := by
  obtain ⟨t, h, h2⟩ := exists_of_nextWith (o := exec .ixNext (half 0x13 2 3 0 0)) (f := fun t => t.lastErr == 2)
    (by decide +kernel)
  exact ⟨t, h, by decide, by decide, by simpa using h2⟩

theorem witness_LookupsLeaveTheUnitsUnchanged :
    ∃ t, exec .ixBest (half 0x14 0 3 0 3) = .next t ∧ Instr.ixBest ∈ [Instr.rhHash, .rhUpdate, .ixFirst, .ixNext, .ixBest] := by
  obtain ⟨t, h, _⟩ := exists_of_nextWith witness_every_command_completes.2.2.2.2.2.2.2
  exact ⟨t, h, by decide⟩

theorem witness_RhInitConfiguresOrRejectsTheWindow :
    3 ≤ (half 0x01 3 0 0 0).pend.a0.toNat ∧ (half 0x01 2 0 0 0).pend.a0.toNat ≤ 2 := by
  decide +kernel

theorem witness_RhHashComputesThePolynomial :
    State.reset.rhValid = false ∧
    ((half 0x02 0xFFFFFFFE 0 0 0).rhValid = true ∧
      2 ^ 32 < (half 0x02 0xFFFFFFFE 0 0 0).pend.a0.toNat + (half 0x02 0xFFFFFFFE 0 0 0).rhW.toNat) ∧
    ((noData (half 0x02 0 0 0 0)).rhValid = true ∧ 0 < (noData (half 0x02 0 0 0 0)).rhW.toNat ∧
      Readable (noData (half 0x02 0 0 0 0)).platform 0 0 ∧ (noData (half 0x02 0 0 0 0)).platform.kindAt 0 = none) ∧
    ((half 0x02 0xFFFFFFFD 0 0 0).rhValid = true ∧ 3 ≤ (half 0x02 0xFFFFFFFD 0 0 0).rhW.toNat ∧
      (half 0x02 0xFFFFFFFD 0 0 0).pend.a0.toNat + (half 0x02 0xFFFFFFFD 0 0 0).rhW.toNat ≤ 2 ^ 32 ∧
      Readable (half 0x02 0xFFFFFFFD 0 0 0).platform 0xFFFFFFFD 3) :=
  ⟨rfl, ⟨rfl, by decide +kernel⟩, ⟨rfl, by decide +kernel, fun k hk => absurd hk (Nat.not_lt_zero k), rfl⟩,
    ⟨rfl, by decide +kernel, by decide +kernel, readable _ _ (by decide)⟩⟩

theorem witness_RhUpdateSlidesTheHash :
    State.reset.rhValid = false ∧ 0xFF < (half 0x03 0 0x100 0 0).pend.a1.toNat ∧
    ((half 0x03 0 0xFF 0x100 0).pend.a1.toNat ≤ 0xFF ∧ 0xFF < (half 0x03 0 0xFF 0x100 0).pend.a2.toNat) ∧
    ((half 0x03 0 0xFF 0xFF 0).RhInv ∧ (half 0x03 0 0xFF 0xFF 0).rhValid = true ∧
      (half 0x03 0 0xFF 0xFF 0).pend.a1.toNat ≤ 0xFF ∧ (half 0x03 0 0xFF 0xFF 0).pend.a2.toNat ≤ 0xFF) :=
  ⟨rfl, by decide +kernel, ⟨by decide +kernel, by decide +kernel⟩,
    ⟨half_rhInv _ _ _ _ _ _, rfl, by decide +kernel, by decide +kernel⟩⟩

theorem witness_UpdateOfAWindowHashIsTheNextWindowsHash :
    (half 0x03 0 0 0 0).RhInv ∧ (half 0x03 0 0 0 0).rhValid = true ∧ 0xFFFFFFFC + (half 0x03 0 0 0 0).rhW.toNat + 1 ≤ 2 ^ 32 ∧
      Readable (half 0x03 0 0 0 0).platform 0xFFFFFFFC ((half 0x03 0 0 0 0).rhW.toNat + 1) :=
  ⟨half_rhInv _ _ _ _ _ _, rfl, by decide +kernel, readable _ _ (by decide +kernel)⟩

theorem witness_HashResultsAreBelowTheModulus :
    ∃ t, exec .rhHash (half 0x02 0 0 0 0) = .next t ∧ Instr.rhHash ∈ [Instr.rhHash, .rhUpdate] ∧ 3 ≤ (half 0x02 0 0 0 0).rhW.toNat := by
  obtain ⟨t, h, _⟩ := exists_of_nextWith witness_every_command_completes.2.1
  exact ⟨t, h, by decide, by decide +kernel⟩

theorem witness_MultiplierHasPeriod32768 :
    (1 ≤ 1 ∧ 1 ≤ 0xFFFF8001 ∧ 1 < 2 ^ 32 ∧ 0xFFFF8001 < 2 ^ 32 ∧ (1 - 1) % 32768 = (0xFFFF8001 - 1) % 32768) ∧
    (3 ≤ (half 0x01 0xFFFFFFFF 0 0 0).pend.a0.toNat ∧ ∃ t, exec .rhInit (half 0x01 0xFFFFFFFF 0 0 0) = .next t) :=
  ⟨by decide, by decide +kernel, (exists_of_nextWith witness_every_command_completes.1).imp fun _ h => h.1⟩

theorem witness_TableSizeIsTheLeastPowerOfTwo : 0xFFFFFFFF < 2 ^ 32 := by decide

/-- A platform with room for one block and one bucket. -/
def oneBlock (s : State) : State := { s with platform := { s.platform with maxBlocks := 1, maxTblsiz := 1 } }

theorem witness_IxInitCreatesAnEmptyIndex :
    State.reset.rhValid = false ∧ (half 0x10 0 0 0 0).pend.a1 = 0 ∧
    ((half 0x10 0xFFFFFFFF 2 0 0).pend.a1 ≠ 0 ∧
      2 ^ 32 < (half 0x10 0xFFFFFFFF 2 0 0).pend.a0.toNat + (half 0x10 0xFFFFFFFF 2 0 0).pend.a1.toNat) ∧
    ((oneBlock (half 0x10 0 6 0 0)).pend.a1 ≠ 0 ∧
      (oneBlock (half 0x10 0 6 0 0)).platform.maxBlocks.toNat <
        (oneBlock (half 0x10 0 6 0 0)).pend.a1.toNat / (oneBlock (half 0x10 0 6 0 0)).rhW.toNat) ∧
    ((half 0x10 0xFFFFFFFA 6 0 0).pend.a1 ≠ 0 ∧
      (half 0x10 0xFFFFFFFA 6 0 0).pend.a0.toNat + (half 0x10 0xFFFFFFFA 6 0 0).pend.a1.toNat ≤ 2 ^ 32 ∧
      (half 0x10 0xFFFFFFFA 6 0 0).pend.a1.toNat / (half 0x10 0xFFFFFFFA 6 0 0).rhW.toNat ≤
        (half 0x10 0xFFFFFFFA 6 0 0).platform.maxBlocks.toNat ∧
      tableSize (half 0x10 0xFFFFFFFA 6 0 0).pend.a1.toNat ≤ (half 0x10 0xFFFFFFFA 6 0 0).platform.maxTblsiz.toNat) := by
  decide +kernel

/-- The small state with both its blocks counted as indexed, IX_ADD pending at the index past them. -/
def filled : State := { half 0x11 6 0 0 0 with ixLastblk := 1 }

theorem witness_IxAddAppendsTheNextBlock :
    State.reset.ixValid = false ∧
    (half 0x11 4 0 0 0).pend.a0.toNat ≠ ((half 0x11 4 0 0 0).ixLastblk + 1).toNat * (half 0x11 4 0 0 0).rhW.toNat ∧
    (filled.pend.a0.toNat = (filled.ixLastblk + 1).toNat * filled.rhW.toNat ∧ filled.ixNblk.toNat ≤ (filled.ixLastblk + 1).toNat) ∧
    ((half 0x11 3 1 0 0).Inv ∧ (half 0x11 3 1 0 0).ixValid = true ∧
      (half 0x11 3 1 0 0).pend.a0.toNat = ((half 0x11 3 1 0 0).ixLastblk + 1).toNat * (half 0x11 3 1 0 0).rhW.toNat ∧
      ((half 0x11 3 1 0 0).ixLastblk + 1).toNat < (half 0x11 3 1 0 0).ixNblk.toNat ∧
      (half 0x11 3 1 0 0).head 1 = 0xFFFFFFFF ∧ (half 0x11 3 0 0 0).head 0 ≠ 0xFFFFFFFF) :=
  ⟨rfl, by decide +kernel, by decide +kernel,
    half_inv _ _ _ _ _ _ (by decide), rfl, by decide +kernel, by decide +kernel, by decide +kernel, by decide +kernel⟩

theorem witness_InvalidIndexClearsIxValid :
    (filled.ixValid = true ∧ filled.pend.a0.toNat = (filled.ixLastblk + 1).toNat * filled.rhW.toNat ∧
      filled.ixNblk.toNat ≤ (filled.ixLastblk + 1).toNat) ∧
    (half 0x13 2 0 0 0).ixNblk.toNat ≤ (half 0x13 2 0 0 0).pend.a0.toNat ∧
    (half 0x11 4 0 0 0).pend.a0.toNat ≠ ((half 0x11 4 0 0 0).ixLastblk + 1).toNat * (half 0x11 4 0 0 0).rhW.toNat := by
  decide +kernel

theorem witness_IxFirstFindsTheFirstMatchInBudget :
    ((half 0x12 0 0xFFFFFFFD 0 0).Inv ∧ (half 0x12 0 0xFFFFFFFD 0 0).ixValid = true ∧ 0xFFFFFFFD + 3 ≤ 2 ^ 32) ∧
    ((halfOn [⟨0, 5, .memory⟩] 0x12 0 4 0 0).Inv ∧
      (halfOn [⟨0, 5, .memory⟩] 0x12 0 4 0 0).Walk [0] ((halfOn [⟨0, 5, .memory⟩] 0x12 0 4 0 0).head (0 % 2)) ∧
      AllReadable (halfOn [⟨0, 5, .memory⟩] 0x12 0 4 0 0).platform ((halfOn [⟨0, 5, .memory⟩] 0x12 0 4 0 0).lookupReads 4 [0])) :=
  ⟨⟨half_inv _ _ _ _ _ _ (by decide), rfl, by decide⟩,
    half_inv _ _ _ _ _ _ (by decide), half_chain _ 0x12 0 4 0 0 0 (by decide), by decide +kernel⟩

theorem witness_IxNextGoesOnBehindABlock :
    (half 0x13 1 0xFFFFFFFD 0 0).Inv ∧ (half 0x13 1 0xFFFFFFFD 0 0).ixValid = true ∧
      (half 0x13 1 0xFFFFFFFD 0 0).pend.a0.toNat < (half 0x13 1 0xFFFFFFFD 0 0).ixNblk.toNat ∧ 0xFFFFFFFD + 3 ≤ 2 ^ 32 ∧
      (halfOn [] 0x13 1 3 0 0).Walk [] ((halfOn [] 0x13 1 3 0 0).nextOf 1) ∧
      AllReadable (halfOn [] 0x13 1 3 0 0).platform ((halfOn [] 0x13 1 3 0 0).lookupReads 3 []) :=
  ⟨half_inv _ _ _ _ _ _ (by decide), rfl, by decide +kernel, by decide, rfl, by decide +kernel⟩

theorem witness_InvalidArgumentNamesTheRejectedRegister :
    2 ^ 32 < (half 0x02 0xFFFFFFFE 0 0 0).pend.a0.toNat + (half 0x02 0xFFFFFFFE 0 0 0).rhW.toNat ∧
    0xFF < (half 0x03 0 0x100 0 0).pend.a1.toNat ∧
    ((half 0x03 0 0xFF 0x100 0).pend.a1.toNat ≤ 0xFF ∧ 0xFF < (half 0x03 0 0xFF 0x100 0).pend.a2.toNat) ∧
    ((half 0x10 0xFFFFFFFF 2 0 0).pend.a1 ≠ 0 ∧
      2 ^ 32 < (half 0x10 0xFFFFFFFF 2 0 0).pend.a0.toNat + (half 0x10 0xFFFFFFFF 2 0 0).pend.a1.toNat) ∧
    2 ^ 32 < (half 0x12 0 0xFFFFFFFE 0 0).pend.a1.toNat + (half 0x12 0 0xFFFFFFFE 0 0).rhW.toNat ∧
    ((half 0x13 1 0xFFFFFFFE 0 0).pend.a0.toNat < (half 0x13 1 0xFFFFFFFE 0 0).ixNblk.toNat ∧
      2 ^ 32 < (half 0x13 1 0xFFFFFFFE 0 0).pend.a1.toNat + (half 0x13 1 0xFFFFFFFE 0 0).rhW.toNat) ∧
    (half 0x14 0 3 4 3).pend.a1.toNat < (half 0x14 0 3 4 3).pend.a2.toNat ∧
    ((half 0x14 0 3 3 2).pend.a2.toNat ≤ (half 0x14 0 3 3 2).pend.a1.toNat ∧
      (half 0x14 0 3 3 2).pend.a3.toNat < (half 0x14 0 3 3 2).rhW.toNat) ∧
    2 ^ 32 < (half 0x14 0 0xFFFFFFFE 0 3).pend.a1.toNat + (half 0x14 0 0xFFFFFFFE 0 3).pend.a3.toNat := by
  decide +kernel

/-- The index of 41_block_index.md R127's example on a platform whose data memory ends at 0x2008. -/
def example127Cut (op a0 a1 : Word) : State :=
  { example127 op a0 a1 with platform := { Platform.default with dataMap := [⟨0x2000, 9, .memory⟩] } }

/-- The index of 43_best_match.md R166's example on a data map, its chain starting at block `first`, the target base at `tb`. -/
def example166On (map : List Region) (first tb : Word) : State :=
  { example166 32 with
    headTab := [(2, first)], platform := { Platform.default with dataMap := map }
    pend := { latch 0x14 0x74B8A 0x4000 tb 8 with maxcand := 32 } }

/-- The first read that fails: the window's last byte in IX_FIRST; the second byte of the second block IX_NEXT probes; in IX_BEST a byte of
the verification, one of the left extension, and one of the right extension. -/
theorem witness_LookupFaultsAtTheFirstUnreadableByte :
    ((halfOn [⟨0, 5, .memory⟩] 0x12 0 3 0 0).ixValid = true ∧
      (halfOn [⟨0, 5, .memory⟩] 0x12 0 3 0 0).Follows [0] ((halfOn [⟨0, 5, .memory⟩] 0x12 0 3 0 0).firstOf 0) ∧
      FirstFailure (halfOn [⟨0, 5, .memory⟩] 0x12 0 3 0 0).platform ((halfOn [⟨0, 5, .memory⟩] 0x12 0 3 0 0).lookupReads 3 [0]) 5) ∧
    ((example127Cut 0x13 0 0x2000).ixValid = true ∧
      (example127Cut 0x13 0 0x2000).pend.a0.toNat < (example127Cut 0x13 0 0x2000).ixNblk.toNat ∧
      (example127Cut 0x13 0 0x2000).Follows [1, 2] ((example127Cut 0x13 0 0x2000).nextOf 0) ∧
      FirstFailure (example127Cut 0x13 0 0x2000).platform ((example127Cut 0x13 0 0x2000).lookupReads 0x2000 [1, 2]) 0x2009) ∧
    (let s := example166On [⟨0x3008, 8, .memory⟩, ⟨0x4000, 1, .memory⟩] 2 0x3FFF;
      s.ixValid = true ∧ s.pend.a2.toNat ≤ s.pend.a1.toNat ∧ s.rhW.toNat ≤ s.pend.a3.toNat ∧
        s.pend.a1.toNat + s.pend.a3.toNat ≤ 2 ^ 32 ∧ s.Follows [2] (s.firstOf s.pend.a0) ∧
        FirstFailure s.platform (s.bestReads 0x4000 0x3FFF 8 32 [2]) 0x4001) ∧
    (let s := example166On [⟨0x3008, 8, .memory⟩, ⟨0x4000, 8, .memory⟩] 2 0x3FFF;
      s.Follows [2] (s.firstOf s.pend.a0) ∧ FirstFailure s.platform (s.bestReads 0x4000 0x3FFF 8 32 [2]) 0x3007) ∧
    (let s := example166On [⟨0x3000, 6, .memory⟩, ⟨0x4000, 8, .memory⟩] 0 0x4000;
      s.Follows [0] (s.firstOf s.pend.a0) ∧ FirstFailure s.platform (s.bestReads 0x4000 0x4000 8 32 [0]) 0x3006) :=
  ⟨⟨rfl, ⟨by decide +kernel, rfl, trivial⟩, by decide +kernel⟩,
    ⟨rfl, by decide +kernel, ⟨by decide +kernel, by decide +kernel, by decide +kernel, by decide +kernel, trivial⟩, by decide +kernel⟩,
    ⟨rfl, by decide +kernel, by decide +kernel, by decide +kernel, ⟨by decide +kernel, by decide +kernel, trivial⟩, by decide +kernel⟩,
    ⟨⟨by decide +kernel, by decide +kernel, trivial⟩, by decide +kernel⟩,
    ⟨by decide +kernel, by decide +kernel, trivial⟩, by decide +kernel⟩

theorem witness_AReportedBlockEqualsTheWindow :
    ∃ t, exec .ixFirst (half 0x12 0 3 0 0) = .next t ∧ t.lastErr = 0 ∧ t.res0 ≠ 0xFFFFFFFF := by
  obtain ⟨t, h, hf⟩ := exists_of_nextWith witness_every_command_completes.2.2.2.2.2.1
  exact ⟨t, h, by simpa using hf⟩

theorem witness_ProbesStayWithinTheBudget :
    (∃ t, exec .ixFirst (half 0x12 0 3 0 0) = .next t ∧ t.lastErr = 0) ∧ ∃ t, exec .ixNext (half 0x13 1 3 0 0) = .next t ∧ t.lastErr = 0 := by
  obtain ⟨t, h, hf, _⟩ := witness_AReportedBlockEqualsTheWindow
  obtain ⟨u, g, gf⟩ := exists_of_nextWith witness_every_command_completes.2.2.2.2.2.2.1
  exact ⟨⟨t, h, hf⟩, u, g, by simpa using gf⟩

theorem witness_IxBestReportsTheLongestCandidate :
    let cut := halfOn [⟨0, 5, .memory⟩] 0x14 0 4 0 0xFFFFFFFC
    ((half 0x14 0 3 0 3).Inv ∧ (half 0x14 0 3 0 3).ixValid = true ∧ 0 ≤ 3 ∧ 3 ≤ 3 ∧ 3 + 3 ≤ 2 ^ 32 ∧
      (half 0x14 0 3 0 3).Walk [0] ((half 0x14 0 3 0 3).head (0 % 2)) ∧
      enumerate ((half 0x14 0 3 0 3).blockMatches 3) 32 [0] = [0] ∧
      AllReadable (half 0x14 0 3 0 3).platform ((half 0x14 0 3 0 3).bestReads 3 0 3 32 [0])) ∧
    (cut.Inv ∧ 0 ≤ 4 ∧ 3 ≤ 0xFFFFFFFC ∧ 4 + 0xFFFFFFFC ≤ 2 ^ 32 ∧ cut.Walk [0] (cut.head (0 % 2)) ∧
      enumerate (cut.blockMatches 4) 32 [0] = [] ∧ AllReadable cut.platform (cut.bestReads 4 0 0xFFFFFFFC 32 [0])) :=
  ⟨⟨half_inv _ _ _ _ _ _ (by decide), rfl, by decide, by decide, by decide, half_chain _ 0x14 0 3 0 3 0 (by decide),
      by decide +kernel, by decide +kernel⟩,
    half_inv _ _ _ _ _ _ (by decide), by decide, by decide, by decide, half_chain _ 0x14 0 4 0 0xFFFFFFFC 0 (by decide),
    by decide +kernel, by decide +kernel⟩

theorem witness_AReportedMatchLiesInBoundsAndIsEqual :
    (half 0x14 0 3 0 3).Inv ∧ ∃ t, exec .ixBest (half 0x14 0 3 0 3) = .next t ∧ t.lastErr = 0 ∧ t.res0 ≠ 0xFFFFFFFF := by
  obtain ⟨t, h, hf⟩ := exists_of_nextWith witness_every_command_completes.2.2.2.2.2.2.2
  exact ⟨half_inv _ _ _ _ _ _ (by decide), t, h, by simpa using hf⟩

theorem witness_IxBestWithCapZeroReportsNone :
    let s : State := { half 0x14 0 3 0 3 with pend := { latch 0x14 0 3 0 3 with maxcand := 0 } }
    s.ixValid = true ∧ s.pend.a2.toNat ≤ s.pend.a1.toNat ∧ s.rhW.toNat ≤ s.pend.a3.toNat ∧
      s.pend.a1.toNat + s.pend.a3.toNat ≤ 2 ^ 32 ∧ s.pend.maxcand = 0 := by
  decide +kernel

theorem witness_SelfMatchSpansTheWholeBuffer :
    (half 0x14 0 0 0 6).Inv ∧ (half 0x14 0 0 0 6).ixValid = true ∧ (half 0x14 0 0 0 6).pend.a2 = (half 0x14 0 0 0 6).ixRefBase ∧
      (half 0x14 0 0 0 6).pend.a1.toNat = (half 0x14 0 0 0 6).ixRefBase.toNat + 0 * (half 0x14 0 0 0 6).rhW.toNat ∧
      (half 0x14 0 0 0 6).ixRefLen.toNat - 0 * (half 0x14 0 0 0 6).rhW.toNat ≤ (half 0x14 0 0 0 6).pend.a3.toNat ∧
      (half 0x14 0 0 0 6).Walk [0] ((half 0x14 0 0 0 6).head (0 % 2)) ∧
      0 ∈ enumerate ((half 0x14 0 0 0 6).blockMatches 0) 32 [0] ∧
      Readable (half 0x14 0 0 0 6).platform 0 6 ∧ ∃ t, exec .ixBest (half 0x14 0 0 0 6) = .next t := by
  obtain ⟨t, h, _⟩ := exists_of_nextWith (o := exec .ixBest (half 0x14 0 0 0 6)) (f := fun _ => true) (by decide +kernel)
  exact ⟨half_inv _ _ _ _ _ _ (by decide), rfl, rfl, by decide +kernel, by decide +kernel, half_chain _ 0x14 0 0 0 6 0 (by decide),
    by decide +kernel, readable _ _ (by decide), t, h⟩

theorem witness_ReplayAppendsByteByByte : 0xFFFFFFFE + 1 + 1 ≤ 2 ^ 32 ∧ 0 < ([0x61] : List Byte).length := by decide

/-- Every invariant's premise is met by the small state, from which the core steps on. -/
theorem witness_invariants :
    (half 0x11 3 1 0 0).Inv ∧ ∃ t, step (half 0x11 3 1 0 0) = .next t := by
  obtain ⟨t, h, _⟩ := exists_of_nextWith (o := step (half 0x11 3 1 0 0)) (f := fun t => t.lastErr == 0)
    (by decide +kernel)
  exact ⟨half_inv _ _ _ _ _ _ (by decide), t, h⟩

theorem witness_EveryStepKeepsTheCanonicalForm :
    (half 0x11 3 1 0 0).Canonical ∧ ∃ t, step (half 0x11 3 1 0 0) = .next t := ⟨witness_invariants.1.canonical, witness_invariants.2⟩

theorem witness_EveryStepKeepsTheRollingHashUnit :
    (half 0x11 3 1 0 0).RhInv ∧ ∃ t, step (half 0x11 3 1 0 0) = .next t := ⟨half_rhInv _ _ _ _ _ _, witness_invariants.2⟩

theorem witness_EveryStepKeepsIxValidImpliesRhValid :
    ((half 0x11 3 1 0 0).ixValid = true → (half 0x11 3 1 0 0).rhValid = true) ∧ (half 0x11 3 1 0 0).ixValid = true ∧
      ∃ t, step (half 0x11 3 1 0 0) = .next t :=
  ⟨fun _ => rfl, rfl, witness_invariants.2⟩

end Sys2Proof.Tests
end

/-! ## Proofs of the statements about the state (10_state.md) -/

namespace Sys2Proof.Machine

/-! ### What one step is made of -/

/-- The state with other values in ARG0 to ARG3 and MAXCAND. -/
def State.withArgs (s : State) (a0 a1 a2 a3 cap : Word) : State :=
  { s with arg0 := a0, arg1 := a1, arg2 := a2, arg3 := a3, maxCand := cap }

/-- All that a host write of `v` at an offset can do to the block (10_state.md R21, 44_control.md R180, R182, R183 and R185). -/
inductive WriteEffect (s : State) (off : Nat) (v : Word) : State → Prop
  | ignored : WriteEffect s off v s
  | overrun : WriteEffect s off v s.overrun
  | issued : WriteEffect s off v (s.issue v)
  | args (a0 a1 a2 a3 cap) : WriteEffect s off v (s.withArgs a0 a1 a2 a3 cap)
  | reset : off = 0x008 → v.getLsbD 0 = true → WriteEffect s off v s.resetBlock

theorem writeReg_effect (s : State) (r : Reg) (v : Word) : WriteEffect s (regOffset r) v (s.writeReg r v) := by
  cases r with
  | cmd =>
    simp only [State.writeReg]
    split
    · exact .overrun
    · exact .issued
  | ctrl =>
    simp only [State.writeReg, State.writeCtrl]
    split
    · exact .reset rfl ‹_›
    · exact .ignored
  | arg0 | arg1 | arg2 | arg3 | maxCand =>
    simp only [State.writeReg]
    split
    · exact .overrun
    · exact .args _ _ _ _ _
  | _ => exact .ignored

theorem writeOffset_effect (s : State) (off : Nat) (v : Word) : WriteEffect s off v (s.writeOffset off v) := by
  unfold State.writeOffset
  split
  next r hr => exact regOffset_of_regAt hr ▸ writeReg_effect s r v
  next => exact .ignored

/-- All that a step can lead to, by the agent that moves (20_memory.md R70). -/
inductive StepEffect (s : State) : State → Prop
  | stay : StepEffect s s.popTurn
  | write (off v t) : s.hostDoes (.wr (s.platform.regBase + off) 4 v) → WriteEffect s.afterHost off v t → StepEffect s t
  | read (off) : StepEffect s (s.afterHost.logRead off)
  | poll (off) : StepEffect s (s.popTurn.logRead off)
  | hostStore (a : Word) (v) : StepEffect s { s.afterHost with mem := Memory.write s.mem a.toNat v }
  | busStore (a : Word) (v) : StepEffect s { s.popTurn with mem := Memory.write s.mem a.toNat v }
  | command (i t) : exec i s.popTurn = .next t → StepEffect s t
  | illegal (w) : StepEffect s (s.popTurn.raise .illegalCommand w)
  | hardReset : s.schedule.head? = some .hardReset → StepEffect s s.popTurn.resetBlock

/-- An access that reaches the block is an aligned 32-bit one (20_memory.md R64). -/
theorem accessOffset_eq {s : State} {addr width off : Nat} (h : s.accessOffset addr width = .ok off) :
    addr = s.platform.regBase + off ∧ width = 4 := by
  unfold State.accessOffset at h
  split at h
  next hin =>
    split at h
    next hwf =>
      cases h
      simp only [accessWellFormed, Bool.and_eq_true, beq_iff_eq] at hwf
      exact ⟨by omega, hwf.1⟩
    next => cases h
  next => cases h

theorem hostMoves_of_nextTurn {s : State} (h : s.nextTurn = .host) : s.hostMoves := by
  unfold State.nextTurn at h
  split at h
  next hs => exact .inr (by simp [hs, h])
  next hs =>
    split at h
    next => cases h
    next hb => exact .inl ⟨hs, (State.busy_false_iff s).1 (Bool.eq_false_iff.2 hb)⟩

theorem hostStep_effect {s t : State} (hm : s.hostMoves) (h : s.popTurn.hostStep = .next t) : StepEffect s t := by
  unfold State.hostStep at h
  split at h
  next => cases h; exact .stay
  next addr width v rest hp =>
    split at h
    next off ho =>
      cases h
      obtain ⟨rfl, rfl⟩ := accessOffset_eq ho
      exact .write off v _ ⟨hm, congrArg List.head? hp⟩ (writeOffset_effect s.afterHost off v)
    next => cases h
  next =>
    split at h
    next off _ => cases h; exact .read off
    next => cases h
  next =>
    cases h
    split
    · exact .poll _
    · exact .read _
  next a v rest _ =>
    obtain ⟨_, rfl⟩ := storeByte_next h
    exact .hostStore a v

theorem step_effect {s t : State} (h : step s = .next t) : StepEffect s t := by
  unfold step at h
  cases hn : s.nextTurn with
  | host => rw [hn] at h; exact hostStep_effect (hostMoves_of_nextTurn hn) h
  | core =>
    rw [hn] at h
    obtain ⟨_, rfl⟩ | ⟨_, ⟨i, _, hi⟩ | rfl⟩ := coreStep_next h
    · exact .stay
    · exact .command i t hi
    · exact .illegal _
  | hardReset =>
    rw [hn] at h
    cases h
    refine .hardReset ?_
    unfold State.nextTurn at hn
    split at hn
    next hs => simp [hs, hn]
    next => split at hn <;> cases hn
  | busWrite a v =>
    rw [hn] at h
    obtain ⟨_, rfl⟩ := storeByte_next h
    exact .busStore a v

/-- Every part of a step keeps `P`. -/
structure KeptByParts (P : State → Prop) : Prop where
  turn : ∀ {s}, P s → P s.popTurn
  access : ∀ {s}, P s → P s.popProgram
  read : ∀ {s} off, P s → P (s.logRead off)
  overrun : ∀ {s}, P s → P s.overrun
  issue : ∀ {s} v, P s → P (s.issue v)
  args : ∀ {s} a0 a1 a2 a3 cap, P s → P (s.withArgs a0 a1 a2 a3 cap)
  store : ∀ {s} (a : Word) v, P s → P { s with mem := Memory.write s.mem a.toNat v }
  illegal : ∀ {s} w, P s → P (s.raise .illegalCommand w)
  reset : ∀ {s}, P s → P s.resetBlock
  command : ∀ {s t i}, P s → Answer s i t → P t

theorem KeptByParts.write {P : State → Prop} (hP : KeptByParts P) {s t : State} {off : Nat} {v : Word} (hs : P s)
    (h : WriteEffect s off v t) : P t := by
  cases h with
  | ignored => exact hs
  | overrun => exact hP.overrun hs
  | issued => exact hP.issue v hs
  | args a0 a1 a2 a3 cap => exact hP.args a0 a1 a2 a3 cap hs
  | reset => exact hP.reset hs

/-- What every part of a step keeps, every step keeps. -/
theorem KeptByParts.step {P : State → Prop} (hP : KeptByParts P) {s t : State} (hs : P s) (h : step s = .next t) : P t := by
  have hturn : P s.popTurn := hP.turn hs
  have hhost : P s.afterHost := hP.access hturn
  cases step_effect h with
  | stay => exact hturn
  | write off v t _ hw => exact hP.write hhost hw
  | read off => exact hP.read off hhost
  | poll off => exact hP.read off hturn
  | hostStore a v => exact hP.store a v hhost
  | busStore a v => exact hP.store a v hturn
  | command i t hi => exact hP.command hturn (answer hi)
  | illegal w => exact hP.illegal w hturn
  | hardReset => exact hP.reset hturn

/-! ### The rolling-hash unit -/

/-- The rolling-hash invariant speaks of the unit's own registers and its removal table only. -/
theorem State.RhInv.congr {s t : State} (h : s.RhInv) (hm : t.rhMult = s.rhMult) (hv : t.rhValid = s.rhValid)
    (hw : t.rhW = s.rhW) (hr : t.remtab = s.remtab) : t.RhInv := by
  simpa only [State.RhInv, State.removal, hm, hv, hw, hr] using h

theorem rhInv_of_invalid {s : State} (hm : s.rhMult = 0) (hv : s.rhValid = false) : s.RhInv :=
  ⟨by rw [hm]; decide, fun h => by simp [hv] at h⟩

/-- A window's multiplier and removal table, as RH_INIT sets them, meet the invariant (40_rolling_hash.md R110). -/
theorem rhInv_of_multW {s : State} (hw : 3 ≤ s.rhW.toNat) (hm : s.rhMult = BitVec.ofNat 32 (multW s.rhW.toNat))
    (hr : s.remtab = removalTable (multW s.rhW.toNat)) : s.RhInv := by
  have hclosed : multW s.rhW.toNat = multClosed s.rhW.toNat := multW_eq _ s.rhW.isLt.le
  have hlt : multW s.rhW.toNat < 2 ^ 23 := by rw [hclosed]; exact Nat.mod_lt _ (by decide)
  have hnat : s.rhMult.toNat = multW s.rhW.toNat := by rw [hm, BitVec.toNat_ofNat]; omega
  refine ⟨by omega, fun _ => ⟨hw, by rw [hnat, hclosed], fun v => ?_⟩⟩
  rw [State.removal, hr, removalTable_get, hnat]

theorem answer_keeps_rhInv {s t : State} {i : Instr} (h : s.RhInv) (ha : Answer s i t) : t.RhInv := by
  cases ha with
  | initBad => exact rhInv_of_invalid rfl rfl
  | initOk m hw hm => subst hm; exact rhInv_of_multW hw rfl rfl
  | add b => exact h.congr (by simp) (by simp) (by simp) (by simp)
  | _ => exact h.congr rfl rfl rfl rfl

theorem rhInv_kept : KeptByParts State.RhInv where
  turn := id
  access := id
  read _ := id
  overrun := id
  issue _ := id
  args _ _ _ _ _ := id
  store _ _ := id
  illegal _ := id
  reset _ := rhInv_of_invalid rfl rfl
  command := answer_keeps_rhInv

/-- Settles O55, by the parts of a step: only RH_INIT and a reset write the unit. -/
theorem everyStepKeepsTheRollingHashUnit : Obligations.EveryStepKeepsTheRollingHashUnit :=
  fun _ _ => rhInv_kept.step

/-! ### Chains in general -/

/-- A walk reads `NEXT` of its own blocks only. -/
theorem walk_congr {s t : State} : ∀ {cs : List Nat} {c : Word}, (∀ x ∈ cs, t.nextOf x = s.nextOf x) →
    (t.Walk cs c ↔ s.Walk cs c)
  | [], _, _ => Iff.rfl
  | x :: rest, c, h => by
    simp only [State.Walk, h x (by simp)]
    rw [walk_congr fun y hy => h y (by simp [hy])]

/-- A walk that can be lengthened: the last block's `NEXT` now names a block whose own `NEXT` is `NONE`. -/
theorem walk_concat {s t : State} {tail : Nat} {b : Word} (hb : b ≠ noneWord) (htail : t.nextOf tail = b)
    (hnext : t.nextOf b.toNat = noneWord) (hne : ∀ x, x ≠ tail → t.nextOf x = s.nextOf x) :
    ∀ {cs : List Nat} {c : Word}, s.Walk cs c → cs.Pairwise (· < ·) → cs.getLast? = some tail → t.Walk (cs ++ [b.toNat]) c
  | [], _, _, _, hl => by simp at hl
  | [x], _, ⟨hc, hx, _⟩, _, hl => by
    obtain rfl : x = tail := by simpa using hl
    exact ⟨hc, hx, by rw [htail]; exact ⟨hb, rfl, hnext⟩⟩
  | x :: y :: rest, _, ⟨hc, hx, hw⟩, hp, hl => by
    rw [List.pairwise_cons] at hp
    rw [List.getLast?_cons_cons] at hl
    have hlt : x < tail := hp.1 tail (List.mem_of_getLast? hl)
    exact ⟨hc, hx, by rw [hne x hlt.ne]; exact walk_concat hb htail hnext hne hw hp.2 hl⟩

theorem walk_head? {s : State} {cs : List Nat} {c : Word} (h : s.Walk cs c) :
    cs.head? = if c = noneWord then none else some c.toNat := by
  cases cs with
  | nil => simp [show c = noneWord from h]
  | cons x rest =>
    obtain ⟨hc, hx, _⟩ := h
    rw [if_neg hc, hx, List.head?_cons]

theorem walk_head_mem {s : State} {cs : List Nat} {c : Word} (h : s.Walk cs c) (hc : c ≠ noneWord) : c.toNat ∈ cs := by
  have hhead := walk_head? h
  rw [if_neg hc] at hhead
  exact List.mem_of_mem_head? hhead

/-! ### The chains of one state -/

section
variable {s : State} (h : s.Chains)
include h

/-- What R44 says of a bucket's chain holds of any walk of it. -/
theorem State.Chains.of_walk {k : Nat} {cs : List Nat} (hk : k < s.ixTblsiz.toNat) (hw : s.Walk cs (s.head k)) :
    cs.Pairwise (· < ·) ∧ (∀ x ∈ cs, s.Indexed x) ∧
      ∀ hd tl, cs.head? = some hd → cs.getLast? = some tl → (s.lastOf hd).toNat = tl := by
  obtain ⟨cs', hw', hcs'⟩ := h.chain k hk
  obtain rfl := walk_unique hw hw'
  exact hcs'

theorem State.Chains.indexed_of_mem {k x : Nat} {cs : List Nat} (hk : k < s.ixTblsiz.toNat) (hw : s.Walk cs (s.head k))
    (hx : x ∈ cs) : s.Indexed x := by
  obtain ⟨_, hidx, _⟩ := h.of_walk hk hw
  exact hidx x hx

theorem State.Chains.bucket_unique {k k' x : Nat} {cs cs' : List Nat} (hk : k < s.ixTblsiz.toNat)
    (hk' : k' < s.ixTblsiz.toNat) (hw : s.Walk cs (s.head k)) (hw' : s.Walk cs' (s.head k')) (hx : x ∈ cs) (hx' : x ∈ cs') :
    k = k' :=
  (h.once x (h.indexed_of_mem hk hw hx)).unique ⟨hk, cs, hw, hx⟩ ⟨hk', cs', hw', hx'⟩

end

/-- The block `Append` goes behind in bucket `k`, as `LAST` of the head names it (41_block_index.md R124). -/
def State.tail (s : State) (k : Nat) : Nat := (s.lastOf (s.head k).toNat).toNat

/-- The tail of a chain that is not empty is its last block. -/
theorem State.Chains.getLast?_eq_tail {s : State} (h : s.Chains) {k : Nat} {cs : List Nat} (hk : k < s.ixTblsiz.toNat)
    (hw : s.Walk cs (s.head k)) (hhd : s.head k ≠ noneWord) : cs.getLast? = some (s.tail k) := by
  have hhead := walk_head? hw
  rw [if_neg hhd] at hhead
  obtain ⟨_, _, hlast⟩ := h.of_walk hk hw
  cases hl : cs.getLast? with
  | none => simp [List.getLast?_eq_none_iff.1 hl] at hhead
  | some tl => rw [State.tail, hlast _ _ hhead hl]

theorem State.Chains.tail_mem {s : State} (h : s.Chains) {k : Nat} {cs : List Nat} (hk : k < s.ixTblsiz.toNat)
    (hw : s.Walk cs (s.head k)) (hhd : s.head k ≠ noneWord) : s.tail k ∈ cs :=
  List.mem_of_getLast? (h.getLast?_eq_tail hk hw hhd)

theorem State.Chains.indexed_tail {s : State} (h : s.Chains) {k : Nat} (hk : k < s.ixTblsiz.toNat)
    (hhd : s.head k ≠ noneWord) : s.Indexed (s.tail k) := by
  obtain ⟨cs, hw, _⟩ := h.chain k hk
  exact h.indexed_of_mem hk hw (h.tail_mem hk hw hhd)

theorem State.Chains.indexed_head {s : State} (h : s.Chains) {k : Nat} (hk : k < s.ixTblsiz.toNat)
    (hhd : s.head k ≠ noneWord) : s.Indexed (s.head k).toNat := by
  obtain ⟨cs, hw, _⟩ := h.chain k hk
  exact h.indexed_of_mem hk hw (walk_head_mem hw hhd)

/-- The blocks below the next one are the indexed ones. -/
theorem indexed_iff_lt_nextBlock {s : State} {x : Nat} : s.Indexed x ↔ x < s.nextBlock.toNat := by
  unfold State.Indexed State.nextBlock
  by_cases hl : s.ixLastblk = noneWord
  · simp [hl]
  · have hmax : s.ixLastblk.toNat ≠ noneWord.toNat := fun he => hl (BitVec.eq_of_toNat_eq he)
    rw [none_toNat] at hmax
    have hnext : (s.ixLastblk + 1).toNat = s.ixLastblk.toNat + 1 := by
      have := s.ixLastblk.isLt
      rw [BitVec.toNat_add]
      exact Nat.mod_eq_of_lt (by show _ + 1 < _; omega)
    rw [hnext]
    exact ⟨fun hx => by omega, fun hx => ⟨hl, by omega⟩⟩

theorem State.Chains.tail_lt_nextBlock {s : State} (h : s.Chains) {k : Nat} (hk : k < s.ixTblsiz.toNat)
    (hhd : s.head k ≠ noneWord) : s.tail k < s.nextBlock.toNat :=
  indexed_iff_lt_nextBlock.1 (h.indexed_tail hk hhd)

theorem State.Chains.nextBlock_unindexed {s : State} (h : s.Chains) (hlt : s.nextBlock.toNat < s.ixNblk.toNat) :
    s.nextOf s.nextBlock.toNat = noneWord ∧ s.lastOf s.nextBlock.toNat = noneWord :=
  h.unindexed _ hlt fun hi => lt_irrefl _ (indexed_iff_lt_nextBlock.1 hi)

/-! ### A new index -/

/-- An index with no block in it meets R44. -/
theorem chains_of_empty {s : State} (hl : s.ixLastblk = noneWord) (hhead : ∀ k, k < s.ixTblsiz.toNat → s.head k = noneWord)
    (hrest : ∀ b, b < s.ixNblk.toNat → s.nextOf b = noneWord ∧ s.lastOf b = noneWord) : s.Chains where
  lastInRange := .inl hl
  chain k hk := ⟨[], hhead k hk, by simp, by simp, by simp⟩
  once _ hb := absurd hl hb.1
  unindexed b hb _ := hrest b hb
  notHead _ hb _ := absurd hl hb.1

/-- IX_INIT's geometry and cleared arrays make an index with no block in it (41_block_index.md R125). -/
theorem chains_withEmptyIndex (s : State) (rb n : Word) (nb ts : Nat) :
    ((s.withGeometry rb n nb ts).withEmptyIndex nb ts).Chains := by
  have hle : ∀ m : Nat, (BitVec.ofNat 32 m).toNat ≤ m := fun m => by rw [BitVec.toNat_ofNat]; exact Nat.mod_le _ _
  refine chains_of_empty rfl (fun k hk => ?_) (fun b hb => ⟨?_, ?_⟩)
  · have : k < ts := lt_of_lt_of_le hk (hle ts)
    simp [State.head, Sparse.get_clearBelow, this]
  · have : b < nb := lt_of_lt_of_le hb (hle nb)
    simp [State.nextOf, Sparse.get_clearBelow, this]
  · have : b < nb := lt_of_lt_of_le hb (hle nb)
    simp [State.lastOf, Sparse.get_clearBelow, this]

/-! ### One more block -/

/-- The index with the next block appended to bucket `k`, as IX_ADD leaves it (41_block_index.md R127). -/
def State.withNextBlock (s : State) (k : Nat) : State := { s.append k s.nextBlock with ixLastblk := s.nextBlock }

section
variable {s : State} {k : Nat}

theorem withNextBlock_head_ne {k' : Nat} (h : k' ≠ k) : (s.withNextBlock k).head k' = s.head k' := by
  show (s.append k s.nextBlock).head k' = _
  by_cases hhd : s.head k = noneWord
  · rw [append_empty _ hhd]; exact Sparse.get_set_ne _ _ h _
  · rw [append_behind _ hhd]; rfl

theorem withNextBlock_head_of_ne_none (hhd : s.head k ≠ noneWord) (k' : Nat) : (s.withNextBlock k).head k' = s.head k' := by
  show (s.append k s.nextBlock).head k' = _
  rw [append_behind _ hhd]; rfl

theorem withNextBlock_head_of_none (hb : s.nextBlock ≠ noneWord) (hhd : s.head k = noneWord) :
    (s.withNextBlock k).head k = s.nextBlock := by
  show (s.append k s.nextBlock).head k = _
  rw [append_empty _ hhd]; exact Sparse.get_set_self_of_ne _ hb _ _

theorem withNextBlock_nextOf_of_none (hhd : s.head k = noneWord) (x : Nat) : (s.withNextBlock k).nextOf x = s.nextOf x := by
  show (s.append k s.nextBlock).nextOf x = _
  rw [append_empty _ hhd]; rfl

theorem withNextBlock_nextOf_ne {x : Nat} (hx : s.head k ≠ noneWord → x ≠ s.tail k) :
    (s.withNextBlock k).nextOf x = s.nextOf x := by
  by_cases hhd : s.head k = noneWord
  · exact withNextBlock_nextOf_of_none hhd x
  · show (s.append k s.nextBlock).nextOf x = _
    rw [append_behind _ hhd]; exact Sparse.get_set_ne _ _ (hx hhd) _

theorem withNextBlock_nextOf_tail (hb : s.nextBlock ≠ noneWord) (hhd : s.head k ≠ noneWord) :
    (s.withNextBlock k).nextOf (s.tail k) = s.nextBlock := by
  show (s.append k s.nextBlock).nextOf _ = _
  rw [append_behind _ hhd]; exact Sparse.get_set_self_of_ne _ hb _ _

/-- `LAST` changes at the head of bucket `k`, old or new, only. -/
theorem withNextBlock_lastOf (hb : s.nextBlock ≠ noneWord) (x : Nat) :
    (s.withNextBlock k).lastOf x = if x = ((s.withNextBlock k).head k).toNat then s.nextBlock else s.lastOf x := by
  have hset : ∀ a, Sparse.get noneWord (Sparse.set noneWord s.lastTab a s.nextBlock) x =
      if x = a then s.nextBlock else s.lastOf x := by
    intro a
    split
    next hx => subst hx; exact Sparse.get_set_self_of_ne _ hb _ _
    next hx => exact Sparse.get_set_ne _ _ hx _
  by_cases hhd : s.head k = noneWord
  · rw [withNextBlock_head_of_none hb hhd, ← hset]
    show (s.append k s.nextBlock).lastOf x = _
    rw [append_empty _ hhd]; rfl
  · rw [withNextBlock_head_of_ne_none hhd, ← hset]
    show (s.append k s.nextBlock).lastOf x = _
    rw [append_behind _ hhd]; rfl

@[simp] theorem withNextBlock_ixNblk : (s.withNextBlock k).ixNblk = s.ixNblk := State.append_ixNblk _ _ _
@[simp] theorem withNextBlock_ixTblsiz : (s.withNextBlock k).ixTblsiz = s.ixTblsiz := State.append_ixTblsiz _ _ _

theorem withNextBlock_indexed (hb : s.nextBlock ≠ noneWord) {x : Nat} :
    (s.withNextBlock k).Indexed x ↔ x ≤ s.nextBlock.toNat :=
  ⟨fun hx => hx.2, fun hx => ⟨hb, hx⟩⟩

end

/-- From the next block on, `NEXT` is as it was. -/
theorem withNextBlock_nextOf_ge {s : State} {k x : Nat} (h : s.Chains) (hk : k < s.ixTblsiz.toNat)
    (hx : s.nextBlock.toNat ≤ x) : (s.withNextBlock k).nextOf x = s.nextOf x :=
  withNextBlock_nextOf_ne fun hhd => by have := h.tail_lt_nextBlock hk hhd; omega

/-- The chain of bucket `k'` once `b` is appended to bucket `k`. -/
def chainWith (k : Nat) (b : Word) (k' : Nat) (cs : List Nat) : List Nat := if k' = k then cs ++ [b.toNat] else cs

theorem mem_chainWith {k k' x : Nat} {b : Word} {cs : List Nat} :
    x ∈ chainWith k b k' cs ↔ x ∈ cs ∨ (k' = k ∧ x = b.toNat) := by
  unfold chainWith
  split <;> simp_all

section
variable {s : State} {k : Nat} (h : s.Chains) (hk : k < s.ixTblsiz.toNat) (hlt : s.nextBlock.toNat < s.ixNblk.toNat)
include h hk hlt

theorem withNextBlock_head_le : ((s.withNextBlock k).head k).toNat ≤ s.nextBlock.toNat := by
  by_cases hhd : s.head k = noneWord
  · rw [withNextBlock_head_of_none (ne_none_of_lt hlt) hhd]
  · rw [withNextBlock_head_of_ne_none hhd]
    exact (indexed_iff_lt_nextBlock.1 (h.indexed_head hk hhd)).le

/-- Bucket `k`'s chain grows by the next block at its end, and every other chain stays. -/
theorem withNextBlock_walk {k' : Nat} {cs : List Nat} (hk' : k' < s.ixTblsiz.toNat) (hw : s.Walk cs (s.head k')) :
    (s.withNextBlock k).Walk (chainWith k s.nextBlock k' cs) ((s.withNextBlock k).head k') := by
  have hb := ne_none_of_lt hlt
  have hnext : (s.withNextBlock k).nextOf s.nextBlock.toNat = noneWord := by
    rw [withNextBlock_nextOf_ge h hk le_rfl, (h.nextBlock_unindexed hlt).1]
  unfold chainWith
  split
  next heq =>
    subst heq
    by_cases hhd : s.head k' = noneWord
    · obtain rfl : cs = [] := walk_unique hw (by rw [hhd]; rfl)
      rw [withNextBlock_head_of_none hb hhd]
      exact ⟨hb, rfl, hnext⟩
    · rw [withNextBlock_head_of_ne_none hhd]
      exact walk_concat hb (withNextBlock_nextOf_tail hb hhd) hnext (fun x hx => withNextBlock_nextOf_ne fun _ => hx) hw
        (h.of_walk hk' hw).1 (h.getLast?_eq_tail hk' hw hhd)
  next hne =>
    rw [withNextBlock_head_ne hne, walk_congr fun x hx => withNextBlock_nextOf_ne fun hhd => ?_]
    · exact hw
    · rintro rfl
      obtain ⟨cs', hw', _⟩ := h.chain k hk
      exact hne (h.bucket_unique hk' hk hw hw' hx (h.tail_mem hk hw' hhd))

/-- (b) of R44 in the longer index. -/
theorem withNextBlock_chain {k' : Nat} (hk' : k' < s.ixTblsiz.toNat) :
    ∃ cs, (s.withNextBlock k).Walk cs ((s.withNextBlock k).head k') ∧ cs.Pairwise (· < ·) ∧
      (∀ x ∈ cs, (s.withNextBlock k).Indexed x) ∧
      ∀ hd tl, cs.head? = some hd → cs.getLast? = some tl → ((s.withNextBlock k).lastOf hd).toNat = tl := by
  have hb := ne_none_of_lt hlt
  obtain ⟨cs, hw, hp, hidx, hlast⟩ := h.chain k' hk'
  have hbelow : ∀ x ∈ cs, x < s.nextBlock.toNat := fun x hx => indexed_iff_lt_nextBlock.1 (hidx x hx)
  have hw' := withNextBlock_walk h hk hlt hk' hw
  refine ⟨_, hw', ?_, fun x hx => ?_, fun hd tl hhd htl => ?_⟩
  · unfold chainWith
    split
    · simpa [List.pairwise_append, hp] using hbelow
    · exact hp
  · rw [withNextBlock_indexed hb]
    obtain hx | ⟨_, rfl⟩ := mem_chainWith.1 hx
    · exact (hbelow x hx).le
    · exact le_rfl
  · rw [withNextBlock_lastOf hb]
    by_cases heq : k' = k
    · subst heq
      rw [walk_head? hw'] at hhd
      obtain rfl : ((s.withNextBlock k').head k').toNat = hd := by
        split at hhd
        · cases hhd
        · exact Option.some.inj hhd
      simpa [chainWith] using htl
    · simp only [chainWith, heq, if_false] at hhd htl
      have hmem : hd ∈ cs := List.mem_of_mem_head? hhd
      rw [if_neg, hlast hd tl hhd htl]
      rintro rfl
      by_cases hnone : s.head k = noneWord
      · rw [withNextBlock_head_of_none hb hnone] at hmem
        exact lt_irrefl _ (hbelow _ hmem)
      · rw [withNextBlock_head_of_ne_none hnone] at hmem
        obtain ⟨cs', hwk, _⟩ := h.chain k hk
        exact heq (h.bucket_unique hk' hk hw hwk hmem (walk_head_mem hwk hnone))

/-- The blocks of each longer chain. -/
theorem withNextBlock_mem {k' x : Nat} (hk' : k' < s.ixTblsiz.toNat) :
    (∃ cs, (s.withNextBlock k).Walk cs ((s.withNextBlock k).head k') ∧ x ∈ cs) ↔
      (∃ cs, s.Walk cs (s.head k') ∧ x ∈ cs) ∨ (k' = k ∧ x = s.nextBlock.toNat) := by
  obtain ⟨cs, hw, _⟩ := h.chain k' hk'
  have hw' := withNextBlock_walk h hk hlt hk' hw
  calc (∃ cs, (s.withNextBlock k).Walk cs ((s.withNextBlock k).head k') ∧ x ∈ cs)
      ↔ x ∈ chainWith k s.nextBlock k' cs := ⟨fun ⟨_, hw2, hx⟩ => walk_unique hw2 hw' ▸ hx, fun hx => ⟨_, hw', hx⟩⟩
    _ ↔ x ∈ cs ∨ (k' = k ∧ x = s.nextBlock.toNat) := mem_chainWith
    _ ↔ _ := or_congr_left ⟨fun hx => ⟨cs, hw, hx⟩, fun ⟨_, hw2, hx⟩ => walk_unique hw2 hw ▸ hx⟩

/-- (c) of R44 in the longer index. -/
theorem withNextBlock_once {x : Nat} (hx : (s.withNextBlock k).Indexed x) :
    ∃! k', k' < s.ixTblsiz.toNat ∧ ∃ cs, (s.withNextBlock k).Walk cs ((s.withNextBlock k).head k') ∧ x ∈ cs := by
  have hmem : ∀ k', (k' < s.ixTblsiz.toNat ∧ ∃ cs, (s.withNextBlock k).Walk cs ((s.withNextBlock k).head k') ∧ x ∈ cs) ↔
      k' < s.ixTblsiz.toNat ∧ ((∃ cs, s.Walk cs (s.head k') ∧ x ∈ cs) ∨ (k' = k ∧ x = s.nextBlock.toNat)) :=
    fun k' => and_congr_right (withNextBlock_mem h hk hlt)
  simp only [hmem]
  obtain hold | rfl := lt_or_eq_of_le ((withNextBlock_indexed (ne_none_of_lt hlt)).1 hx)
  · simpa [hold.ne] using h.once x (indexed_iff_lt_nextBlock.2 hold)
  · refine ⟨k, ⟨hk, .inr ⟨rfl, rfl⟩⟩, ?_⟩
    rintro k' ⟨hk', ⟨cs, hw, hx⟩ | ⟨rfl, _⟩⟩
    · exact absurd (indexed_iff_lt_nextBlock.1 (h.indexed_of_mem hk' hw hx)) (lt_irrefl _)
    · rfl

/-- An append keeps R44. -/
theorem withNextBlock_chains : (s.withNextBlock k).Chains where
  lastInRange := .inr (by rw [withNextBlock_ixNblk]; exact hlt)
  chain k' hk' := withNextBlock_chain h hk hlt (by rwa [withNextBlock_ixTblsiz] at hk')
  once x hx := by rw [withNextBlock_ixTblsiz]; exact withNextBlock_once h hk hlt hx
  unindexed x hx hu := by
    have hb := ne_none_of_lt hlt
    rw [withNextBlock_indexed hb, not_le] at hu
    have hhead := withNextBlock_head_le h hk hlt
    rw [withNextBlock_nextOf_ge h hk hu.le, withNextBlock_lastOf hb, if_neg (by omega)]
    exact h.unindexed x (by rwa [withNextBlock_ixNblk] at hx) fun hi => by
      have := indexed_iff_lt_nextBlock.1 hi
      omega
  notHead x hx hno := by
    have hb := ne_none_of_lt hlt
    rw [withNextBlock_ixTblsiz] at hno
    rw [withNextBlock_lastOf hb, if_neg (hno k hk).symm]
    obtain hold | rfl := lt_or_eq_of_le ((withNextBlock_indexed hb).1 hx)
    · refine h.notHead x (indexed_iff_lt_nextBlock.2 hold) fun k' hk' => ?_
      by_cases hnone : k' = k ∧ s.head k = noneWord
      · obtain ⟨rfl, hnone⟩ := hnone
        rw [hnone, none_toNat]
        have := s.ixNblk.isLt
        omega
      · have hsame : (s.withNextBlock k).head k' = s.head k' := by
          by_cases heq : k' = k
          · exact withNextBlock_head_of_ne_none (fun hn => hnone ⟨heq, hn⟩) k'
          · exact withNextBlock_head_ne heq
        rw [← hsame]
        exact hno k' hk'
    · exact (h.nextBlock_unindexed hlt).2

end

/-! ### The index unit -/

/-- The registers and arrays that the index's invariant speaks of, IX_VALID apart. -/
def State.indexFields (s : State) :=
  (s.rhValid, s.rhW, s.platform, s.ixRefBase, s.ixRefLen, s.ixNblk, s.ixTblsiz, s.ixLastblk, s.headTab, s.nextTab, s.lastTab)

theorem State.Chains.congr {s t : State} (h : s.Chains) (hnblk : t.ixNblk = s.ixNblk) (htbl : t.ixTblsiz = s.ixTblsiz)
    (hlb : t.ixLastblk = s.ixLastblk) (hheads : t.headTab = s.headTab) (hnexts : t.nextTab = s.nextTab)
    (hlasts : t.lastTab = s.lastTab) : t.Chains := by
  have hnext : t.nextOf = s.nextOf := by funext b; simp only [State.nextOf, hnexts]
  have hwalk : t.Walk = s.Walk := by funext cs c; exact propext (walk_congr fun x _ => congrFun hnext x)
  have hhead : t.head = s.head := by funext k; simp only [State.head, hheads]
  have hlast : t.lastOf = s.lastOf := by funext b; simp only [State.lastOf, hlasts]
  have hidx : t.Indexed = s.Indexed := by funext b; simp only [State.Indexed, hlb]
  obtain ⟨ha, hb, hc, hd, he⟩ := h
  constructor <;> simp only [hwalk, hhead, hlast, hidx, hnext, hlb, hnblk, htbl] <;> assumption

/-- The index's invariant goes over to a state with the same index, valid only if it was. -/
theorem State.IxInv.congr {s t : State} (h : s.IxInv) (hv : t.ixValid = true → s.ixValid = true)
    (hf : t.indexFields = s.indexFields) : t.IxInv := by
  intro htv
  obtain ⟨hrh, hgeo, hch⟩ := h (hv htv)
  simp only [State.indexFields, Prod.mk.injEq] at hf
  obtain ⟨hrv, hw, hp, hbase, hlen, hnblk, htbl, hlb, hheads, hnexts, hlasts⟩ := hf
  refine ⟨hrv ▸ hrh, ?_, hch.congr hnblk htbl hlb hheads hnexts hlasts⟩
  simpa only [State.Geometry, hw, hp, hbase, hlen, hnblk, htbl] using hgeo

theorem ixInv_of_invalid {s : State} (h : s.ixValid = false) : s.IxInv := fun hv => by simp [h] at hv

/-- An error leaves the index as it was, or makes it invalid (60_exceptions.md R242). -/
theorem State.IxInv.raise {s : State} (h : s.IxInv) (e : ErrKind) (info : Word) : (s.raise e info).IxInv :=
  h.congr (by simp) rfl

/-- IX_INIT's registers, its checks passed, have the geometry of 41_block_index.md R120 to R122. -/
theorem geometry_withGeometry {s : State} {rb n : Word} {nb ts : Nat} (hnb : nb = n.toNat / s.rhW.toNat)
    (hts : ts = tableSize n.toNat) (hn : n ≠ 0) (htop : rb.toNat + n.toNat ≤ 2 ^ 32) (hcap : nb ≤ s.platform.maxBlocks.toNat)
    (htcap : ts ≤ s.platform.maxTblsiz.toNat) : (s.withGeometry rb n nb ts).Geometry := by
  have hnat : ∀ {m : Nat} {w : Word}, m ≤ w.toNat → (BitVec.ofNat 32 m).toNat = m := fun {m w} hm => by
    rw [BitVec.toNat_ofNat]
    exact Nat.mod_eq_of_lt (lt_of_le_of_lt hm w.isLt)
  refine ⟨hn, htop, ?_, ?_, ?_, ?_⟩
  · simpa [hnat hcap] using hnb
  · simpa [hnat htcap] using hts
  · simpa [hnat hcap] using hcap
  · simpa [hnat htcap] using htcap

/-- The bucket of a hash is one of the table's (41_block_index.md R121 and R123). -/
theorem State.Geometry.bucket_lt {s : State} (h : s.Geometry) (x : Word) : s.bucket x < s.ixTblsiz.toNat := by
  obtain ⟨_, _, _, hts, _, _⟩ := h
  obtain ⟨j, hj, _, _⟩ := tableSize_spec s.ixRefLen.toNat s.ixRefLen.isLt
  have hpow : s.ixTblsiz.toNat = 2 ^ j := hts.trans hj
  rw [bucket_eq hpow]
  exact Nat.mod_lt _ (hpow ▸ Nat.two_pow_pos j)

theorem State.IxInv.withNextBlock {s : State} (h : s.IxInv) (hv : s.ixValid = true)
    (hlt : s.nextBlock.toNat < s.ixNblk.toNat) (x : Word) : (s.withNextBlock (s.bucket x)).IxInv := by
  obtain ⟨hrh, hgeo, hch⟩ := h hv
  refine fun _ => ⟨?_, ?_, withNextBlock_chains hch (hgeo.bucket_lt x) hlt⟩
  · simpa [State.withNextBlock] using hrh
  · simpa [State.withNextBlock, State.Geometry] using hgeo

theorem answer_keeps_ixInv {s t : State} {i : Instr} (h : s.IxInv) (ha : Answer s i t) : t.IxInv := by
  cases ha with
  | err => exact h.raise _ _
  | fault => exact h.raise _ _
  | invalid => exact h.raise _ _
  | ok => exact h.congr id rfl
  | initBad => exact ixInv_of_invalid rfl
  | initOk => exact ixInv_of_invalid rfl
  | ixErr => exact (ixInv_of_invalid rfl).raise _ _
  | ixAlloc => exact (ixInv_of_invalid rfl).raise _ _
  | ixOk rb n nb ts hrh _ _ hnb hts hn htop hcap htcap =>
    have hgeo := geometry_withGeometry (s := { s with ixValid := false }) hnb hts hn htop hcap htcap
    have hempty : ((({ s with ixValid := false } : State).withGeometry rb n nb ts).withEmptyIndex nb ts).IxInv :=
      fun _ => ⟨hrh, hgeo, chains_withEmptyIndex _ rb n nb ts⟩
    exact hempty.congr id rfl
  | add b hv hb hlt =>
    subst hb
    exact (h.withNextBlock hv hlt s.pend.a1).congr id rfl

theorem ixInv_kept : KeptByParts State.IxInv where
  turn h := h.congr id rfl
  access h := h.congr id rfl
  read _ h := h.congr id rfl
  overrun h := h.congr id rfl
  issue _ h := h.congr id rfl
  args _ _ _ _ _ h := h.congr id rfl
  store _ _ h := h.congr id rfl
  illegal w h := h.raise _ w
  reset _ := ixInv_of_invalid rfl
  command := answer_keeps_ixInv

/-! ### STATUS and the canonical form -/

theorem ErrKind.code_le_nine (e : ErrKind) : e.code.toNat ≤ 9 := by cases e <;> decide

theorem statusInv_of_idle {s : State} (he : s.lastErr.toNat ≤ 9) (hi : s.seq = .idle) : s.StatusInv :=
  ⟨he, fun hb => by simp [hi] at hb⟩

theorem statusInv_raise (s : State) (e : ErrKind) (info : Word) : (s.raise e info).StatusInv :=
  statusInv_of_idle e.code_le_nine rfl

theorem statusInv_complete (s : State) (r0 r1 r2 r3 : Word) : (s.complete r0 r1 r2 r3).StatusInv :=
  statusInv_of_idle (Nat.zero_le 9) rfl

theorem answer_statusInv {s t : State} {i : Instr} (ha : Answer s i t) : t.StatusInv := by
  cases ha with
  | ok | initOk | ixOk | add => exact statusInv_complete _ _ _ _ _
  | _ => exact statusInv_raise _ _ _

theorem statusInv_kept : KeptByParts State.StatusInv where
  turn := id
  access := id
  read _ := id
  overrun := id
  issue _ h := ⟨h.1, fun _ => ⟨rfl, rfl, rfl⟩⟩
  args _ _ _ _ _ := id
  store _ _ := id
  illegal _ _ := statusInv_raise _ _ _
  reset _ := statusInv_of_idle (Nat.zero_le 9) rfl
  command _ ha := answer_statusInv ha

theorem append_canonical {s : State} (h : s.Canonical) (k : Nat) (b : Word) : (s.append k b).Canonical := by
  obtain ⟨hmem, hheads, hnexts, hlasts⟩ := h
  by_cases hhd : s.head k = noneWord
  · rw [append_empty b hhd]
    exact ⟨hmem, Sparse.set_wf _ _ _ hheads, hnexts, Sparse.set_wf _ _ _ hlasts⟩
  · rw [append_behind b hhd]
    exact ⟨hmem, hheads, Sparse.set_wf _ _ _ hnexts, Sparse.set_wf _ _ _ hlasts⟩

theorem answer_keeps_canonical {s t : State} {i : Instr} (h : s.Canonical) (ha : Answer s i t) : t.Canonical := by
  cases ha with
  | ixOk =>
    obtain ⟨hmem, hheads, hnexts, hlasts⟩ := h
    exact ⟨hmem, Sparse.clearBelow_wf _ _ hheads, Sparse.clearBelow_wf _ _ hnexts, Sparse.clearBelow_wf _ _ hlasts⟩
  | add b => exact append_canonical h _ b
  | _ => exact h

theorem canonical_kept : KeptByParts State.Canonical where
  turn := id
  access := id
  read _ := id
  overrun := id
  issue _ := id
  args _ _ _ _ _ := id
  store a v h := ⟨Memory.write_wf _ a v h.1, h.2⟩
  illegal _ := id
  reset h := ⟨h.1, freeArray_wf _, freeArray_wf _, freeArray_wf _⟩
  command := answer_keeps_canonical

/-- Settles O56, each of the invariant's four parts being kept by every part of a step. -/
theorem everyStepKeepsTheInvariant : Obligations.EveryStepKeepsTheInvariant :=
  fun _ _ h hs =>
    { canonical := canonical_kept.step h.canonical hs
      status := statusInv_kept.step h.status hs
      rh := rhInv_kept.step h.rh hs
      ix := ixInv_kept.step h.ix hs }

/-! ### What clears ERR and OVR -/

/-- ERR and OVR of `t` are at least those of `s`. -/
def State.StickyTo (s t : State) : Prop := (s.err = true → t.err = true) ∧ (s.ovr = true → t.ovr = true)

theorem State.StickyTo.of_eq {s t : State} (he : t.err = s.err) (ho : t.ovr = s.ovr) : s.StickyTo t :=
  ⟨fun h => he.trans h, fun h => ho.trans h⟩

/-- An error sets ERR and leaves OVR (60_exceptions.md R241). -/
theorem State.StickyTo.of_raised {s t : State} (he : t.err = true) (ho : t.ovr = s.ovr) : s.StickyTo t :=
  ⟨fun _ => he, fun h => ho.trans h⟩

theorem answer_sticky {s t : State} {i : Instr} (ha : Answer s i t) : s.StickyTo t := by
  cases ha with
  | ok | initOk | ixOk => exact .of_eq rfl rfl
  | add => exact .of_eq (by simp) (by simp)
  | _ => exact .of_raised rfl rfl

/-- A host write clears neither, unless it is a soft reset (44_control.md R185). -/
theorem WriteEffect.sticky {s t : State} {off : Nat} {v : Word} (h : WriteEffect s off v t)
    (hno : off = 0x008 → v.getLsbD 0 = false) : s.StickyTo t := by
  cases h with
  | ignored | issued | args => exact .of_eq rfl rfl
  | overrun => exact ⟨id, fun _ => rfl⟩
  | reset hoff hv => exact absurd ((hno hoff).symm.trans hv) (by decide)

/-- Settles O19, by what a step can lead to: only the two resets write ERR or OVR with 0. -/
theorem onlyResetClearsStickyBits : Obligations.OnlyResetClearsStickyBits := by
  intro s t hs hhard hsoft
  show s.StickyTo t
  cases step_effect hs with
  | stay | read | poll | hostStore | busStore => exact .of_eq rfl rfl
  | write off v _ hdoes hw =>
    have hsticky : s.afterHost.StickyTo t := hw.sticky fun hoff => hsoft v (hoff ▸ hdoes)
    exact hsticky
  | command i _ hi =>
    have hsticky : s.popTurn.StickyTo t := answer_sticky (answer hi)
    exact hsticky
  | illegal => exact .of_raised rfl rfl
  | hardReset h => exact absurd h hhard

/-! ### What a command leaves alone, and what it does not read -/

/-- Settles O25, over the shapes of a completion. -/
theorem commandsLeaveArgumentsAndHostAlone : Obligations.CommandsLeaveArgumentsAndHostAlone := by
  intro i s t h
  cases answer h with
  | add => simp
  | _ => exact ⟨rfl, rfl, rfl, rfl, rfl, rfl, rfl, rfl, rfl, rfl⟩

/-- The outcome with `f` applied to a next state. -/
def mapNext (f : State → State) : Host.Outcome State Fault Refusal → Host.Outcome State Fault Refusal
  | .next s => .next (f s)
  | .fault r => .fault r
  | .refused r => .refused r

theorem ite_eq_mapNext {f : State → State} {c c' : Prop} [Decidable c] [Decidable c']
    {x y x' y' : Host.Outcome State Fault Refusal} (hc : c = c') (hx : x = mapNext f x') (hy : y = mapNext f y') :
    (if c then x else y) = mapNext f (if c' then x' else y') := by
  subst hc
  split
  · exact hx
  · exact hy

section
variable (s : State) (a0 a1 a2 a3 cap : Word)

@[simp] theorem withArgs_rhW : (s.withArgs a0 a1 a2 a3 cap).rhW = s.rhW := rfl
@[simp] theorem withArgs_ixRefBase : (s.withArgs a0 a1 a2 a3 cap).ixRefBase = s.ixRefBase := rfl
@[simp] theorem withArgs_ixRefLen : (s.withArgs a0 a1 a2 a3 cap).ixRefLen = s.ixRefLen := rfl
@[simp] theorem withArgs_nextOf (b : Nat) : (s.withArgs a0 a1 a2 a3 cap).nextOf b = s.nextOf b := rfl
@[simp] theorem withArgs_operand1 : (s.withArgs a0 a1 a2 a3 cap).operand1 = s.operand1 := rfl
@[simp] theorem withArgs_operand2 : (s.withArgs a0 a1 a2 a3 cap).operand2 = s.operand2 := rfl

@[simp] theorem withArgs_readBytes (n a : Nat) : (s.withArgs a0 a1 a2 a3 cap).readBytes n a = s.readBytes n a :=
  readBytes_congr n a fun _ _ => rfl

@[simp] theorem withArgs_scan (tp n : Nat) (c : Word) : (s.withArgs a0 a1 a2 a3 cap).scan tp n c = s.scan tp n c :=
  scan_congr (s := s) (s' := s.withArgs a0 a1 a2 a3 cap) ⟨rfl, rfl, rfl, rfl⟩ tp (fun _ _ => rfl) n c fun _ _ _ _ => rfl

@[simp] theorem withArgs_candidate (c : Word) (t : Target) : (s.withArgs a0 a1 a2 a3 cap).candidate c t = s.candidate c t := by
  have hdown : ∀ n ra ta, (s.withArgs a0 a1 a2 a3 cap).equalDown n ra ta = s.equalDown n ra ta := fun n ra ta =>
    equalDown_congr n ra ta (fun _ _ => rfl) fun _ _ => rfl
  have hup : ∀ n ra ta, (s.withArgs a0 a1 a2 a3 cap).equalUp n ra ta = s.equalUp n ra ta := fun n ra ta =>
    equalUp_congr n ra ta (fun _ _ => rfl) fun _ _ => rfl
  simp only [State.candidate, State.extendLeft, State.extendRight, hdown, hup, withArgs_rhW, withArgs_ixRefBase,
    withArgs_ixRefLen]

@[simp] theorem withArgs_bestFrom (t : Target) (n : Nat) (c : Word) (best : Option Match) :
    (s.withArgs a0 a1 a2 a3 cap).bestFrom t n c best = s.bestFrom t n c best := by
  induction n generalizing c best with
  | zero => rfl
  | succ n ih => simp only [State.bestFrom, withArgs_scan, withArgs_candidate, withArgs_nextOf, ih]

/-- A reading command ends alike if its result state does. -/
theorem withArgs_finishRead {α : Type} (r : Except ReadStop α) (k k' : α → State)
    (hk : ∀ x, k' x = (k x).withArgs a0 a1 a2 a3 cap) :
    (s.withArgs a0 a1 a2 a3 cap).finishRead r k' = mapNext (·.withArgs a0 a1 a2 a3 cap) (s.finishRead r k) := by
  match r with
  | .ok x => exact congrArg Host.Outcome.next (hk x)
  | .error (.fails _) => rfl
  | .error (.device _) => rfl

theorem withArgs_append (k : Nat) (b : Word) :
    (s.withArgs a0 a1 a2 a3 cap).append k b = (s.append k b).withArgs a0 a1 a2 a3 cap := by
  by_cases h : s.head k = noneWord
  · rw [append_empty b h, append_empty b (s := s.withArgs a0 a1 a2 a3 cap) h]; rfl
  · rw [append_behind b h, append_behind b (s := s.withArgs a0 a1 a2 a3 cap) h]; rfl

theorem withArgs_completeBest (best : Option Match) :
    (s.withArgs a0 a1 a2 a3 cap).completeBest best = (s.completeBest best).withArgs a0 a1 a2 a3 cap := by
  cases best <;> rfl

/-- Every check and every result of a command is the same under other argument registers. -/
theorem withArgs_exec (i : Instr) :
    exec i (s.withArgs a0 a1 a2 a3 cap) = mapNext (·.withArgs a0 a1 a2 a3 cap) (exec i s) := by
  cases i with
  | rhInit => exact ite_eq_mapNext rfl rfl rfl
  | rhHash =>
    refine ite_eq_mapNext rfl (ite_eq_mapNext rfl rfl ?_) rfl
    rw [withArgs_readBytes]
    exact withArgs_finishRead s a0 a1 a2 a3 cap _ _ _ fun _ => rfl
  | rhUpdate =>
    refine ite_eq_mapNext rfl ?_ rfl
    simp only [withArgs_operand1, withArgs_operand2]
    cases byteOperand s.operand1 with
    | none => rfl
    | some d =>
      cases byteOperand s.operand2 with
      | none => rfl
      | some a => rfl
  | ixInit => exact ite_eq_mapNext rfl (ite_eq_mapNext rfl rfl (ite_eq_mapNext rfl rfl (ite_eq_mapNext rfl rfl rfl))) rfl
  | ixAdd =>
    refine ite_eq_mapNext rfl (ite_eq_mapNext rfl rfl (ite_eq_mapNext rfl rfl (ite_eq_mapNext rfl rfl ?_))) rfl
    rw [withArgs_append]
    rfl
  | ixFirst =>
    refine ite_eq_mapNext rfl (ite_eq_mapNext rfl rfl ?_) rfl
    rw [withArgs_scan]
    exact withArgs_finishRead s a0 a1 a2 a3 cap _ _ _ fun _ => rfl
  | ixNext =>
    refine ite_eq_mapNext rfl (ite_eq_mapNext rfl rfl (ite_eq_mapNext rfl rfl ?_)) rfl
    rw [withArgs_scan]
    exact withArgs_finishRead s a0 a1 a2 a3 cap _ _ _ fun _ => rfl
  | ixBest =>
    refine ite_eq_mapNext rfl (ite_eq_mapNext rfl rfl (ite_eq_mapNext rfl rfl (ite_eq_mapNext rfl rfl ?_))) rfl
    rw [withArgs_bestFrom]
    exact withArgs_finishRead s a0 a1 a2 a3 cap _ _ _ (withArgs_completeBest s a0 a1 a2 a3 cap)

end

/-- Settles O26, command by command: operands come from the latch, so every check and every result is the same. -/
theorem commandComputesOnlyFromTheLatch : Obligations.CommandComputesOnlyFromTheLatch := by
  intro i s a0 a1 a2 a3 cap
  have h := withArgs_exec s a0 a1 a2 a3 cap i
  cases he : exec i s with
  | next t => rw [he] at h; exact h
  | fault f => rw [he] at h; exact h
  | refused r => rw [he] at h; exact h

/-! ### The register map -/

/-- Each register stands at its own offset (10_state.md R21). -/
theorem regAt_regOffset (r : Reg) : regAt (regOffset r) = some r := by cases r <;> rfl

theorem readOffset_regOffset (s : State) (r : Reg) : s.readOffset (regOffset r) = s.readReg r := by
  rw [State.readOffset, regAt_regOffset]

/-! ### STATUS -/

/-- A field put in front of another counts from that one's width on. -/
theorem toNat_append_eq_add {m n : Nat} (x : BitVec m) (y : BitVec n) : (x ++ y).toNat = x.toNat * 2 ^ n + y.toNat := by
  rw [BitVec.toNat_append, ← Nat.shiftLeft_add_eq_or_of_lt y.isLt, Nat.shiftLeft_eq]

/-- The STATUS word is the sum of its fields at the places of 10_state.md R23. -/
theorem statusWord_eq_sum (s : State) :
    s.statusWord =
      BitVec.ofNat 32 (s.busy.toNat + 2 * s.done.toNat + 4 * s.err.toNat + 8 * s.ovr.toNat + 16 * s.rhValid.toNat +
        32 * s.ixValid.toNat + 256 * s.lastErr.toNat + 65536 * s.lastOp.toNat) := by
  have hbyte : ∀ b : Byte, b.toNat < 256 := fun b => b.isLt
  have hbound : s.busy.toNat + 2 * s.done.toNat + 4 * s.err.toNat + 8 * s.ovr.toNat + 16 * s.rhValid.toNat +
      32 * s.ixValid.toNat + 256 * s.lastErr.toNat + 65536 * s.lastOp.toNat < 2 ^ 32 := by
    have := hbyte s.lastErr
    have := hbyte s.lastOp
    have := s.busy.toNat_le
    have := s.done.toNat_le
    have := s.err.toNat_le
    have := s.ovr.toNat_le
    have := s.rhValid.toNat_le
    have := s.ixValid.toNat_le
    omega
  apply BitVec.eq_of_toNat_eq
  rw [BitVec.toNat_ofNat, Nat.mod_eq_of_lt hbound]
  simp only [State.statusWord, toNat_append_eq_add, BitVec.toNat_ofBool, BitVec.toNat_ofNat]
  omega

/-- Settles O13, STATUS being the register at 0x004. -/
theorem statusFieldsStandAtTheirBits : Obligations.StatusFieldsStandAtTheirBits := fun s =>
  (readOffset_regOffset s .status).trans (statusWord_eq_sum s)

theorem resetOn_statusWord (p : Platform) : (State.resetOn p).statusWord = 0 := by
  rw [statusWord_eq_sum]
  rfl

/-! ### The reset values and the access codes -/

/-- R21's column of reset values is what the registers read after reset, in the order of its table. -/
theorem resetValues_eq (p : Platform) :
    resetValues p = regTable.map fun r => (regOffset r, (State.resetOn p).readReg r) := by
  simp only [regTable, List.map, State.readReg, resetOn_statusWord]
  rfl

/-- Settles O8, register by register of R21's table. -/
theorem everyRegisterHasItsResetValue : Obligations.EveryRegisterHasItsResetValue := by
  intro p off v h
  rw [resetValues_eq, List.mem_map] at h
  obtain ⟨r, _, hr⟩ := h
  obtain ⟨rfl, rfl⟩ := Prod.mk.inj hr
  exact ⟨readOffset_regOffset _ r, rfl⟩

/-- CMD, CTRL and what stands above R21's last register. -/
theorem readReg_eq_zero (s : State) {r : Reg} (h : regOffset r = 0x000 ∨ regOffset r = 0x008 ∨ 0x058 < regOffset r) :
    s.readReg r = 0 := by
  cases r with
  | cmd | ctrl => rfl
  | _ => exact absurd h (by decide)

/-- Only seven registers take a write. -/
theorem writeReg_ignored (s : State) (v : Word) {r : Reg}
    (h : regOffset r ∉ [0x000, 0x008, 0x010, 0x014, 0x018, 0x01C, 0x034]) : s.writeReg r v = s := by
  cases r with
  | cmd | ctrl | arg0 | arg1 | arg2 | arg3 | maxCand => exact absurd (by decide) h
  | _ => rfl

/-- Settles O12, by the register that stands at the offset, if one does. -/
theorem accessCodesHoldAtEveryOffset : Obligations.AccessCodesHoldAtEveryOffset := by
  refine ⟨fun s off hoff => ?_, fun s off v hdoes hlt hal hoff => ?_⟩
  · unfold State.readOffset
    split
    next r hr => exact readReg_eq_zero s (regOffset_of_regAt hr ▸ hoff)
    next => rfl
  · rw [step_wr hdoes hlt hal, State.writeOffset]
    split
    next r hr => rw [writeReg_ignored _ v (regOffset_of_regAt hr ▸ hoff)]
    next => rfl

/-! ### Reset -/

/-- Settles O53: nothing is listed in memory and the arrays, and no unit is valid. -/
theorem resetMeetsTheInvariant : Obligations.ResetMeetsTheInvariant := fun _ =>
  { canonical := ⟨rfl, rfl, rfl, rfl⟩
    status := statusInv_of_idle (Nat.zero_le 9) rfl
    rh := rhInv_of_invalid rfl rfl
    ix := ixInv_of_invalid rfl }

end Sys2Proof.Machine

/-! ## Proofs of the statements about memory (20_memory.md) -/

namespace Sys2Proof.Machine

/-! ### The canonical form, and what a command leaves of memory -/

/-- Settles O54: every part of a step keeps the form. -/
theorem everyStepKeepsTheCanonicalForm : Obligations.EveryStepKeepsTheCanonicalForm :=
  fun _ _ => canonical_kept.step

theorem answer_mem_platform {i : Instr} {s t : State} (h : Answer s i t) : t.mem = s.mem ∧ t.platform = s.platform := by
  cases h with
  | add => simp
  | _ => exact ⟨rfl, rfl⟩

/-- Settles O24, over the shapes of a completion: a data read depends on memory and the platform only. -/
theorem noCommandWritesDataMemory : Obligations.NoCommandWritesDataMemory := by
  intro i s t h
  obtain ⟨hmem, hplatform⟩ := answer_mem_platform (answer h)
  exact ⟨fun a => by simp only [State.readByte, hmem, hplatform], fun a => by rw [hmem], hplatform⟩

/-! ### Register accesses -/

/-- Settles O11: a read goes to the host's own record and nowhere else. -/
theorem registerReadHasNoSideEffect : Obligations.RegisterReadHasNoSideEffect :=
  fun _ _ hdoes hlt hal => step_rd hdoes hlt hal

theorem accessOffset_misformed {s : State} {off width : Nat} (ho : off < 0x100) (hbad : width ≠ 4 ∨ off % 4 ≠ 0) :
    s.accessOffset (s.platform.regBase + off) width = .error .registerAccessForm := by
  have hwf : accessWellFormed off width = false := by
    simpa only [accessWellFormed, Bool.and_eq_false_iff, beq_eq_false_iff_ne] using hbad
  simp [State.accessOffset, Config.regBlockBytes, ho, hwf]

theorem step_hostMoves {s : State} (h : s.hostMoves) : step s = s.popTurn.hostStep := by
  rw [step, nextTurn_host h]
  rfl

/-- Settles O17, for a write and for a read: the access has no offset in the block. -/
theorem misformedRegisterAccessIsRefused : Obligations.MisformedRegisterAccessIsRefused := by
  intro s off width v hlt hbad hdoes
  have hform := accessOffset_misformed (s := s.popTurn) hlt hbad
  rw [State.popTurn_platform] at hform
  obtain hdoes | hdoes := hdoes
  all_goals
    obtain ⟨rest, hp⟩ := program_of_hostDoes hdoes
    rw [step_hostMoves hdoes.1]
    simp only [State.hostStep, hp, hform]

/-! ### Which addresses the read range of each command holds -/

/-- A scan for the target window at `tp` from block `c` on has the byte at `a` in a block it probes or, if it probes one, in the
window (20_memory.md R62). -/
def State.ScanReads (s : State) (tp : Nat) (c : Word) (a : Nat) : Prop :=
  ∃ b ∈ s.probed tp Config.maxProbes c,
    (s.blockAddr b.toNat ≤ a ∧ a < s.blockAddr b.toNat + s.rhW.toNat) ∨ (tp ≤ a ∧ a < tp + s.rhW.toNat)

theorem mem_lookupRanges_iff {s : State} {tp a : Nat} {c : Word} :
    (∃ r ∈ s.lookupRanges tp c, r.1 ≤ a ∧ a < r.1 + r.2) ↔ s.ScanReads tp c a := by
  simp only [State.lookupRanges, State.ScanReads, List.mem_flatMap, List.mem_cons, List.not_mem_nil, or_false]
  constructor
  · rintro ⟨r, ⟨b, hb, rfl | rfl⟩, hr⟩
    · exact ⟨b, hb, .inl hr⟩
    · exact ⟨b, hb, .inr hr⟩
  · rintro ⟨b, hb, hr | hr⟩
    · exact ⟨_, ⟨b, hb, .inl rfl⟩, hr⟩
    · exact ⟨_, ⟨b, hb, .inr rfl⟩, hr⟩

section
variable {s : State} {a : Nat}

theorem inReadRange_rhHash (hd : decode s.pend.cmdword = .ok .rhHash) :
    s.inReadRange a = true ↔ s.rhValid = true ∧ s.operand0.toNat + s.rhW.toNat ≤ 2 ^ 32 ∧
      s.operand0.toNat ≤ a ∧ a < s.operand0.toNat + s.rhW.toNat := by
  simp only [inReadRange_iff, State.readRanges, hd]
  rw [← passesTop_false_iff]
  cases s.rhValid <;> cases passesTop s.operand0 s.rhW <;> simp

theorem inReadRange_ixFirst (hd : decode s.pend.cmdword = .ok .ixFirst) :
    s.inReadRange a = true ↔ s.ixValid = true ∧ s.operand1.toNat + s.rhW.toNat ≤ 2 ^ 32 ∧
      s.ScanReads s.operand1.toNat (s.firstOf s.operand0) a := by
  simp only [inReadRange_iff, State.readRanges, hd]
  rw [← passesTop_false_iff, ← mem_lookupRanges_iff]
  cases s.ixValid <;> cases passesTop s.operand1 s.rhW <;> simp

theorem inReadRange_ixNext (hd : decode s.pend.cmdword = .ok .ixNext) :
    s.inReadRange a = true ↔ s.ixValid = true ∧ s.operand0.toNat < s.ixNblk.toNat ∧
      s.operand1.toNat + s.rhW.toNat ≤ 2 ^ 32 ∧ s.ScanReads s.operand1.toNat (s.nextOf s.operand0.toNat) a := by
  simp only [inReadRange_iff, State.readRanges, hd]
  rw [← passesTop_false_iff, ← mem_lookupRanges_iff]
  by_cases hb : s.operand0.toNat < s.ixNblk.toNat <;> cases s.ixValid <;> cases passesTop s.operand1 s.rhW <;> simp [hb]

theorem inReadRange_ixBest (hd : decode s.pend.cmdword = .ok .ixBest) :
    s.inReadRange a = true ↔ s.ixValid = true ∧ s.operand2.toNat ≤ s.operand1.toNat ∧ s.rhW.toNat ≤ s.operand3.toNat ∧
      s.operand1.toNat + s.operand3.toNat ≤ 2 ^ 32 ∧
      ((s.ixRefBase.toNat ≤ a ∧ a < s.ixRefBase.toNat + s.ixRefLen.toNat) ∨
        (s.operand2.toNat ≤ a ∧ a < s.operand1.toNat + s.operand3.toNat)) := by
  simp only [inReadRange_iff, State.readRanges, hd]
  rw [← passesTop_false_iff]
  by_cases hb : s.operand2.toNat ≤ s.operand1.toNat
  · have htop : s.operand2.toNat + (s.operand1.toNat + s.operand3.toNat - s.operand2.toNat) =
      s.operand1.toNat + s.operand3.toNat := by omega
    by_cases hw : s.rhW.toNat ≤ s.operand3.toNat <;> cases s.ixValid <;> cases passesTop s.operand1 s.operand3 <;>
      simp [hb, hw, htop]
  · simp [hb]

/-- A word that is no command has no read range. -/
theorem exists_decode_of_inReadRange (h : s.inReadRange a = true) : ∃ i, decode s.pend.cmdword = .ok i := by
  cases hd : decode s.pend.cmdword with
  | ok i => exact ⟨i, rfl⟩
  | error e => simp [State.inReadRange, State.readRanges, hd] at h

/-- A configured RH_HASH whose window fits reads that window. -/
theorem inReadRange_of_rhHash_window (hc : s.pend.cmdword = 0x00000002) (hv : s.rhValid = true)
    (htop : s.pend.a0.toNat + s.rhW.toNat ≤ 2 ^ 32) (hlo : s.pend.a0.toNat ≤ a) (hhi : a < s.pend.a0.toNat + s.rhW.toNat) :
    s.inReadRange a = true :=
  (inReadRange_rhHash (by rw [hc]; rfl)).2 ⟨hv, htop, hlo, hhi⟩

/-- An IX_BEST whose arguments pass reads the reference and the target. -/
theorem inReadRange_of_ixBest_buffers (hc : s.pend.cmdword = 0x00000014) (hv : s.ixValid = true)
    (htb : s.pend.a2.toNat ≤ s.pend.a1.toNat) (htl : s.rhW.toNat ≤ s.pend.a3.toNat)
    (htop : s.pend.a1.toNat + s.pend.a3.toNat ≤ 2 ^ 32)
    (hin : (s.ixRefBase.toNat ≤ a ∧ a < s.ixRefBase.toNat + s.ixRefLen.toNat) ∨
      (s.pend.a2.toNat ≤ a ∧ a < s.pend.a1.toNat + s.pend.a3.toNat)) :
    s.inReadRange a = true :=
  (inReadRange_ixBest (by rw [hc]; rfl)).2 ⟨hv, htb, htl, htop, hin⟩

end

/-! ### Writes of data bytes -/

@[simp] theorem afterHost_busy (s : State) : s.afterHost.busy = s.busy := rfl
@[simp] theorem popTurn_busy (s : State) : s.popTurn.busy = s.busy := rfl

theorem storeByte_race {s : State} {a : Word} (v : Byte) (h : (s.busy && s.inReadRange a.toNat) = true) :
    s.storeByte a v = .fault .dataRace := if_pos h

/-- A plain byte of memory outside the read range, or with no command pending. -/
theorem storeByte_memory {s : State} {a : Word} (v : Byte) (h : (s.busy && s.inReadRange a.toNat) = false)
    (hk : s.platform.kindAt a.toNat = some .memory) :
    s.storeByte a v = .next { s with mem := Memory.write s.mem a.toNat v } := by
  simp [State.storeByte, h, hk]

theorem storeByte_fault {s : State} {a : Word} {v : Byte} {f : Fault} (h : s.storeByte a v = .fault f) :
    f = .dataRace ∧ s.seq = .busy ∧ s.inReadRange a.toNat = true := by
  unfold State.storeByte at h
  split at h
  next hr =>
    cases h
    exact ⟨rfl, by simpa using hr⟩
  next => split at h <;> cases h

/-- Another agent's write. -/
theorem step_busWrite {s : State} {a : Word} {v : Byte} (h : s.schedule.head? = some (.busWrite a v)) :
    step s = s.popTurn.storeByte a v := step_of_head h

theorem step_race {s : State} {a : Word} {v : Byte} (hb : s.seq = .busy)
    (hw : s.hostDoes (.store a v) ∨ s.schedule.head? = some (.busWrite a v)) (hin : s.inReadRange a.toNat = true) :
    step s = .fault .dataRace := by
  obtain hw | hw := hw
  · rw [step_store hw, storeByte_race v (by simp [hb, hin])]
  · rw [step_busWrite hw, storeByte_race v (by simp [hb, hin])]

/-- Settles O20: the listed ranges of RH_HASH and IX_BEST are the model's. -/
theorem writeInReadRangeIsADataRace : Obligations.WriteInReadRangeIsADataRace := fun _ _ _ hb hw =>
  ⟨step_race hb hw,
    fun hc hv htop hlo hhi => step_race hb hw (inReadRange_of_rhHash_window hc hv htop hlo hhi),
    fun hc hv htb htl htop hin => step_race hb hw (inReadRange_of_ixBest_buffers hc hv htb htl htop hin)⟩

/-- Where a write is no data race, it sets its one byte. -/
theorem writesOneByte {s : State} {a : Word} (v : Byte) (hwf : Memory.wf s.mem = true)
    (hk : s.platform.kindAt a.toNat = some .memory) (hno : (s.busy && s.inReadRange a.toNat) = false) :
    s.WritesOneByte a v := by
  refine ⟨Memory.write s.mem a.toNat v, fun b => ?_, fun hw => ?_, fun hw => ?_⟩
  · split
    next hb => rw [hb, Memory.read_write_self _ _ _ hwf]
    next hb => exact Memory.read_write_ne _ _ hb
  · exact (step_store hw).trans (storeByte_memory v (by simpa using hno) hk)
  · exact (step_busWrite hw).trans (storeByte_memory v (by simpa using hno) hk)

/-- Settles O23: with no command pending there is no read range. -/
theorem idleWriteSetsOneByteOfMemory : Obligations.IdleWriteSetsOneByteOfMemory := fun s _ v hi hwf hk =>
  writesOneByte v hwf hk (by rw [(State.busy_false_iff s).2 hi, Bool.false_and])

/-! ### What faults -/

/-- No command faults. -/
theorem exec_ne_fault (i : Instr) (s : State) (f : Fault) : exec i s ≠ .fault f := by
  cases i with
  | rhInit | rhUpdate | ixInit | ixAdd =>
    simp only [exec, execRhInit, execRhUpdate, execIxInit, execIxAdd]
    repeat' split
    all_goals simp
  | rhHash | ixFirst | ixNext | ixBest =>
    simp only [exec, execRhHash, execIxFirst, execIxNext, execIxBest]
    repeat' split
    all_goals simp [State.finishRead_ne_fault]

theorem coreStep_ne_fault (s : State) (f : Fault) : s.coreStep ≠ .fault f := by
  unfold State.coreStep
  repeat' split
  all_goals simp [exec_ne_fault]

/-- All a host step can fault on is a byte it writes. -/
theorem hostStep_fault {s : State} {f : Fault} (h : s.hostStep = .fault f) :
    ∃ a v, s.program.head? = some (.store a v) ∧ s.popProgram.storeByte a v = .fault f := by
  unfold State.hostStep at h
  split at h
  next => cases h
  next => split at h <;> cases h
  next => split at h <;> cases h
  next => cases h
  next a v _ hp => exact ⟨a, v, by simp [hp], h⟩

theorem head?_of_nextTurn {s : State} {t : Turn} (hn : s.nextTurn = t) (hhost : t ≠ .host) (hcore : t ≠ .core) :
    s.schedule.head? = some t := by
  unfold State.nextTurn at hn
  split at hn
  next hs => simp [hs, hn]
  next => split at hn <;> simp_all

/-- Settles O21, by the agent that moves: neither a command nor a reset faults, and a write only as a data race. -/
theorem onlyAWriteInTheReadRangeFaults : Obligations.OnlyAWriteInTheReadRangeFaults := by
  intro s f h
  unfold step at h
  cases hn : s.nextTurn with
  | host =>
    rw [hn] at h
    obtain ⟨a, v, hp, hf⟩ := hostStep_fault h
    have hf : s.afterHost.storeByte a v = .fault f := hf
    obtain ⟨rfl, hb, hin⟩ := storeByte_fault hf
    exact ⟨rfl, hb, a, v, .inl ⟨hostMoves_of_nextTurn hn, hp⟩, by simpa using hin⟩
  | core =>
    rw [hn] at h
    exact absurd h (coreStep_ne_fault _ f)
  | hardReset =>
    rw [hn] at h
    cases h
  | busWrite a v =>
    rw [hn] at h
    obtain ⟨rfl, hb, hin⟩ := storeByte_fault h
    exact ⟨rfl, hb, a, v, .inr (head?_of_nextTurn hn (by simp) (by simp)), by simpa using hin⟩

/-! ### A device in the read range -/

/-- The core's turn is refused at the device found in the read range (20_memory.md R67). -/
theorem step_device {s : State} {a : Nat} (hb : s.seq = .busy) (hm : s.coreMoves)
    (hk : s.platform.kindAt a = some .device) (hin : s.inReadRange a = true) :
    ∃ b, s.inReadRange b = true ∧ s.platform.kindAt b = some .device ∧ step s = .refused (.deviceRead b) := by
  obtain ⟨i, hd⟩ := exists_decode_of_inReadRange hin
  obtain ⟨b, hdev⟩ : ∃ b, s.deviceInReadRange = some b :=
    Option.ne_none_iff_exists'.1 fun hnone => deviceInReadRange_none_iff.1 hnone a hin hk
  obtain ⟨hbin, hbk⟩ := deviceInReadRange_some hdev
  refine ⟨b, hbin, hbk, ?_⟩
  rw [step_core hb hm]
  simp [State.coreStep, hb, hd, hdev]

/-- Settles O58: the listed ranges of RH_HASH and IX_BEST are the model's. -/
theorem deviceInTheReadRangeIsRefused : Obligations.DeviceInTheReadRangeIsRefused := by
  intro s a hb hm hk
  have hstep : s.inReadRange a = true → ∃ b, step s = .refused (.deviceRead b) := fun hin =>
    (step_device hb hm hk hin).imp fun _ hb => hb.2.2
  exact ⟨step_device hb hm hk,
    fun hc hv htop hlo hhi => hstep (inReadRange_of_rhHash_window hc hv htop hlo hhi),
    fun hc hv htb htl htop hin => hstep (inReadRange_of_ixBest_buffers hc hv htb htl htop hin)⟩

/-! ### Writes outside the read range -/

theorem opField_of_decodeOp {op : Byte} {i : Instr} (h : decodeOp op = some i) : op = opField (encode i) := by
  unfold decodeOp at h
  split_ifs at h with hop hop hop hop hop hop hop hop
  all_goals
    cases h
    exact hop

theorem encode_toNat_lt (i : Instr) : (encode i).toNat < 256 := by cases i <;> decide

/-- Only its own word decodes to a command (30_encoding.md R82). -/
theorem encode_of_decode {w : Word} {i : Instr} (h : decode w = .ok i) : w = encode i := by
  unfold decode at h
  split at h
  next hz =>
    split at h
    next j hop =>
      cases h
      have hlow := congrArg BitVec.toNat (opField_of_decodeOp hop)
      have hw := (mbzClear_iff w).1 hz
      have hi := encode_toNat_lt i
      rw [opField_toNat, opField_toNat, Nat.mod_eq_of_lt hw, Nat.mod_eq_of_lt hi] at hlow
      exact BitVec.eq_of_toNat_eq hlow
    next => cases h
  next => cases h

/-- Only the four commands that read data have a read range (20_memory.md R61). -/
theorem cmdword_of_inReadRange {s : State} {a : Nat} (h : s.inReadRange a = true) :
    s.pend.cmdword ∈ [0x00000002, 0x00000012, 0x00000013, 0x00000014] := by
  obtain ⟨i, hd⟩ := exists_decode_of_inReadRange h
  rw [encode_of_decode hd]
  cases i with
  | rhHash | ixFirst | ixNext | ixBest => decide
  | _ => simp [State.inReadRange, State.readRanges, hd] at h

/-- A scan reads only the window and the blocks it compares. -/
theorem not_scanReads {s : State} {tp a : Nat} {chain : List Nat} {c : Word} (hw : s.Walk chain c)
    (htp : Outside a tp s.rhW.toNat)
    (hblocks : ∀ b ∈ s.compared tp chain, Outside a (s.ixRefBase.toNat + b * s.rhW.toNat) s.rhW.toNat) :
    ¬ s.ScanReads tp c a := by
  rintro ⟨b, hb, hin⟩
  have hcompared : b.toNat ∈ s.compared tp chain := probed_compared _ _ _ hw b hb
  have hblock := hblocks _ hcompared
  unfold State.blockAddr at hin
  unfold Outside at htp hblock
  omega

/-- Settles O59, command by command: the byte is not in the range, so the write is no data race. -/
theorem writeOutsideTheReadRangeGoesThrough : Obligations.WriteOutsideTheReadRangeGoesThrough := by
  intro s a v _ hwf hk
  have hwrite : ¬ s.inReadRange a.toNat = true → s.WritesOneByte a v := fun hno =>
    writesOneByte v hwf hk (by rw [Bool.eq_false_iff.2 hno, Bool.and_false])
  refine ⟨fun hc => hwrite fun hin => hc (cmdword_of_inReadRange hin), fun hc hout => hwrite fun hin => ?_,
    fun chain hc hw hclear => hwrite fun hin => ?_,
    fun chain hc hw hclear => hwrite fun hin => ?_,
    fun hc href htarget => hwrite fun hin => ?_⟩
  · obtain ⟨_, _, hlo, hhi⟩ := (inReadRange_rhHash (by rw [hc]; rfl)).1 hin
    unfold Outside at hout
    unfold State.operand0 at hlo hhi
    omega
  · obtain ⟨_, _, hreads⟩ := (inReadRange_ixFirst (by rw [hc]; rfl)).1 hin
    exact not_scanReads hw hclear.1 hclear.2 hreads
  · obtain ⟨_, _, _, hreads⟩ := (inReadRange_ixNext (by rw [hc]; rfl)).1 hin
    exact not_scanReads hw hclear.1 hclear.2 hreads
  · obtain ⟨_, _, _, _, hreads⟩ := (inReadRange_ixBest (by rw [hc]; rfl)).1 hin
    unfold Outside at href
    unfold State.operand1 State.operand2 State.operand3 at hreads
    omega

/-! ### A write that the running command cannot see -/

/-- The state with other contents of data memory. -/
def State.withMem (s : State) (m : List Host.Cell) : State := { s with mem := m }

section
variable (s : State) (m : List Host.Cell)

theorem sameUnits_withMem : SameUnits s (s.withMem m) := ⟨rfl, rfl, rfl, rfl⟩

@[simp] theorem withMem_operand1 : (s.withMem m).operand1 = s.operand1 := rfl
@[simp] theorem withMem_operand2 : (s.withMem m).operand2 = s.operand2 := rfl

theorem withMem_append (k : Nat) (b : Word) : (s.withMem m).append k b = (s.append k b).withMem m := by
  by_cases h : s.head k = noneWord
  · rw [append_empty b h, append_empty b (s := s.withMem m) h]; rfl
  · rw [append_behind b h, append_behind b (s := s.withMem m) h]; rfl

theorem withMem_completeBest (best : Option Match) : (s.withMem m).completeBest best = (s.completeBest best).withMem m := by
  cases best <;> rfl

/-- A reading command that reads the same ends alike. -/
theorem withMem_finishRead {α : Type} {r r' : Except ReadStop α} {k k' : α → State} (hr : r' = r)
    (hk : ∀ x, k' x = (k x).withMem m) : (s.withMem m).finishRead r' k' = mapNext (·.withMem m) (s.finishRead r k) := by
  subst hr
  match r' with
  | .ok x => exact congrArg Host.Outcome.next (hk x)
  | .error (.fails _) => rfl
  | .error (.device _) => rfl

end

/-- `ite_eq_mapNext` with what the condition says in each branch. -/
theorem ite_eq_mapNext_of {f : State → State} {c : Prop} [Decidable c] {x y x' y' : Host.Outcome State Fault Refusal}
    (hx : c → x = mapNext f x') (hy : ¬ c → y = mapNext f y') : (if c then x else y) = mapNext f (if c then x' else y') := by
  split
  next hc => exact hx hc
  next hc => exact hy hc

/-- A write elsewhere does not change what a read answers. -/
theorem readByte_write_ne (s : State) {a b : Nat} (v : Byte) (h : b ≠ a) :
    (s.withMem (Memory.write s.mem a v)).readByte b = s.readByte b := by
  simp only [State.readByte, State.withMem, Memory.read_write_ne s.mem v h]

/-- A write outside a window does not change what reading it answers. -/
theorem readBytes_write {s : State} {p n a : Nat} (v : Byte) (hout : ¬ (p ≤ a ∧ a < p + n)) :
    (s.withMem (Memory.write s.mem a v)).readBytes n p = s.readBytes n p :=
  readBytes_congr n p fun _ _ => readByte_write_ne s v (by omega)

/-- A write that a scan does not compare does not change what it answers. -/
theorem scan_write {s : State} {tp a : Nat} {c : Word} (v : Byte) (h : ¬ s.ScanReads tp c a) :
    (s.withMem (Memory.write s.mem a v)).scan tp Config.maxProbes c = s.scan tp Config.maxProbes c := by
  by_cases hc : c = noneWord
  · subst hc; rfl
  have hout : ∀ b ∈ s.probed tp Config.maxProbes c,
      ¬ (s.blockAddr b.toNat ≤ a ∧ a < s.blockAddr b.toNat + s.rhW.toNat) ∧ ¬ (tp ≤ a ∧ a < tp + s.rhW.toNat) :=
    fun b hb => not_or.1 fun hin => h ⟨b, hb, hin⟩
  have hfirst : c ∈ s.probed tp Config.maxProbes c := by
    simp only [State.probed, hc, if_false]
    split <;> simp
  refine scan_congr (sameUnits_withMem s _) tp (fun k hk => ?_) _ c fun b hb k hk => ?_
  · have := (hout c hfirst).2
    exact readByte_write_ne s v (by omega)
  · have := (hout b hb).1
    exact readByte_write_ne s v (by omega)

/-- An indexed block lies within the reference (41_block_index.md R120, 10_state.md R44). -/
theorem State.Chains.block_le {s : State} (h : s.Chains) (hgeo : s.Geometry) {b : Nat} (hb : s.Indexed b) :
    b * s.rhW.toNat + s.rhW.toNat ≤ s.ixRefLen.toNat := by
  obtain ⟨_, _, hnblk, _⟩ := hgeo
  obtain ⟨hlast, hle⟩ := hb
  have hlt : b < s.ixRefLen.toNat / s.rhW.toNat := by
    have := h.lastInRange.resolve_left hlast
    omega
  calc b * s.rhW.toNat + s.rhW.toNat = (b + 1) * s.rhW.toNat := (Nat.succ_mul _ _).symm
    _ ≤ s.ixRefLen.toNat / s.rhW.toNat * s.rhW.toNat := Nat.mul_le_mul_right _ hlt
    _ ≤ s.ixRefLen.toNat := Nat.div_mul_le_self _ _

/-- Under the index's invariant, a write outside the reference and the target does not change what the selector answers. -/
theorem bestFrom_write {s : State} {t : Target} {a : Nat} (v : Byte) (hix : s.IxInv) (hv : s.ixValid = true)
    (htb : t.tb ≤ t.tp) (htl : s.rhW.toNat ≤ t.tl)
    (hout : ¬ ((s.ixRefBase.toNat ≤ a ∧ a < s.ixRefBase.toNat + s.ixRefLen.toNat) ∨ (t.tb ≤ a ∧ a < t.tp + t.tl)))
    (cap : Nat) (x : Word) (best : Option Match) :
    (s.withMem (Memory.write s.mem a v)).bestFrom t cap (s.firstOf x) best = s.bestFrom t cap (s.firstOf x) best := by
  obtain ⟨_, hgeo, hch⟩ := hix hv
  obtain ⟨chain, hw, _, hidx, _⟩ := hch.chain _ (hgeo.bucket_lt x)
  exact bestFrom_congr (sameUnits_withMem s _) t htl htb (fun k hk => readByte_write_ne s v (by omega))
    (fun b hlo hhi => readByte_write_ne s v (by omega)) cap _ best chain hw fun b hb => hch.block_le hgeo (hidx b hb)

theorem not_passesTop {p n : Word} (h : ¬ passesTop p n = true) : p.toNat + n.toNat ≤ 2 ^ 32 :=
  (passesTop_false_iff p n).1 (Bool.eq_false_iff.2 h)

/-- Under the index's invariant, a command answers alike, but for memory, when a byte outside its read range is written. -/
theorem exec_write_outside {s : State} {i : Instr} {a : Nat} (v : Byte) (hix : s.IxInv)
    (hd : decode s.pend.cmdword = .ok i) (hout : ¬ s.inReadRange a = true) :
    exec i (s.withMem (Memory.write s.mem a v)) = mapNext (·.withMem (Memory.write s.mem a v)) (exec i s) := by
  cases i with
  | rhInit => exact ite_eq_mapNext rfl rfl rfl
  | rhHash =>
    rw [inReadRange_rhHash hd] at hout
    refine ite_eq_mapNext_of (fun hv => ite_eq_mapNext_of (fun _ => rfl) fun htop => ?_) fun _ => rfl
    exact withMem_finishRead s _ (readBytes_write v fun hin => hout ⟨hv, not_passesTop htop, hin⟩) fun _ => rfl
  | rhUpdate =>
    refine ite_eq_mapNext rfl ?_ rfl
    simp only [withMem_operand1, withMem_operand2]
    cases byteOperand s.operand1 with
    | none => rfl
    | some d =>
      cases byteOperand s.operand2 with
      | none => rfl
      | some b => rfl
  | ixInit => exact ite_eq_mapNext rfl (ite_eq_mapNext rfl rfl (ite_eq_mapNext rfl rfl (ite_eq_mapNext rfl rfl rfl))) rfl
  | ixAdd =>
    refine ite_eq_mapNext rfl (ite_eq_mapNext rfl rfl (ite_eq_mapNext rfl rfl (ite_eq_mapNext rfl rfl ?_))) rfl
    rw [withMem_append]
    rfl
  | ixFirst =>
    rw [inReadRange_ixFirst hd] at hout
    refine ite_eq_mapNext_of (fun hv => ite_eq_mapNext_of (fun _ => rfl) fun htop => ?_) fun _ => rfl
    exact withMem_finishRead s _ (scan_write v fun hin => hout ⟨hv, not_passesTop htop, hin⟩) fun _ => rfl
  | ixNext =>
    rw [inReadRange_ixNext hd] at hout
    refine ite_eq_mapNext_of (fun hv => ite_eq_mapNext_of (fun _ => rfl) fun hb =>
      ite_eq_mapNext_of (fun _ => rfl) fun htop => ?_) fun _ => rfl
    exact withMem_finishRead s _ (scan_write v fun hin => hout ⟨hv, not_le.1 hb, not_passesTop htop, hin⟩) fun _ => rfl
  | ixBest =>
    rw [inReadRange_ixBest hd] at hout
    refine ite_eq_mapNext_of (fun hv => ite_eq_mapNext_of (fun _ => rfl) fun htb => ite_eq_mapNext_of (fun _ => rfl) fun htl =>
      ite_eq_mapNext_of (fun _ => rfl) fun htop => ?_) fun _ => rfl
    have hread := bestFrom_write (t := ⟨s.operand1.toNat, s.operand2.toNat, s.operand3.toNat⟩) v hix hv (not_lt.1 htb)
      (not_lt.1 htl)
      (fun hin => hout ⟨hv, not_lt.1 htb, not_lt.1 htl, not_passesTop htop, hin⟩) s.operandCap.toNat s.operand0 none
    exact withMem_finishRead s _ hread (withMem_completeBest s _)

/-- Settles O22: the invariant puts every block IX_BEST can reach inside the reference, which is in its range. -/
theorem writeOutsideReadRangeLeavesTheCommandsOutcome : Obligations.WriteOutsideReadRangeLeavesTheCommandsOutcome := by
  intro s i a v hinv hd hout
  have h := exec_write_outside v hinv.ix hd (Bool.eq_false_iff.1 hout)
  cases he : exec i s with
  | next t => rw [he] at h; exact h
  | fault f => rw [he] at h; exact h
  | refused r => rw [he] at h; exact h

end Sys2Proof.Machine

/-! ## Proofs of the statements about command words and the host's wait (30_encoding.md) -/

namespace Sys2Proof.Machine

/-! ### Command words -/

theorem encoding_statement : ∀ i : Instr, Laws.Encoding.Statement i
  | .rhInit => Laws.Encoding.rhInit
  | .rhHash => Laws.Encoding.rhHash
  | .rhUpdate => Laws.Encoding.rhUpdate
  | .ixInit => Laws.Encoding.ixInit
  | .ixAdd => Laws.Encoding.ixAdd
  | .ixFirst => Laws.Encoding.ixFirst
  | .ixNext => Laws.Encoding.ixNext
  | .ixBest => Laws.Encoding.ixBest

theorem decode_encode (i : Instr) : decode (encode i) = .ok i := by
  obtain ⟨_, hmbz, hop⟩ := encoding_statement i
  simp only [decode, hmbz, if_true, (hop i).2 rfl]

/-- All 32 bits of a word select its command (30_encoding.md R82). -/
theorem decode_ok_iff {w : Word} {i : Instr} : decode w = .ok i ↔ w = encode i :=
  ⟨encode_of_decode, fun h => h ▸ decode_encode i⟩

theorem decode_illegal {w : Word} (h : ∀ i, w ≠ encode i) : decode w = .error (.illegalCommand w) := by
  cases hd : decode w with
  | ok i => exact absurd (encode_of_decode hd) (h i)
  | error e => rw [decode_error hd]

theorem encode_mem_table (i : Instr) :
    encode i ∈ [0x00000001, 0x00000002, 0x00000003, 0x00000010, 0x00000011, 0x00000012, 0x00000013, 0x00000014] := by
  cases i <;> decide

/-- The opcode's high nibble names the unit, 0 for the rolling hash and 1 for the index (30_encoding.md R82). -/
theorem encode_unit (i : Instr) :
    (encode i).toNat / 16 = if i ∈ [Instr.rhInit, .rhHash, .rhUpdate] then 0 else 1 := by
  cases i <;> decide

/-- Settles O1: a word decodes to a command exactly when it is the command's own. -/
theorem wordSelectsCommandExactlyByAllBits : Obligations.WordSelectsCommandExactlyByAllBits := by
  refine ⟨fun w => ⟨decode_ok_iff, decode_ok_iff, decode_ok_iff, decode_ok_iff, decode_ok_iff, decode_ok_iff, decode_ok_iff,
    decode_ok_iff, fun hw => decode_illegal fun i hi => hw (hi ▸ encode_mem_table i)⟩, fun w i hd => ?_⟩
  rw [encode_of_decode hd]
  exact encode_unit i

/-- Settles O2: each command's word has the must-be-zero field clear and an opcode that names that command. -/
theorem encodedCommandDecodesToItself : Obligations.EncodedCommandDecodesToItself := fun i _ => decode_encode i

theorem decodeTableWord_some_iff {n w : Nat} {i : Instr} : decodeTableWord n w = some i ↔ tableWord n w = encode i := by
  rw [← decode_ok_iff, decodeTableWord]
  cases decode (tableWord n w) <;> simp

theorem decodeTableWord_none {n w : Nat} (h : ∀ i, tableWord n w ≠ encode i) : decodeTableWord n w = none := by
  rw [decodeTableWord, decode_illegal h]

/-- Settles O3: the first four words are commands' own, and the last three are no command's. -/
theorem tableWordsDecodeAsWritten : Obligations.TableWordsDecodeAsWritten := by
  refine ⟨decodeTableWord_some_iff.2 rfl, decodeTableWord_some_iff.2 rfl, decodeTableWord_some_iff.2 rfl,
    decodeTableWord_some_iff.2 rfl, decodeTableWord_none fun i => ?_, decodeTableWord_none fun i => ?_,
    decodeTableWord_none fun i => ?_⟩
  all_goals cases i <;> decide

/-! ### Waiting for the core -/

/-- At a WAIT the host reads STATUS, and passes the WAIT only with no command pending (30_encoding.md R89). -/
theorem step_wait {s : State} (h : s.hostDoes .wait) :
    step s = .next (if s.busy then s.popTurn.logRead (regOffset .status) else s.afterHost.logRead (regOffset .status)) := by
  obtain ⟨rest, hp⟩ := program_of_hostDoes h
  rw [step_hostMoves h.1]
  simp only [State.hostStep, hp]
  rfl

/-- Settles O18, by whether a command is pending. -/
theorem waitPollsUntilNotBusy : Obligations.WaitPollsUntilNotBusy := by
  refine fun s hwait => ⟨fun hseq => ?_, fun hseq => ?_⟩
  · rw [step_wait hwait, if_pos ((State.busy_iff s).2 hseq)]
    rfl
  · rw [step_wait hwait, if_neg (Bool.eq_false_iff.1 ((State.busy_false_iff s).2 hseq))]
    rfl

end Sys2Proof.Machine

/-! ## Proofs of the statements about the rolling hash (40_rolling_hash.md) -/

namespace Sys2Proof.Machine

/-! ### What the commands of the unit answer -/

/-- The completion fields of a success are what `complete` writes (60_exceptions.md R240). -/
theorem complete_eq_okDone (s : State) (r0 r1 r2 r3 : Word) : s.complete r0 r1 r2 r3 = s.okDone r0 r1 r2 r3 := rfl

/-- Raising writes the kind's code and the completion fields, and no more for a kind that leaves IX_VALID alone
(60_exceptions.md R241 and R242). -/
theorem raise_notConfigured (s : State) (info : Word) : s.raise .notConfigured info = s.errDone 6 info := rfl
theorem raise_invalidArgument (s : State) (info : Word) : s.raise .invalidArgument info = s.errDone 8 info := rfl
theorem raise_memoryFault (s : State) (info : Word) : s.raise .memoryFault info = s.errDone 9 info := rfl

/-- Settles O32, over the shapes of a completion: each of these commands writes the completion fields, and an InvalidIndex
clears IX_VALID beside them. -/
theorem lookupsLeaveTheUnitsUnchanged : Obligations.LookupsLeaveTheUnitsUnchanged := by
  intro i s t h hi
  cases answer h with
  | err | fault | invalid | ok =>
    exact ⟨rfl, rfl, rfl, rfl, rfl, rfl, rfl, rfl, fun _ => rfl, fun _ => rfl, fun _ => rfl⟩
  | initBad | initOk | ixErr | ixAlloc | ixOk | add => exact absurd hi (by decide)

section
variable {s : State}

/-- RH_INIT on a legal window, in the model's own functions (40_rolling_hash.md R110). -/
theorem exec_rhInit_configures (hw : 3 ≤ s.pend.a0.toNat) :
    exec .rhInit s =
      .next
        ({ s with
            ixValid := false, rhValid := true, rhW := s.pend.a0
            rhMult := BitVec.ofNat 32 (multW s.pend.a0.toNat)
            remtab := removalTable (multW s.pend.a0.toNat) }.okDone (BitVec.ofNat 32 (multW s.pend.a0.toNat)) 0 0 0) :=
  if_neg (show ¬ s.pend.a0.toNat ≤ 2 by omega)

/-- RH_INIT on a window of at most 2 (60_exceptions.md R231); the removal table takes a free value. -/
theorem exec_rhInit_rejects (hw : s.pend.a0.toNat ≤ 2) :
    exec .rhInit s =
      .next
        ({ s with
            ixValid := false, rhValid := false, rhW := 0, rhMult := 0
            remtab := Config.freeRemtab s.freeCtr, freeCtr := s.freeCtr + 1 }.errDone 1 s.pend.a0) :=
  if_pos hw

/-- RH_HASH and RH_UPDATE need a configured unit (60_exceptions.md R236). -/
theorem exec_rhHash_notConfigured (hv : s.rhValid = false) : exec .rhHash s = .next (s.errDone 6 0) := by
  simp only [exec, execRhHash, hv, Bool.false_eq_true, if_false, raise_notConfigured]

theorem exec_rhUpdate_notConfigured (hv : s.rhValid = false) : exec .rhUpdate s = .next (s.errDone 6 0) := by
  simp only [exec, execRhUpdate, hv, Bool.false_eq_true, if_false, raise_notConfigured]

theorem exec_rhHash_passesTop (hv : s.rhValid = true) (htop : 2 ^ 32 < s.pend.a0.toNat + s.rhW.toNat) :
    exec .rhHash s = .next (s.errDone 8 0) := by
  simp only [exec, execRhHash, State.operand0, hv, (passesTop_iff _ _).2 htop, if_true, raise_invalidArgument]

/-- Past its checks RH_HASH reads the window and completes with its hash (40_rolling_hash.md R111). -/
theorem exec_rhHash_reads (hv : s.rhValid = true) (hfit : s.pend.a0.toNat + s.rhW.toNat ≤ 2 ^ 32) :
    exec .rhHash s =
      s.finishRead (s.readBytes s.rhW.toNat s.pend.a0.toNat) fun bytes =>
        s.okDone (BitVec.ofNat 32 (hashWindow bytes)) 0 0 0 := by
  simp only [exec, execRhHash, State.operand0, hv, (passesTop_false_iff _ _).2 hfit, Bool.false_eq_true, if_true, if_false,
    complete_eq_okDone]

/-- Over readable bytes that is the polynomial of R102. -/
theorem exec_rhHash_readable (hv : s.rhValid = true) (hw : 3 ≤ s.rhW.toNat) (hfit : s.pend.a0.toNat + s.rhW.toNat ≤ 2 ^ 32)
    (hr : Readable s.platform s.pend.a0.toNat s.rhW.toNat) :
    exec .rhHash s = .next (s.okDone (BitVec.ofNat 32 (s.polyHash s.pend.a0.toNat s.rhW.toNat)) 0 0 0) := by
  rw [exec_rhHash_reads hv hfit, readBytes_ok s _ _ hr, State.finishRead_ok, hashWindow_polyHash s _ _ hw]

theorem exec_rhUpdate_droppedNotByte (hv : s.rhValid = true) (hd : 0xFF < s.pend.a1.toNat) :
    exec .rhUpdate s = .next (s.errDone 8 1) := by
  simp only [exec, execRhUpdate, State.operand1, hv, (byteOperand_spec _).2 hd, if_true, raise_invalidArgument]

theorem exec_rhUpdate_addedNotByte (hv : s.rhValid = true) (hd : s.pend.a1.toNat ≤ 0xFF) (ha : 0xFF < s.pend.a2.toNat) :
    exec .rhUpdate s = .next (s.errDone 8 2) := by
  obtain ⟨d, hd, -⟩ := (byteOperand_spec _).1 hd
  simp only [exec, execRhUpdate, State.operand1, State.operand2, hv, hd, (byteOperand_spec _).2 ha, if_true, raise_invalidArgument]

/-- On two byte operands RH_UPDATE slides the hash, by the removal table as it stands (40_rolling_hash.md R112). -/
theorem exec_rhUpdate_bytes (hv : s.rhValid = true) (hd : s.pend.a1.toNat ≤ 0xFF) (ha : s.pend.a2.toNat ≤ 0xFF) :
    ∃ d : Byte, d.toNat = s.pend.a1.toNat ∧
      exec .rhUpdate s =
        .next (s.okDone (BitVec.ofNat 32 (slide s.pend.a0.toNat (s.removal d).toNat s.pend.a2.toNat)) 0 0 0) := by
  obtain ⟨d, hd, hdv⟩ := (byteOperand_spec _).1 hd
  obtain ⟨a, ha, hav⟩ := (byteOperand_spec _).1 ha
  refine ⟨d, hdv, ?_⟩
  simp only [exec, execRhUpdate, State.operand0, State.operand1, State.operand2, hv, hd, ha, hav, if_true, complete_eq_okDone]

theorem slide_eq (old removed added : Nat) : slide old removed added = ((old + removed) % 2 ^ 23 * 257 + added) % 2 ^ 23 := rfl

/-- Under the unit's invariant the table holds the removal of R103, and the slide is that of R105. -/
theorem exec_rhUpdate_slides (h : s.RhInv) (hv : s.rhValid = true) (hd : s.pend.a1.toNat ≤ 0xFF) (ha : s.pend.a2.toNat ≤ 0xFF) :
    exec .rhUpdate s =
      .next
        (s.okDone
          (BitVec.ofNat 32
            (slide s.pend.a0.toNat (remClosed (multClosed s.rhW.toNat) s.pend.a1.toNat) s.pend.a2.toNat))
          0 0 0) := by
  obtain ⟨_, hunit⟩ := h
  obtain ⟨_, hmult, htab⟩ := hunit hv
  obtain ⟨d, hdv, he⟩ := exec_rhUpdate_bytes hv hd ha
  rw [he, htab, hmult, hdv]

end

/-! ### The commands' statements -/

/-- Settles O33, by the window's size: the multiplier and the table in closed form. -/
theorem rhInitConfiguresOrRejectsTheWindow : Obligations.RhInitConfiguresOrRejectsTheWindow := by
  refine fun s => ⟨fun hw => ?_, fun hw => ⟨_, _, exec_rhInit_rejects hw⟩⟩
  rw [← multW_eq _ s.pend.a0.isLt.le]
  exact ⟨_, exec_rhInit_configures hw, removalTable_get _⟩

/-- Settles O34, one check after the other. -/
theorem rhHashComputesThePolynomial : Obligations.RhHashComputesThePolynomial := by
  refine fun s => ⟨exec_rhHash_notConfigured, exec_rhHash_passesTop, fun hv hfit k hk hr hnone => ?_, exec_rhHash_readable⟩
  rw [exec_rhHash_reads hv hfit, readBytes_fail s _ _ k hk hr hnone, State.finishRead_fails, raise_memoryFault]

/-- Settles O35, one check after the other. -/
theorem rhUpdateSlidesTheHash : Obligations.RhUpdateSlidesTheHash := fun _ =>
  ⟨exec_rhUpdate_notConfigured, exec_rhUpdate_droppedNotByte, exec_rhUpdate_addedNotByte, exec_rhUpdate_slides⟩

/-! ### Rolling -/

/-- The sum of R102 before it is reduced. -/
def State.windowSum (s : State) (p w : Nat) : Nat := ((List.range w).map fun k => s.byteVal (p + k) * 257 ^ (w - 1 - k)).sum

section
variable (s : State) (p n : Nat)

theorem polyHash_eq : s.polyHash p n = s.windowSum p n % 2 ^ 23 := rfl

/-- The first byte of a window carries the multiplier. -/
theorem windowSum_first : s.windowSum p (n + 1) = s.byteVal p * 257 ^ n + s.windowSum (p + 1) n := by
  rw [State.windowSum, List.range_succ_eq_map, List.map_cons, List.sum_cons, List.map_map]
  congr 2
  refine List.map_congr_left fun k _ => ?_
  rw [Function.comp, show p + k.succ = p + 1 + k by omega, show n + 1 - 1 - k.succ = n - 1 - k by omega]

/-- The last byte of a window is added behind a multiplication of the rest. -/
theorem windowSum_last : s.windowSum p (n + 1) = s.windowSum p n * 257 + s.byteVal (p + n) := by
  rw [State.windowSum, State.windowSum, List.range_succ, List.map_append, List.sum_append, ← List.sum_map_mul_right]
  congr 2
  · refine List.map_congr_left fun k hk => ?_
    have hlt : k < n := List.mem_range.1 hk
    rw [show n + 1 - 1 - k = n - 1 - k + 1 by omega, pow_succ, mul_assoc]
  · simp

end

/-- Adding the removal of a byte takes its weighted value away (40_rolling_hash.md R103). -/
theorem remClosed_add_modEq (mult v : Nat) : remClosed mult v + v * mult ≡ 0 [MOD 2 ^ 23] := by
  unfold remClosed Nat.ModEq
  omega

/-- The slide of a window's hash is the next window's hash (40_rolling_hash.md R106). -/
theorem slide_polyHash (s : State) (p : Nat) {w : Nat} (hw : 0 < w) :
    slide (s.polyHash p w) (remClosed (multClosed w) (s.byteVal p)) (s.byteVal (p + w)) = s.polyHash (p + 1) w := by
  obtain ⟨n, rfl⟩ := Nat.exists_eq_add_of_le' hw
  have hrest : s.polyHash p (n + 1) + remClosed (multClosed (n + 1)) (s.byteVal p) ≡ s.windowSum (p + 1) n [MOD 2 ^ 23] :=
    calc s.polyHash p (n + 1) + remClosed (multClosed (n + 1)) (s.byteVal p)
      _ ≡ s.windowSum p (n + 1) + remClosed (multClosed (n + 1)) (s.byteVal p) [MOD 2 ^ 23] :=
        (Nat.mod_modEq _ _).add_right _
      _ = s.windowSum (p + 1) n + (remClosed (multClosed (n + 1)) (s.byteVal p) + s.byteVal p * 257 ^ n) := by
        rw [windowSum_first]; ring
      _ ≡ s.windowSum (p + 1) n + (remClosed (multClosed (n + 1)) (s.byteVal p) + s.byteVal p * multClosed (n + 1))
          [MOD 2 ^ 23] := (((Nat.mod_modEq _ _).symm.mul_left _).add_left _).add_left _
      _ ≡ s.windowSum (p + 1) n [MOD 2 ^ 23] := (remClosed_add_modEq _ _).add_left _
  rw [slide_eq, polyHash_eq s (p + 1), windowSum_last, show p + 1 + n = p + (n + 1) by omega]
  exact (((Nat.mod_modEq _ _).trans hrest).mul_right 257).add_right _

theorem byteVal_le (s : State) (a : Nat) : s.byteVal a ≤ 0xFF := Nat.le_of_lt_succ (Memory.read s.mem a).isLt

theorem toNat_ofNat_byteVal (s : State) (a : Nat) : (BitVec.ofNat 32 (s.byteVal a)).toNat = s.byteVal a :=
  Nat.mod_eq_of_lt ((byteVal_le s a).trans_lt (by decide))

theorem toNat_ofNat_polyHash (s : State) (p w : Nat) : (BitVec.ofNat 32 (s.polyHash p w)).toNat = s.polyHash p w :=
  Nat.mod_eq_of_lt ((Nat.mod_lt _ (by decide)).trans (show 2 ^ 23 < 2 ^ 32 by decide))

/-- Settles O36: both windows hash to their polynomials, and the slide takes one to the other. -/
theorem updateOfAWindowHashIsTheNextWindowsHash : Obligations.UpdateOfAWindowHashIsTheNextWindowsHash := by
  intro s p hinv hv hfit hr at0 slid
  obtain ⟨hw, _, _⟩ := hinv.2 hv
  have hhash : ∀ q, q + s.rhW.toNat ≤ 2 ^ 32 → Readable s.platform q s.rhW.toNat →
      exec .rhHash (at0 (BitVec.ofNat 32 q)) =
        .next ((at0 (BitVec.ofNat 32 q)).okDone (BitVec.ofNat 32 (s.polyHash q s.rhW.toNat)) 0 0 0) := by
    intro q hq hrq
    have hqv : (at0 (BitVec.ofNat 32 q)).pend.a0.toNat = q := Nat.mod_eq_of_lt (by omega)
    have h := exec_rhHash_readable (s := at0 (BitVec.ofNat 32 q)) hv hw (by rwa [hqv]) (by rwa [hqv])
    rwa [hqv] at h
  refine ⟨_, _, hhash p (by omega) fun k hk => hr k (by omega), hhash (p + 1) (by omega) fun k hk => ?_, ?_⟩
  · rw [Nat.add_assoc, Nat.add_comm 1]
    exact hr (k + 1) (by omega)
  · have h := exec_rhUpdate_slides (s := slid (BitVec.ofNat 32 (s.polyHash p s.rhW.toNat))) (hinv.congr rfl rfl rfl rfl) hv
      ((toNat_ofNat_byteVal s _).trans_le (byteVal_le s _)) ((toNat_ofNat_byteVal s _).trans_le (byteVal_le s _))
    simp only [slid, toNat_ofNat_polyHash, toNat_ofNat_byteVal, slide_polyHash s p (show 0 < s.rhW.toNat by omega)] at h
    exact h

/-! ### The range of the results -/

/-- A read that answers gives as many bytes as it was to read. -/
theorem readBytes_length (s : State) : ∀ n a l, s.readBytes n a = .ok l → l.length = n
  | 0, _, _, h => by cases h; rfl
  | n + 1, a, l, h => by
    simp only [State.readBytes] at h
    split at h
    · cases h
    · split at h
      · cases h
      · rename_i xs hxs
        cases h
        rw [List.length_cons, readBytes_length s n _ xs hxs]

theorem toNat_ofNat_lt_modulus {x : Nat} (h : x < 2 ^ 23) : (BitVec.ofNat 32 x).toNat < 2 ^ 23 :=
  (Nat.mod_le _ _).trans_lt h

/-- RES0 after RH_HASH: 0 with an error, or the hash of the bytes read. -/
theorem exec_rhHash_res0 {s t : State} (h : exec .rhHash s = .next t) :
    t.res0 = 0 ∨
      ∃ bytes, s.readBytes s.rhW.toNat s.pend.a0.toNat = .ok bytes ∧ t.res0 = BitVec.ofNat 32 (hashWindow bytes) := by
  cases hv : s.rhValid with
  | false =>
    rw [exec_rhHash_notConfigured hv] at h
    cases h
    exact .inl rfl
  | true =>
    rcases le_or_gt (s.pend.a0.toNat + s.rhW.toNat) (2 ^ 32) with hfit | htop
    · rw [exec_rhHash_reads hv hfit] at h
      obtain ⟨bytes, hb, rfl⟩ | ⟨a, _, rfl⟩ := State.finishRead_next h
      · exact .inr ⟨bytes, hb, rfl⟩
      · exact .inl rfl
    · rw [exec_rhHash_passesTop hv htop] at h
      cases h
      exact .inl rfl

/-- RES0 after RH_UPDATE: 0 with an error, or a slide. -/
theorem exec_rhUpdate_res0 {s t : State} (h : exec .rhUpdate s = .next t) :
    t.res0 = 0 ∨ ∃ removed added, t.res0 = BitVec.ofNat 32 (slide s.pend.a0.toNat removed added) := by
  cases hv : s.rhValid with
  | false =>
    rw [exec_rhUpdate_notConfigured hv] at h
    cases h
    exact .inl rfl
  | true =>
    rcases le_or_gt s.pend.a1.toNat 0xFF with hd | hd
    · rcases le_or_gt s.pend.a2.toNat 0xFF with ha | ha
      · obtain ⟨d, _, he⟩ := exec_rhUpdate_bytes hv hd ha
        rw [he] at h
        cases h
        exact .inr ⟨_, _, rfl⟩
      · rw [exec_rhUpdate_addedNotByte hv hd ha] at h
        cases h
        exact .inl rfl
    · rw [exec_rhUpdate_droppedNotByte hv hd] at h
      cases h
      exact .inl rfl

/-- Settles O37: an error answers 0, and a window hash and a slide are reduced modulo 2^23. -/
theorem hashResultsAreBelowTheModulus : Obligations.HashResultsAreBelowTheModulus := by
  intro i s t hi hw h
  have hzero : (0 : Word).toNat < 2 ^ 23 := by decide
  simp only [List.mem_cons, List.not_mem_nil, or_false] at hi
  obtain rfl | rfl := hi
  · obtain h0 | ⟨bytes, hb, h0⟩ := exec_rhHash_res0 h
    · exact h0 ▸ hzero
    · exact h0 ▸ toNat_ofNat_lt_modulus (hashWindow_lt bytes (by rwa [readBytes_length s _ _ _ hb]))
  · obtain h0 | ⟨removed, added, h0⟩ := exec_rhUpdate_res0 h
    · exact h0 ▸ hzero
    · exact h0 ▸ toNat_ofNat_lt_modulus (Nat.mod_lt _ (by decide))

/-! ### The period of the multiplier -/

/-- 257 as a unit modulo 2^23. -/
def hashMultUnit : (ZMod (2 ^ 23))ˣ := ZMod.unitOfCoprime 257 (by norm_num)

/-- Its powers stand for those of 257 modulo 2^23. -/
theorem hashMultUnit_pow_eq_iff (a b : Nat) :
    hashMultUnit ^ a = hashMultUnit ^ b ↔ 257 ^ a % 2 ^ 23 = 257 ^ b % 2 ^ 23 := by
  rw [Units.ext_iff, Units.val_pow_eq_pow_val, Units.val_pow_eq_pow_val, hashMultUnit, ZMod.coe_unitOfCoprime,
    ← Nat.cast_pow, ← Nat.cast_pow, ZMod.natCast_eq_natCast_iff']

/-- A power of 257 is 1 exactly when the multiplier of the window that has it is. -/
theorem hashMultUnit_pow_eq_one_iff {e : Nat} (he : e < 2 ^ 32) : hashMultUnit ^ e = 1 ↔ multW (e + 1) = 1 := by
  rw [multW_eq (e + 1) he, Nat.add_sub_cancel, ← pow_zero hashMultUnit, hashMultUnit_pow_eq_iff]
  rfl

/-- The multiplicative order of 257 modulo 2^23 is 2^15: the multiplier is 1 at W - 1 = 2^15, and not at 2^14
(40_rolling_hash.md R107). -/
theorem orderOf_hashMultUnit : orderOf hashMultUnit = 2 ^ 15 := by
  refine orderOf_eq_prime_pow (p := 2) (n := 14) ?_ ?_
  · rw [hashMultUnit_pow_eq_one_iff (by decide)]
    decide
  · rw [hashMultUnit_pow_eq_one_iff (by decide)]
    decide

/-- So two powers of 257 agree modulo 2^23 exactly when their exponents agree modulo 2^15. -/
theorem hashMult_pow_eq_iff (a b : Nat) : 257 ^ a % 2 ^ 23 = 257 ^ b % 2 ^ 23 ↔ a % 32768 = b % 32768 := by
  rw [← hashMultUnit_pow_eq_iff, pow_eq_pow_iff_modEq, orderOf_hashMultUnit]
  rfl

theorem multW_eq_iff {v w : Nat} (hv : v < 2 ^ 32) (hw : w < 2 ^ 32) :
    multW v = multW w ↔ (v - 1) % 32768 = (w - 1) % 32768 := by
  rw [multW_eq v hv.le, multW_eq w hw.le, hashMult_pow_eq_iff]

theorem multW_lt {w : Nat} (hw : w < 2 ^ 32) : multW w < 2 ^ 23 := multW_eq w hw.le ▸ Nat.mod_lt _ (by decide)

/-- A register holds a whole multiplier. -/
theorem ofNat_multW_inj {v w : Nat} (hv : v < 2 ^ 32) (hw : w < 2 ^ 32) :
    BitVec.ofNat 32 (multW v) = BitVec.ofNat 32 (multW w) ↔ multW v = multW w := by
  have hv' := multW_lt hv
  have hw' := multW_lt hw
  rw [BitVec.toNat_eq, BitVec.toNat_ofNat, BitVec.toNat_ofNat]
  omega

/-- Settles O38, by the order of 257: RH_INIT answers the multiplier and keeps it. -/
theorem multiplierHasPeriod32768 : Obligations.MultiplierHasPeriod32768 := by
  refine ⟨fun v w _ _ => multW_eq_iff, fun s s' t t' hw hw' h h' => ?_⟩
  rw [exec_rhInit_configures hw] at h
  rw [exec_rhInit_configures hw'] at h'
  cases h
  cases h'
  have hiff := (ofNat_multW_inj s.pend.a0.isLt s'.pend.a0.isLt).trans (multW_eq_iff s.pend.a0.isLt s'.pend.a0.isLt)
  exact ⟨hiff, hiff⟩

end Sys2Proof.Machine

/-! ## Proofs of the statements about building the index (41_block_index.md) -/

namespace Sys2Proof.Machine

/-! ### Codes and completions -/

/-- The kind of code 3 is one that invalidates the index (60_exceptions.md R230 and R242). -/
theorem code_ne_three_of_not_invalidatesIndex {e : ErrKind} (h : e.invalidatesIndex = false) : e.code ≠ 3 := by
  cases e with
  | duplicateBlock => cases h
  | _ => decide

/-- Settles O30, over the shapes of a completion: the block IX_ADD would append is never indexed, so no shape raises
DuplicateBlock. -/
theorem duplicateBlockIsNeverReported : Obligations.DuplicateBlockIsNeverReported := by
  intro i s t h
  cases answer h with
  | err _ _ _ he | ixErr _ _ _ he => exact code_ne_three_of_not_invalidatesIndex he
  | fault | invalid | initBad | ixAlloc =>
    rw [State.raise_lastErr]
    decide
  | ok | initOk | ixOk | add =>
    rw [State.complete_lastErr]
    decide

theorem raise_tableSize (s : State) (info : Word) : s.raise .tableSize info = s.errDone 5 info := rfl
theorem raise_allocationFailure (s : State) (info : Word) : s.raise .allocationFailure info = s.errDone 4 info := rfl

/-- An InvalidIndex clears IX_VALID beside the completion fields (60_exceptions.md R242). -/
theorem raise_invalidIndex (s : State) (info : Word) :
    s.raise .invalidIndex info = { s with ixValid := false }.errDone 2 info := rfl

/-! ### The bucket count -/

/-- A power of two that is less than twice a need is no larger than any power of two that reaches it. -/
theorem two_pow_le_of_lt_double {need i j : Nat} (hj : 2 ^ j < 2 * need) (hi : need ≤ 2 ^ i) : 2 ^ j ≤ 2 ^ i := by
  have hlt : 2 ^ j < 2 ^ (i + 1) :=
    calc 2 ^ j
      _ < 2 * need := hj
      _ ≤ 2 * 2 ^ i := Nat.mul_le_mul_left 2 hi
      _ = 2 ^ (i + 1) := (Nat.pow_succ' ..).symm
  have hji : j < i + 1 := (Nat.pow_lt_pow_iff_right (by decide)).1 hlt
  exact Nat.pow_le_pow_right (by decide) (Nat.le_of_lt_succ hji)

/-- Settles O39: the doubling stops at 1 or below twice the need. -/
theorem tableSizeIsTheLeastPowerOfTwo : Obligations.TableSizeIsTheLeastPowerOfTwo := by
  intro n hn
  obtain ⟨j, hts, hneed, hone | hlt⟩ := tableSize_spec n hn
  · exact ⟨j, hts, hneed, fun i _ => hone ▸ Nat.one_le_two_pow⟩
  · exact ⟨j, hts, hneed, fun i hi => two_pow_le_of_lt_double hlt hi⟩

section
variable {s : State}

/-! ### IX_INIT, check by check (41_block_index.md R122 and R125) -/

theorem exec_ixInit_notConfigured (hv : s.rhValid = false) : exec .ixInit s = .next (s.errDone 6 0) := by
  simp only [exec, execIxInit, hv, Bool.false_eq_true, if_false, raise_notConfigured]

theorem exec_ixInit_empty (hv : s.rhValid = true) (hn : s.pend.a1 = 0) :
    exec .ixInit s = .next ({ s with ixValid := false }.errDone 5 0) := by
  simp only [exec, execIxInit, State.operand1, hv, hn, if_true, raise_tableSize]

theorem exec_ixInit_passesTop (hv : s.rhValid = true) (hn : s.pend.a1 ≠ 0) (htop : 2 ^ 32 < s.pend.a0.toNat + s.pend.a1.toNat) :
    exec .ixInit s = .next ({ s with ixValid := false }.errDone 8 1) := by
  simp only [exec, execIxInit, State.operand0, State.operand1, hv, hn, (passesTop_iff _ _).2 htop, if_true, if_false,
    raise_invalidArgument]

/-- Past the argument checks the geometry is written, and the capacities decide between it alone and an empty index. -/
theorem exec_ixInit_geometry (hv : s.rhValid = true) (hn : s.pend.a1 ≠ 0) (hfit : s.pend.a0.toNat + s.pend.a1.toNat ≤ 2 ^ 32) :
    let nb := s.pend.a1.toNat / s.rhW.toNat
    let ts := tableSize s.pend.a1.toNat
    let s' := { s with ixValid := false }.withGeometry s.pend.a0 s.pend.a1 nb ts
    exec .ixInit s =
      if s.platform.maxBlocks.toNat < nb ∨ s.platform.maxTblsiz.toNat < ts then .next (s'.errDone 4 0)
      else .next ((s'.withEmptyIndex nb ts).okDone (BitVec.ofNat 32 nb) (BitVec.ofNat 32 ts) 0 0) := by
  simp only [exec, execIxInit, State.operand0, State.operand1, hv, hn, (passesTop_false_iff _ _).2 hfit, Bool.false_eq_true,
    if_true, if_false, blockCount, raise_allocationFailure, complete_eq_okDone]

/-! ### IX_ADD, check by check (41_block_index.md R127) -/

theorem exec_ixAdd_notConfigured (hv : s.ixValid = false) : exec .ixAdd s = .next (s.errDone 6 0) := by
  simp only [exec, execIxAdd, hv, Bool.false_eq_true, if_false, raise_notConfigured]

theorem exec_ixAdd_noOp (hv : s.ixValid = true) (hidx : s.pend.a0.toNat ≠ s.nextBlock.toNat * s.rhW.toNat) :
    exec .ixAdd s = .next (s.okDone 0 noneWord 0 0) := by
  simp only [exec, execIxAdd, State.operand0, hv, hidx, ne_eq, not_false_eq_true, if_true, complete_eq_okDone]

theorem exec_ixAdd_pastTheEnd (hv : s.ixValid = true) (hidx : s.pend.a0.toNat = s.nextBlock.toNat * s.rhW.toNat)
    (hend : s.ixNblk.toNat ≤ s.nextBlock.toNat) :
    exec .ixAdd s = .next ({ s with ixValid := false }.errDone 2 s.nextBlock) := by
  simp only [exec, execIxAdd, State.operand0, hv, hidx, hend, ne_eq, not_true, if_true, if_false, raise_invalidIndex]

theorem exec_ixAdd_appends (hv : s.ixValid = true) (hidx : s.pend.a0.toNat = s.nextBlock.toNat * s.rhW.toNat)
    (hlt : s.nextBlock.toNat < s.ixNblk.toNat) :
    exec .ixAdd s = .next ((s.withNextBlock (s.bucket s.pend.a1)).okDone 1 s.nextBlock 0 0) := by
  simp only [exec, execIxAdd, State.operand0, State.operand1, hv, hidx, not_le.2 hlt, indexed_nextBlock, Bool.false_eq_true,
    ne_eq, not_true, if_true, if_false, complete_eq_okDone, State.withNextBlock]

/-- Under R121's geometry the mask of R123 is a remainder. -/
theorem State.Geometry.bucket_eq_mod (h : s.Geometry) (x : Word) : s.bucket x = x.toNat % s.ixTblsiz.toNat := by
  obtain ⟨_, _, _, hts, _, _⟩ := h
  obtain ⟨j, hj, _, _⟩ := tableSize_spec s.ixRefLen.toNat s.ixRefLen.isLt
  exact bucket_eq (hts.trans hj) x

/-! ### The append, entry by entry (41_block_index.md R124) -/

/-- An append writes the three arrays and IX_LASTBLK, and nothing else. -/
theorem withNextBlock_eq (s : State) (k : Nat) :
    s.withNextBlock k =
      { s with
        headTab := (s.withNextBlock k).headTab, nextTab := (s.withNextBlock k).nextTab
        lastTab := (s.withNextBlock k).lastTab, ixLastblk := s.nextBlock } := by
  unfold State.withNextBlock
  by_cases hhd : s.head k = noneWord
  · rw [append_empty _ hhd]
  · rw [append_behind _ hhd]

variable {k : Nat} (hb : s.nextBlock ≠ noneWord)
include hb

/-- To an empty bucket the block goes as its head and its tail. -/
theorem withNextBlock_entries_of_none (hhd : s.head k = noneWord) :
    (∀ j, (s.withNextBlock k).head j = if j = k then s.nextBlock else s.head j) ∧
      (∀ j, (s.withNextBlock k).nextOf j = s.nextOf j) ∧
      ∀ j, (s.withNextBlock k).lastOf j = if j = s.nextBlock.toNat then s.nextBlock else s.lastOf j := by
  refine ⟨fun j => ?_, withNextBlock_nextOf_of_none hhd, fun j => ?_⟩
  · split
    next hj => rw [hj, withNextBlock_head_of_none hb hhd]
    next hj => exact withNextBlock_head_ne hj
  · rw [withNextBlock_lastOf hb, withNextBlock_head_of_none hb hhd]

/-- To any other bucket it goes behind the tail. -/
theorem withNextBlock_entries_of_ne_none (hhd : s.head k ≠ noneWord) :
    (∀ j, (s.withNextBlock k).head j = s.head j) ∧
      (∀ j, (s.withNextBlock k).nextOf j = if j = s.tail k then s.nextBlock else s.nextOf j) ∧
      ∀ j, (s.withNextBlock k).lastOf j = if j = (s.head k).toNat then s.nextBlock else s.lastOf j := by
  refine ⟨withNextBlock_head_of_ne_none hhd, fun j => ?_, fun j => ?_⟩
  · split
    next hj => rw [hj, withNextBlock_nextOf_tail hb hhd]
    next hj => exact withNextBlock_nextOf_ne fun _ => hj
  · rw [withNextBlock_lastOf hb, withNextBlock_head_of_ne_none hhd]

end

/-! ### The commands' statements -/

/-- Settles O40, one check after the other; a cleared array reads `NONE` below the count and as before from there on. -/
theorem ixInitCreatesAnEmptyIndex : Obligations.IxInitCreatesAnEmptyIndex := by
  refine fun s => ⟨exec_ixInit_notConfigured, exec_ixInit_empty, exec_ixInit_passesTop, fun hv hn hfit hcap => ?_,
    fun hv hn hfit hnb hts => ⟨_, _, _, ?_, fun k => Sparse.get_clearBelow noneWord _ k s.headTab,
      fun b => Sparse.get_clearBelow noneWord _ b s.nextTab, fun b => Sparse.get_clearBelow noneWord _ b s.lastTab⟩⟩
  · exact (exec_ixInit_geometry hv hn hfit).trans (if_pos hcap)
  · exact (exec_ixInit_geometry hv hn hfit).trans (if_neg (not_or.2 ⟨not_lt.2 hnb, not_lt.2 hts⟩))

/-- Settles O41, one check after the other; the append by whether the bucket has a head. -/
theorem ixAddAppendsTheNextBlock : Obligations.IxAddAppendsTheNextBlock := by
  refine fun s => ⟨exec_ixAdd_notConfigured, exec_ixAdd_noOp, exec_ixAdd_pastTheEnd, fun hinv hv hidx hlt => ?_⟩
  obtain ⟨_, hgeo, _⟩ := hinv.ix hv
  have happ := exec_ixAdd_appends hv hidx hlt
  rw [hgeo.bucket_eq_mod, withNextBlock_eq] at happ
  have hb : s.nextBlock ≠ noneWord := ne_none_of_lt hlt
  exact ⟨_, _, _, happ, withNextBlock_entries_of_none hb, withNextBlock_entries_of_ne_none hb⟩

end Sys2Proof.Machine

/-! ## Proofs of the statements about finding a block (42_match_verify.md) -/

namespace Sys2Proof.Machine

/-- What IX_FIRST and IX_NEXT answer past their checks: a scan from `start`, the block found in RES0 and the probes made in RES1
(42_match_verify.md R145 and R146). -/
def State.lookup (s : State) (start : Word) : Host.Outcome State Fault Refusal :=
  s.finishRead (s.scan s.pend.a1.toNat Config.maxProbes start) fun r => s.okDone r.1 (BitVec.ofNat 32 r.2) 0 0

section
variable {s : State}

/-! ### The two commands, check by check (42_match_verify.md R145 and R146) -/

theorem exec_ixFirst_notConfigured (hv : s.ixValid = false) : exec .ixFirst s = .next (s.errDone 6 0) := by
  simp only [exec, execIxFirst, hv, Bool.false_eq_true, if_false, raise_notConfigured]

theorem exec_ixFirst_passesTop (hv : s.ixValid = true) (htop : 2 ^ 32 < s.pend.a1.toNat + s.rhW.toNat) :
    exec .ixFirst s = .next (s.errDone 8 1) := by
  simp only [exec, execIxFirst, State.operand1, hv, (passesTop_iff _ _).2 htop, if_true, raise_invalidArgument]

theorem exec_ixFirst_looksUp (hv : s.ixValid = true) (hfit : s.pend.a1.toNat + s.rhW.toNat ≤ 2 ^ 32) :
    exec .ixFirst s = s.lookup (s.firstOf s.pend.a0) := by
  simp only [exec, execIxFirst, State.operand0, State.operand1, hv, (passesTop_false_iff _ _).2 hfit, Bool.false_eq_true, if_true,
    if_false, complete_eq_okDone, State.lookup]

theorem exec_ixNext_notConfigured (hv : s.ixValid = false) : exec .ixNext s = .next (s.errDone 6 0) := by
  simp only [exec, execIxNext, hv, Bool.false_eq_true, if_false, raise_notConfigured]

theorem exec_ixNext_outOfRange (hv : s.ixValid = true) (hout : s.ixNblk.toNat ≤ s.pend.a0.toNat) :
    exec .ixNext s = .next ({ s with ixValid := false }.errDone 2 s.pend.a0) := by
  simp only [exec, execIxNext, State.operand0, hv, hout, if_true, raise_invalidIndex]

theorem exec_ixNext_passesTop (hv : s.ixValid = true) (hin : s.pend.a0.toNat < s.ixNblk.toNat)
    (htop : 2 ^ 32 < s.pend.a1.toNat + s.rhW.toNat) : exec .ixNext s = .next (s.errDone 8 1) := by
  simp only [exec, execIxNext, State.operand0, State.operand1, hv, not_le.2 hin, (passesTop_iff _ _).2 htop, if_true, if_false,
    raise_invalidArgument]

theorem exec_ixNext_looksUp (hv : s.ixValid = true) (hin : s.pend.a0.toNat < s.ixNblk.toNat)
    (hfit : s.pend.a1.toNat + s.rhW.toNat ≤ 2 ^ 32) : exec .ixNext s = s.lookup (s.nextOf s.pend.a0.toNat) := by
  simp only [exec, execIxNext, State.operand0, State.operand1, hv, not_le.2 hin, (passesTop_false_iff _ _).2 hfit,
    Bool.false_eq_true, if_true, if_false, complete_eq_okDone, State.lookup]

/-! ### A success is a lookup's -/

theorem lastErr_ne_zero_of_errDone {u t : State} {code : Byte} {info : Word} (hcode : code ≠ 0)
    (h : (.next (u.errDone code info) : Host.Outcome State Fault Refusal) = .next t) : t.lastErr ≠ 0 := by
  cases h
  exact hcode

theorem lookup_of_ixFirst_success {t : State} (h : exec .ixFirst s = .next t) (he : t.lastErr = 0) :
    s.lookup (s.firstOf s.pend.a0) = .next t := by
  cases hv : s.ixValid with
  | false =>
    rw [exec_ixFirst_notConfigured hv] at h
    exact absurd he (lastErr_ne_zero_of_errDone (by decide) h)
  | true =>
    rcases le_or_gt (s.pend.a1.toNat + s.rhW.toNat) (2 ^ 32) with hfit | htop
    · rwa [exec_ixFirst_looksUp hv hfit] at h
    · rw [exec_ixFirst_passesTop hv htop] at h
      exact absurd he (lastErr_ne_zero_of_errDone (by decide) h)

theorem lookup_of_ixNext_success {t : State} (h : exec .ixNext s = .next t) (he : t.lastErr = 0) :
    s.lookup (s.nextOf s.pend.a0.toNat) = .next t := by
  cases hv : s.ixValid with
  | false =>
    rw [exec_ixNext_notConfigured hv] at h
    exact absurd he (lastErr_ne_zero_of_errDone (by decide) h)
  | true =>
    rcases lt_or_ge s.pend.a0.toNat s.ixNblk.toNat with hin | hout
    · rcases le_or_gt (s.pend.a1.toNat + s.rhW.toNat) (2 ^ 32) with hfit | htop
      · rwa [exec_ixNext_looksUp hv hin hfit] at h
      · rw [exec_ixNext_passesTop hv hin htop] at h
        exact absurd he (lastErr_ne_zero_of_errDone (by decide) h)
    · rw [exec_ixNext_outOfRange hv hout] at h
      exact absurd he (lastErr_ne_zero_of_errDone (by decide) h)

/-! ### What a lookup answers -/

/-- A lookup that succeeds shows its scan's answer. -/
theorem lookup_success {t : State} {start : Word} (h : s.lookup start = .next t) (he : t.lastErr = 0) :
    ∃ probes, s.scan s.pend.a1.toNat Config.maxProbes start = .ok (t.res0, probes) ∧ t.res1 = BitVec.ofNat 32 probes := by
  obtain ⟨⟨found, probes⟩, hscan, rfl⟩ | ⟨a, _, rfl⟩ := State.finishRead_next h
  · exact ⟨probes, hscan, rfl⟩
  · rw [State.raise_lastErr] at he
    exact absurd he (by decide)

/-- The block it reports equals the window, whatever is readable (42_match_verify.md R143). -/
theorem lookup_sameBytes {t : State} {start : Word} (h : s.lookup start = .next t) (he : t.lastErr = 0)
    (hfound : t.res0 ≠ noneWord) : s.sameBytes (s.blockAddr t.res0.toNat) s.pend.a1.toNat s.rhW.toNat := by
  obtain ⟨probes, hscan, _⟩ := lookup_success h he
  obtain ⟨_, _, hsame⟩ := scan_answers _ _ _ _ _ hscan
  exact hsame hfound

/-- The probes it counts fit the budget, and there are none only without a block to start from (42_match_verify.md R142). -/
theorem lookup_probes {t : State} {start : Word} (h : s.lookup start = .next t) (he : t.lastErr = 0) :
    t.res1.toNat ≤ 16 ∧ (t.res1 = 0 ↔ start = noneWord) := by
  obtain ⟨probes, hscan, hres⟩ := lookup_success h he
  obtain ⟨hbudget, hnone, _⟩ := scan_answers _ _ _ _ _ hscan
  have hle : probes ≤ 16 := hbudget
  have hval : t.res1.toNat = probes := by
    rw [hres, BitVec.toNat_ofNat]
    omega
  refine ⟨hval.trans_le hle, ?_⟩
  rw [← hnone (by decide), ← hval, BitVec.toNat_eq]
  rfl

/-- Over a chain, with the bytes it reaches readable, a lookup finds the first match among the first 16 blocks
(42_match_verify.md R141). -/
theorem lookup_of_walk {start : Word} {chain : List Nat} (hw : s.Walk chain start)
    (hr : AllReadable s.platform (s.lookupReads s.pend.a1.toNat chain)) :
    s.lookup start =
      .next
        (s.okDone
          (match (chain.take 16).find? (s.blockMatches s.pend.a1.toNat) with
            | some b => BitVec.ofNat 32 b
            | none => noneWord)
          (BitVec.ofNat 32 (min ((chain.take 16).findIdx (s.blockMatches s.pend.a1.toNat) + 1) (chain.take 16).length)) 0 0) := by
  have hverify : ∀ b ∈ s.compared s.pend.a1.toNat chain,
      s.verify b s.pend.a1.toNat = .ok (s.blockMatches s.pend.a1.toNat b) :=
    fun b hb => verify_reads fun a ha => hr a (List.mem_flatMap_of_mem hb ha)
  rw [State.lookup, scan_ok _ _ Config.maxProbes start chain hw hverify]
  exact State.finishRead_ok _ _ _

/-! ### Where the two scans start -/

/-- Behind any block in range there is a chain: the rest of its bucket's, or nothing where the block is not indexed
(10_state.md R44). -/
theorem State.Chains.exists_walk_nextOf (h : s.Chains) {b : Nat} (hb : b < s.ixNblk.toNat) :
    ∃ chain, s.Walk chain (s.nextOf b) := by
  by_cases hidx : s.Indexed b
  · obtain ⟨_, ⟨_, cs, hw, hmem⟩, _⟩ := h.once b hidx
    obtain ⟨rest, hrest, _⟩ := walk_next hw hmem
    exact ⟨rest, hrest⟩
  · obtain ⟨hnext, _⟩ := h.unindexed b hb hidx
    exact ⟨[], hnext⟩

end

/-! ### The statements -/

/-- Settles O43: the chain is that of the hash's bucket. -/
theorem ixFirstFindsTheFirstMatchInBudget : Obligations.IxFirstFindsTheFirstMatchInBudget := by
  intro s hinv hv tp hfit
  obtain ⟨_, hgeo, hch⟩ := hinv.ix hv
  rw [← hgeo.bucket_eq_mod]
  obtain ⟨chain, hw, _⟩ := hch.chain _ (hgeo.bucket_lt s.pend.a0)
  exact ⟨chain, hw, fun hr => (exec_ixFirst_looksUp hv hfit).trans (lookup_of_walk hw hr)⟩

/-- Settles O44: the chain is what stands behind the block. -/
theorem ixNextGoesOnBehindABlock : Obligations.IxNextGoesOnBehindABlock := by
  intro s hinv hv hin tp hfit
  obtain ⟨_, _, hch⟩ := hinv.ix hv
  obtain ⟨chain, hw⟩ := hch.exists_walk_nextOf hin
  exact ⟨chain, hw, fun hr => (exec_ixNext_looksUp hv hin hfit).trans (lookup_of_walk hw hr)⟩

/-- Settles O47: either command's success is a lookup's. -/
theorem aReportedBlockEqualsTheWindow : Obligations.AReportedBlockEqualsTheWindow := by
  intro i s t hi h he hfound
  simp only [List.mem_cons, List.not_mem_nil, or_false] at hi
  obtain rfl | rfl := hi
  · exact lookup_sameBytes (lookup_of_ixFirst_success h he) he hfound
  · exact lookup_sameBytes (lookup_of_ixNext_success h he) he hfound

/-- Settles O48: either command's success is a lookup's. -/
theorem probesStayWithinTheBudget : Obligations.ProbesStayWithinTheBudget := fun _ _ =>
  ⟨fun h he => lookup_probes (lookup_of_ixFirst_success h he) he, fun h he => lookup_probes (lookup_of_ixNext_success h he) he⟩

end Sys2Proof.Machine

/-! ## Proofs of the statements about the longest match (43_best_match.md) -/

namespace Sys2Proof.Machine

/-- The target that IX_BEST is given (43_best_match.md R166). -/
def State.target (s : State) : Target := ⟨s.pend.a1.toNat, s.pend.a2.toNat, s.pend.a3.toNat⟩

section
variable {s t : State} {tgt : Target}

/-! ### IX_BEST, check by check (43_best_match.md R166) -/

theorem exec_ixBest_notConfigured (hv : s.ixValid = false) : exec .ixBest s = .next (s.errDone 6 0) := by
  simp only [exec, execIxBest, hv, Bool.false_eq_true, if_false, raise_notConfigured]

theorem exec_ixBest_boundPastWindow (hv : s.ixValid = true) (hlt : s.pend.a1.toNat < s.pend.a2.toNat) :
    exec .ixBest s = .next (s.errDone 8 2) := by
  simp only [exec, execIxBest, State.operand1, State.operand2, hv, hlt, if_true, raise_invalidArgument]

theorem exec_ixBest_tooShort (hv : s.ixValid = true) (htb : s.pend.a2.toNat ≤ s.pend.a1.toNat)
    (hshort : s.pend.a3.toNat < s.rhW.toNat) : exec .ixBest s = .next (s.errDone 8 3) := by
  simp only [exec, execIxBest, State.operand1, State.operand2, State.operand3, hv, not_lt.2 htb, hshort, if_true, if_false,
    raise_invalidArgument]

theorem exec_ixBest_passesTop (hv : s.ixValid = true) (htb : s.pend.a2.toNat ≤ s.pend.a1.toNat)
    (htl : s.rhW.toNat ≤ s.pend.a3.toNat) (htop : 2 ^ 32 < s.pend.a1.toNat + s.pend.a3.toNat) :
    exec .ixBest s = .next (s.errDone 8 3) := by
  simp only [exec, execIxBest, State.operand1, State.operand2, State.operand3, hv, not_lt.2 htb, not_lt.2 htl,
    (passesTop_iff _ _).2 htop, if_true, if_false, raise_invalidArgument]

theorem exec_ixBest_selects (hv : s.ixValid = true) (htb : s.pend.a2.toNat ≤ s.pend.a1.toNat)
    (htl : s.rhW.toNat ≤ s.pend.a3.toNat) (hfit : s.pend.a1.toNat + s.pend.a3.toNat ≤ 2 ^ 32) :
    exec .ixBest s =
      s.finishRead (s.bestFrom s.target s.pend.maxcand.toNat (s.firstOf s.pend.a0) none) s.completeBest := by
  simp only [exec, execIxBest, State.operand0, State.operand1, State.operand2, State.operand3, State.operandCap, State.target, hv,
    not_lt.2 htb, not_lt.2 htl, (passesTop_false_iff _ _).2 hfit, Bool.false_eq_true, if_true, if_false]

/-- A success passed the checks and shows what the selector answered. -/
theorem ixBest_success (h : exec .ixBest s = .next t) (he : t.lastErr = 0) :
    s.ixValid = true ∧ s.pend.a2.toNat ≤ s.pend.a1.toNat ∧ s.rhW.toNat ≤ s.pend.a3.toNat ∧
      s.pend.a1.toNat + s.pend.a3.toNat ≤ 2 ^ 32 ∧
      ∃ best, s.bestFrom s.target s.pend.maxcand.toNat (s.firstOf s.pend.a0) none = .ok best ∧ t = s.completeBest best := by
  cases hv : s.ixValid with
  | false =>
    rw [exec_ixBest_notConfigured hv] at h
    exact absurd he (lastErr_ne_zero_of_errDone (by decide) h)
  | true =>
    rcases lt_or_ge s.pend.a1.toNat s.pend.a2.toNat with hlt | htb
    · rw [exec_ixBest_boundPastWindow hv hlt] at h
      exact absurd he (lastErr_ne_zero_of_errDone (by decide) h)
    rcases lt_or_ge s.pend.a3.toNat s.rhW.toNat with hshort | htl
    · rw [exec_ixBest_tooShort hv htb hshort] at h
      exact absurd he (lastErr_ne_zero_of_errDone (by decide) h)
    rcases lt_or_ge (2 ^ 32) (s.pend.a1.toNat + s.pend.a3.toNat) with htop | hfit
    · rw [exec_ixBest_passesTop hv htb htl htop] at h
      exact absurd he (lastErr_ne_zero_of_errDone (by decide) h)
    rw [exec_ixBest_selects hv htb htl hfit] at h
    obtain ⟨best, hbest, rfl⟩ | ⟨a, _, rfl⟩ := State.finishRead_next h
    · exact ⟨rfl, htb, htl, hfit, best, hbest, rfl⟩
    · rw [State.raise_lastErr] at he
      exact absurd he (by decide)

/-! ### The extensions of a block as numbers (43_best_match.md R160 and R161) -/

/-- The left extension of the block at reference offset `off`. -/
def State.leftExt (s : State) (off : Nat) (tgt : Target) : Nat :=
  (List.range (min off (tgt.tp - tgt.tb))).findIdx fun k =>
    Memory.read s.mem (s.ixRefBase.toNat + off - 1 - k) != Memory.read s.mem (tgt.tp - 1 - k)

/-- The right extension of the block at reference offset `off`. -/
def State.rightExt (s : State) (off : Nat) (tgt : Target) : Nat :=
  (List.range (min (s.ixRefLen.toNat - (off + s.rhW.toNat)) (tgt.tl - s.rhW.toNat))).findIdx fun k =>
    Memory.read s.mem (s.ixRefBase.toNat + off + s.rhW.toNat + k) != Memory.read s.mem (tgt.tp + s.rhW.toNat + k)

/-- Below `n`, the first number at which a test holds, or `n`. -/
theorem findIdx_range_eq_iff {p : Nat → Bool} {n e : Nat} :
    (List.range n).findIdx p = e ↔ e ≤ n ∧ (∀ j, j < e → p j = false) ∧ (e < n → p e = true) := by
  rcases lt_trichotomy e n with hlt | rfl | hgt
  · rw [List.findIdx_eq (by rwa [List.length_range])]
    simp only [List.getElem_range, hlt, hlt.le, true_and, forall_true_left, and_comm]
  · conv_lhs => rhs; rw [← List.length_range (n := e)]
    simp only [List.findIdx_eq_length, List.mem_range, le_refl, lt_irrefl, true_and, false_implies, and_true]
  · refine ⟨fun he => absurd (he ▸ List.findIdx_le_length) ?_, fun he => absurd he.1 hgt.not_ge⟩
    rwa [List.length_range, not_le]

theorem isLeftExt_iff {off e : Nat} : s.IsLeftExt off tgt.tp tgt.tb e ↔ s.leftExt off tgt = e := by
  simp only [State.leftExt, findIdx_range_eq_iff, State.IsLeftExt, bne_eq_false_iff_eq, bne_iff_ne]

theorem isRightExt_iff {off e : Nat} : s.IsRightExt off tgt.tp tgt.tl e ↔ s.rightExt off tgt = e := by
  simp only [State.rightExt, findIdx_range_eq_iff, State.IsRightExt, bne_eq_false_iff_eq, bne_iff_ne]

/-- The match that block `b` gives once it is verified (43_best_match.md R162). -/
def State.matchOf (s : State) (tgt : Target) (b : Nat) : Match :=
  let off := b * s.rhW.toNat
  { block := BitVec.ofNat 32 b
    sourceOffset := off - s.leftExt off tgt
    targetOffset := (tgt.tp - tgt.tb) - s.leftExt off tgt
    length := s.rhW.toNat + s.leftExt off tgt + s.rightExt off tgt }

theorem candidate_eq_matchOf {c : Word}
    (hl : AllReadable s.platform (s.leftReads (c.toNat * s.rhW.toNat) tgt.tp tgt.tb))
    (hr : AllReadable s.platform (s.rightReads (c.toNat * s.rhW.toNat) tgt.tp tgt.tl)) :
    s.candidate c tgt = .ok (s.matchOf tgt c.toNat) := by
  obtain ⟨le, re, hle, hre, hc⟩ := candidate_reads hl hr
  obtain rfl := isLeftExt_iff.1 hle
  obtain rfl := isRightExt_iff.1 hre
  rw [hc, State.matchOf, BitVec.ofNat_toNat, BitVec.setWidth_eq]

/-! ### The selector over readable reads (43_best_match.md R163 to R165) -/

/-- Without a match among the first 16 blocks of a chain, a scan of it finds none. -/
theorem scan_finds_none {tp : Nat} {c : Word} {chain : List Nat} (hw : s.Walk chain c)
    (hr : AllReadable s.platform (s.lookupReads tp chain)) (hnone : (chain.take 16).find? (s.blockMatches tp) = none) :
    ∃ probes, s.scan tp Config.maxProbes c = .ok (noneWord, probes) := by
  have hverify : ∀ b ∈ s.compared tp chain, s.verify b tp = .ok (s.blockMatches tp b) :=
    fun b hb => verify_reads fun a ha => hr a (List.mem_flatMap_of_mem hb ha)
  have hscan := scan_ok tp _ Config.maxProbes c chain hw hverify
  rw [show (chain.take Config.maxProbes).find? (s.blockMatches tp) = none from hnone] at hscan
  exact ⟨_, hscan⟩

/-- Behind a block of a chain stands what the list holds behind it. -/
theorem walk_behind {b : Nat} : ∀ {chain : List Nat} {c : Word}, s.Walk chain c → b ∈ chain →
    s.Walk ((chain.dropWhile (· != b)).drop 1) (s.nextOf b)
  | x :: rest, _, ⟨_, _, hw⟩, hmem => by
    by_cases hx : x = b
    · subst hx
      simpa using hw
    · have hne : (x != b) = true := bne_iff_ne.2 hx
      rw [List.dropWhile_cons, if_pos hne]
      exact walk_behind hw ((List.mem_cons.1 hmem).resolve_left (Ne.symm hx))

/-- The selector's comparison is the library's, by length: a later one wins only if it is greater. -/
theorem better_matchOf (best : Option Nat) (b : Nat) :
    better (best.map (s.matchOf tgt)) (s.matchOf tgt b) =
      (List.argAux (fun x y => (s.matchOf tgt y).length < (s.matchOf tgt x).length) best b).map (s.matchOf tgt) := by
  cases best with
  | none => rfl
  | some x => exact (apply_ite (Option.map (s.matchOf tgt)) (_ < _) (some b) (some x)).symm

/-- Over readable reads the selector goes through the candidates enumerated, keeping the longest. -/
theorem bestFrom_reads : ∀ cap chain c (best : Option Nat), s.Walk chain c →
    AllReadable s.platform (s.bestReads tgt.tp tgt.tb tgt.tl cap chain) →
    s.bestFrom tgt cap c (best.map (s.matchOf tgt)) =
      .ok
        (((enumerate (s.blockMatches tgt.tp) cap chain).foldl
          (List.argAux fun x y => (s.matchOf tgt y).length < (s.matchOf tgt x).length) best).map (s.matchOf tgt))
  | 0, _, _, _, _, _ => rfl
  | cap + 1, chain, c, best, hw, hr => by
    simp only [State.bestReads] at hr
    obtain ⟨hscan, hr⟩ := allReadable_append.1 hr
    simp only [State.bestFrom, enumerate]
    cases hfind : (chain.take 16).find? (s.blockMatches tgt.tp) with
    | none =>
      obtain ⟨probes, hnone⟩ := scan_finds_none hw hscan hfind
      simp only [hnone, if_true, List.foldl_nil]
    | some b =>
      simp only [hfind] at hr
      obtain ⟨hext, hrest⟩ := allReadable_append.1 hr
      obtain ⟨hleft, hright⟩ := allReadable_append.1 hext
      obtain ⟨x, probes, hfound, rfl, hx, _⟩ := scan_finds Config.maxProbes chain c (follows_of_walk hw) hscan hfind
      have hmem : x.toNat ∈ chain := List.mem_of_mem_take (List.mem_of_find?_eq_some hfind)
      simp only [hfound, hx, if_false, candidate_eq_matchOf hleft hright, better_matchOf, List.foldl_cons]
      exact bestFrom_reads cap _ _ _ (walk_behind hw hmem) hrest

/-- Past its checks and over readable reads, IX_BEST reports the longest of the candidates enumerated from the chain. -/
theorem exec_ixBest_of_walk {chain : List Nat} (hv : s.ixValid = true) (htb : s.pend.a2.toNat ≤ s.pend.a1.toNat)
    (htl : s.rhW.toNat ≤ s.pend.a3.toNat) (hfit : s.pend.a1.toNat + s.pend.a3.toNat ≤ 2 ^ 32)
    (hw : s.Walk chain (s.firstOf s.pend.a0))
    (hr : AllReadable s.platform
      (s.bestReads s.pend.a1.toNat s.pend.a2.toNat s.pend.a3.toNat s.pend.maxcand.toNat chain)) :
    exec .ixBest s =
      .next
        (s.completeBest
          (((enumerate (s.blockMatches s.pend.a1.toNat) s.pend.maxcand.toNat chain).argmax
            fun b => (s.matchOf s.target b).length).map (s.matchOf s.target))) := by
  have hbest := bestFrom_reads (tgt := s.target) s.pend.maxcand.toNat chain _ none hw hr
  rw [Option.map_none] at hbest
  rw [exec_ixBest_selects hv htb htl hfit, hbest]
  rfl

/-- In a rising list the place of a number follows its size. -/
theorem le_of_idxOf_le {l : List Nat} (hl : l.Pairwise (· < ·)) {a b : Nat} (ha : a ∈ l) (hb : b ∈ l)
    (h : l.idxOf a ≤ l.idxOf b) : a ≤ b := by
  have hia := List.idxOf_lt_length_of_mem ha
  have hib := List.idxOf_lt_length_of_mem hb
  rcases h.lt_or_eq with hlt | heq
  · have := List.pairwise_iff_getElem.1 hl _ _ hia hib hlt
    rw [List.getElem_idxOf, List.getElem_idxOf] at this
    exact this.le
  · exact ((List.idxOf_inj ha).1 heq).le

/-! ### What a reported match is, whatever is readable (43_best_match.md R162 and R167) -/

/-- A match lies in the reference and in the target, begins as far before its block as before the window, and is equal. -/
structure State.Sound (s : State) (tgt : Target) (m : Match) : Prop where
  length : s.rhW.toNat ≤ m.length
  inReference : m.sourceOffset + m.length ≤ s.ixRefLen.toNat
  inTarget : tgt.tb + m.targetOffset + m.length ≤ tgt.tp + tgt.tl
  beforeWindow : m.targetOffset ≤ tgt.tp - tgt.tb
  sameDistance : (tgt.tp - tgt.tb) - m.targetOffset = m.block.toNat * s.rhW.toNat - m.sourceOffset
  beforeBlock : m.sourceOffset ≤ m.block.toNat * s.rhW.toNat
  same : s.sameBytes (s.ixRefBase.toNat + m.sourceOffset) (tgt.tb + m.targetOffset) m.length

theorem sameBytes_append {a b n k : Nat} (h : s.sameBytes a b n) (h' : s.sameBytes (a + n) (b + n) k) :
    s.sameBytes a b (n + k) := by
  intro j hj
  rcases lt_or_ge j n with hlt | hge
  · exact h j hlt
  · have := h' (j - n) (by omega)
    rwa [show a + n + (j - n) = a + j by omega, show b + n + (j - n) = b + j by omega] at this

/-- Bytes that are equal counted downward are equal from the lowest up. -/
theorem sameBytes_of_equalDown {n ra ta e : Nat} (hra : n ≤ ra) (hta : n ≤ ta) (h : s.equalDown n ra ta = .ok e) :
    e ≤ n ∧ s.sameBytes (ra - e) (ta - e) e := by
  obtain ⟨hle, heq⟩ := equalDown_inv _ _ _ _ h
  refine ⟨hle, fun k hk => ?_⟩
  have := heq (e - 1 - k) (by omega)
  rwa [show ra - 1 - (e - 1 - k) = ra - e + k by omega, show ta - 1 - (e - 1 - k) = ta - e + k by omega] at this

/-- A candidate that was extended is sound if its block equals the window and all lies in the two buffers. -/
theorem sound_of_candidate {c : Word} {m : Match} (hin : c.toNat * s.rhW.toNat + s.rhW.toNat ≤ s.ixRefLen.toNat)
    (htb : tgt.tb ≤ tgt.tp) (htl : s.rhW.toNat ≤ tgt.tl) (hwin : s.sameBytes (s.blockAddr c.toNat) tgt.tp s.rhW.toNat)
    (h : s.candidate c tgt = .ok m) : s.Sound tgt m := by
  simp only [State.candidate] at h
  split at h
  · cases h
  next le hle =>
  split at h
  · cases h
  next re hre =>
  cases h
  rw [State.blockAddr] at hwin
  obtain ⟨hle, hleft⟩ := sameBytes_of_equalDown (by omega) (by omega) hle
  obtain ⟨hre, hright⟩ := equalUp_inv _ _ _ _ hre
  constructor
  case same =>
    have hfrom : s.ixRefBase.toNat + (c.toNat * s.rhW.toNat - le) = s.ixRefBase.toNat + c.toNat * s.rhW.toNat - le := by omega
    have hto : tgt.tb + (tgt.tp - tgt.tb - le) = tgt.tp - le := by omega
    dsimp only
    rw [hfrom, hto, Nat.add_comm s.rhW.toNat le]
    refine sameBytes_append (sameBytes_append hleft ?_) ?_
    · rwa [Nat.sub_add_cancel (by omega), Nat.sub_add_cancel (by omega)]
    · rwa [← Nat.add_assoc, ← Nat.add_assoc, Nat.sub_add_cancel (by omega), Nat.sub_add_cancel (by omega)]
  all_goals
    dsimp only
    omega

/-- Of sound candidates the selector answers a sound one. -/
theorem bestFrom_sound (htb : tgt.tb ≤ tgt.tp) (htl : s.rhW.toNat ≤ tgt.tl) : ∀ cap chain c best r, s.Walk chain c →
    (∀ b ∈ chain, b * s.rhW.toNat + s.rhW.toNat ≤ s.ixRefLen.toNat) → (∀ m ∈ best, s.Sound tgt m) →
    s.bestFrom tgt cap c best = .ok r → ∀ m ∈ r, s.Sound tgt m
  | 0, _, _, _, _, _, _, hbest, h => by
    cases h
    exact hbest
  | cap + 1, chain, c, best, r, hw, hin, hbest, h => by
    simp only [State.bestFrom] at h
    split at h
    · cases h
    next x probes hscan =>
    split at h
    · cases h
      exact hbest
    next hx =>
    split at h
    · cases h
    next m hcand =>
    obtain ⟨pre, post, hchain, hpost⟩ := scan_found _ _ _ _ _ _ hw hscan hx
    obtain ⟨_, _, hwin⟩ := scan_answers _ _ _ _ _ hscan
    have hm : s.Sound tgt m := sound_of_candidate (hin _ (by simp [hchain])) htb htl (hwin hx) hcand
    refine bestFrom_sound htb htl cap post _ _ r hpost (fun b hb => hin b (by simp [hchain, hb])) ?_ h
    rcases better_eq best m with he | he <;> rw [he]
    · rintro _ ⟨⟩
      exact hm
    · exact hbest

/-! ### A buffer as its own target (43_best_match.md R168) -/

theorem kindAt_of_readable {p : Platform} {lo n a : Nat} (h : Readable p lo n) (hlo : lo ≤ a) (hhi : a < lo + n) :
    p.kindAt a = some .memory := by
  have := h (a - lo) (by omega)
  rwa [Nat.add_sub_cancel' hlo] at this

/-- A comparison between two readable ranges reads only readable bytes. -/
theorem allReadable_pairReads {p : Platform} {ra ta : Nat → Nat} {lo n lo' n' k : Nat} (h : Readable p lo n)
    (h' : Readable p lo' n') (hin : ∀ j, j < k → (lo ≤ ra j ∧ ra j < lo + n) ∧ lo' ≤ ta j ∧ ta j < lo' + n') :
    AllReadable p (s.pairReads ra ta k) := by
  intro a ha
  simp only [State.pairReads, List.mem_flatMap, List.mem_range, List.mem_cons, List.not_mem_nil, or_false] at ha
  obtain ⟨j, hj, ha⟩ := ha
  obtain ⟨⟨hlo, hhi⟩, hlo', hhi'⟩ := hin j (by omega)
  obtain rfl | rfl := ha
  · exact kindAt_of_readable h hlo hhi
  · exact kindAt_of_readable h' hlo' hhi'

/-- The selector reads the reference and the target only. -/
theorem allReadable_bestReads (htb : tgt.tb ≤ tgt.tp) (htl : s.rhW.toNat ≤ tgt.tl)
    (href : Readable s.platform s.ixRefBase.toNat s.ixRefLen.toNat)
    (htgt : Readable s.platform tgt.tb (tgt.tp + tgt.tl - tgt.tb)) :
    ∀ cap chain, (∀ b ∈ chain, b * s.rhW.toNat + s.rhW.toNat ≤ s.ixRefLen.toNat) →
      AllReadable s.platform (s.bestReads tgt.tp tgt.tb tgt.tl cap chain)
  | 0, _, _ => allReadable_nil _
  | cap + 1, chain, hin => by
    simp only [State.bestReads]
    refine allReadable_append.2 ⟨fun a ha => ?_, ?_⟩
    · obtain ⟨b, hb, ha⟩ := List.mem_flatMap.1 ha
      have := hin b (List.mem_of_mem_take (List.mem_of_mem_take hb))
      refine allReadable_pairReads href htgt (fun k hk => ?_) a ha
      rw [State.blockAddr]
      omega
    split
    · exact allReadable_nil _
    next c hc =>
    have := hin c (List.mem_of_mem_take (List.mem_of_find?_eq_some hc))
    refine allReadable_append.2 ⟨allReadable_append.2 ⟨?_, ?_⟩, ?_⟩
    · exact allReadable_pairReads href htgt fun k hk => by omega
    · exact allReadable_pairReads href htgt fun k hk => by omega
    · exact allReadable_bestReads htb htl href htgt cap _ fun b hb =>
        hin b ((List.dropWhile_suffix _).subset (List.mem_of_mem_drop hb))

/-! ### Where the selector starts (10_state.md R44) -/

/-- The bucket of a hash holds a rising chain of blocks that lie in the reference (10_state.md R44). -/
theorem State.IxInv.exists_walk_firstOf (h : s.IxInv) (hv : s.ixValid = true) (x : Word) :
    ∃ chain, s.Walk chain (s.firstOf x) ∧ chain.Pairwise (· < ·) ∧
      ∀ b ∈ chain, b * s.rhW.toNat + s.rhW.toNat ≤ s.ixRefLen.toNat := by
  obtain ⟨_, hgeo, hch⟩ := h hv
  obtain ⟨chain, hw, hrise, hidx, _⟩ := hch.chain _ (hgeo.bucket_lt x)
  exact ⟨chain, hw, hrise, fun b hb => hch.block_le hgeo (hidx b hb)⟩

theorem State.IxInv.firstOf_eq (h : s.IxInv) (hv : s.ixValid = true) (x : Word) :
    s.firstOf x = s.head (x.toNat % s.ixTblsiz.toNat) := by
  obtain ⟨_, hgeo, _⟩ := h hv
  rw [State.firstOf, hgeo.bucket_eq_mod]

end

/-! ### The statements -/

/-- Settles O51: a cap of 0 makes no scan. -/
theorem ixBestWithCapZeroReportsNone : Obligations.IxBestWithCapZeroReportsNone := by
  intro s hv htb htl hfit hcap
  rw [exec_ixBest_selects hv htb htl hfit, hcap]
  rfl

/-- Settles O49: the selector keeps the longest candidate, and the first of equals in a rising chain is the lowest-numbered. -/
theorem ixBestReportsTheLongestCandidate : Obligations.IxBestReportsTheLongestCandidate := by
  intro s hinv hv
  dsimp only
  intro htb htl hfit
  obtain ⟨chain, hw, hrise, _⟩ := hinv.ix.exists_walk_firstOf hv s.pend.a0
  refine ⟨chain, hinv.ix.firstOf_eq hv _ ▸ hw, fun hr hnone => ?_, fun hr hsome => ?_⟩
  · rw [exec_ixBest_of_walk hv htb htl hfit hw hr, hnone]
    rfl
  · refine ⟨fun b => s.leftExt (b * s.rhW.toNat) s.target, fun b => s.rightExt (b * s.rhW.toNat) s.target,
      fun b _ => ⟨isLeftExt_iff.2 rfl, isRightExt_iff.2 rfl⟩, ?_⟩
    obtain ⟨c, hc⟩ := Option.ne_none_iff_exists'.1
      (mt (List.argmax_eq_none (f := fun b => (s.matchOf s.target b).length)).1 hsome)
    have hmem := List.argmax_mem hc
    refine ⟨c, hmem, fun b hb => ?_, fun b hb heq => ?_, ?_⟩
    · have hle := List.le_of_mem_argmax hb hc
      simp only [State.matchOf] at hle ⊢
      omega
    · refine le_of_idxOf_le (enumerate_sorted _ _ _ hrise) hmem hb (List.index_of_argmax hc hb ?_)
      simp only [State.matchOf] at heq ⊢
      omega
    · rw [exec_ixBest_of_walk hv htb htl hfit hw hr, hc]
      rfl

/-- Settles O50: what the selector answers is sound, and its numbers fit the result registers. -/
theorem aReportedMatchLiesInBoundsAndIsEqual : Obligations.AReportedMatchLiesInBoundsAndIsEqual := by
  intro s t hinv h he hsome
  obtain ⟨hv, htb, htl, hfit, best, hbest, rfl⟩ := ixBest_success h he
  obtain ⟨chain, hw, _, hin⟩ := hinv.ix.exists_walk_firstOf hv s.pend.a0
  cases best with
  | none => exact absurd rfl hsome
  | some m =>
    have hsound : s.Sound s.target m := bestFrom_sound htb htl _ _ _ _ _ hw hin (by simp) hbest m rfl
    obtain ⟨hlen, href, htgt, hdst, hdist, hsrc, hsame⟩ := hsound
    have hbound := s.ixRefLen.isLt
    have hres1 : (BitVec.ofNat 32 m.sourceOffset).toNat = m.sourceOffset := Nat.mod_eq_of_lt (by omega)
    have hres2 : (BitVec.ofNat 32 m.targetOffset).toNat = m.targetOffset :=
      Nat.mod_eq_of_lt (hdst.trans_lt ((Nat.sub_le _ _).trans_lt s.pend.a1.isLt))
    have hres3 : (BitVec.ofNat 32 m.length).toNat = m.length := Nat.mod_eq_of_lt (by omega)
    simp only [State.completeBest, State.complete_res0, State.complete_res1, State.complete_res2, State.complete_res3, hres1,
      hres2, hres3]
    exact ⟨hlen, href, htgt, hdst, hdist, hsrc, hsame⟩

/-- Settles O52: block `b` extends to both ends of the buffer, and no candidate is longer. -/
theorem selfMatchSpansTheWholeBuffer : Obligations.SelfMatchSpansTheWholeBuffer := by
  intro s t b chain hinv hv hbase hwin hreach hfit hw hmem href htgt h
  obtain ⟨chain', hw', _, hin⟩ := hinv.ix.exists_walk_firstOf hv s.pend.a0
  obtain rfl := walk_unique hw (hinv.ix.firstOf_eq hv _ ▸ hw')
  have hb := hin b (enumerate_sub _ _ _ _ hmem).1
  have hdist : s.pend.a1.toNat - s.pend.a2.toNat = b * s.rhW.toNat := by rw [hwin, hbase, Nat.add_sub_cancel_left]
  have htb : s.pend.a2.toNat ≤ s.pend.a1.toNat := by rw [hwin, hbase]; exact Nat.le_add_right _ _
  have htl : s.rhW.toNat ≤ s.pend.a3.toNat := by omega
  obtain ⟨_, hw', _, hfound⟩ := ixBestReportsTheLongestCandidate s hinv hv htb htl hfit
  obtain rfl := walk_unique hw hw'
  obtain ⟨le, re, hext, c, hc, hlongest, _, hexec⟩ :=
    hfound (allReadable_bestReads (tgt := s.target) htb htl href htgt _ _ hin) (List.ne_nil_of_mem hmem)
  have hwhole : s.rhW.toNat + le c + re c = s.ixRefLen.toNat := by
    obtain ⟨⟨_, _, hleft⟩, ⟨_, _, hright⟩⟩ := hext b hmem
    have hleftEnd := not_lt.1 fun hlt => hleft hlt (by rw [hwin])
    have hrightEnd := not_lt.1 fun hlt => hright hlt (by rw [hwin])
    obtain ⟨⟨hlec, _⟩, ⟨hrec, _⟩⟩ := hext c hc
    have hbc := hlongest b hmem
    have hcin := hin c (enumerate_sub _ _ _ _ hc).1
    omega
  rw [hexec] at h
  cases h
  show BitVec.ofNat 32 (s.rhW.toNat + le c + re c) = s.ixRefLen
  rw [hwhole, BitVec.ofNat_toNat, BitVec.setWidth_eq]

end Sys2Proof.Machine

/-! ## Proofs of the statements about control (44_control.md) -/

namespace Sys2Proof.Machine

/-! ### A valid index stands on a configured window -/

/-- 44_control.md R186. -/
def State.IxImpliesRh (s : State) : Prop := s.ixValid = true → s.rhValid = true

/-- An error leaves RH_VALID alone and sets no valid bit (60_exceptions.md R242). -/
theorem State.IxImpliesRh.raise {s : State} (h : s.IxImpliesRh) (e : ErrKind) (info : Word) : (s.raise e info).IxImpliesRh := by
  intro hix
  rw [State.raise_ixValid] at hix
  split at hix
  next => cases hix
  next => exact h hix

/-- Only RH_INIT clears RH_VALID, and it clears IX_VALID with it; only IX_INIT sets IX_VALID, and only under RH_VALID. -/
theorem answer_keeps_ixImpliesRh {s t : State} {i : Instr} (h : s.IxImpliesRh) (ha : Answer s i t) : t.IxImpliesRh := by
  cases ha with
  | err | fault | invalid => exact h.raise _ _
  | ok => exact h
  | initBad => exact State.IxImpliesRh.raise (fun hix => absurd hix Bool.false_ne_true) _ _
  | initOk => exact fun _ => rfl
  | ixErr _ _ hrh | ixAlloc _ _ _ _ hrh | ixOk _ _ _ _ hrh => exact fun _ => hrh
  | add _ hix => exact fun _ => (State.append_rhValid _ _ _).trans (h hix)

theorem ixImpliesRh_kept : KeptByParts State.IxImpliesRh where
  turn := id
  access := id
  read _ := id
  overrun := id
  issue _ := id
  args _ _ _ _ _ := id
  store _ _ := id
  illegal w h := h.raise .illegalCommand w
  reset _ := fun hix => absurd hix Bool.false_ne_true
  command := answer_keeps_ixImpliesRh

/-- Settles O57, by the parts of a step. -/
theorem everyStepKeepsIxValidImpliesRhValid : Obligations.EveryStepKeepsIxValidImpliesRhValid :=
  fun _ _ => ixImpliesRh_kept.step

/-! ### The core's step -/

/-- The core runs the command it has latched, if no device stands in its read range (44_control.md R181, 20_memory.md R67). -/
theorem coreStep_command {s : State} {i : Instr} (hb : s.seq = .busy) (hd : decode s.pend.cmdword = .ok i)
    (hdev : s.deviceInReadRange = none) : s.coreStep = exec i s := by
  simp [State.coreStep, hb, hd, hdev]

theorem coreStep_illegal {s : State} {w : Word} (hb : s.seq = .busy) (hd : decode s.pend.cmdword = .error (.illegalCommand w)) :
    s.coreStep = .next (s.raise .illegalCommand w) := by
  simp [State.coreStep, hb, hd]

theorem raise_illegalCommand (s : State) (info : Word) : s.raise .illegalCommand info = s.errDone 7 info := rfl

/-- A word outside R82's table decodes to no command. -/
theorem decode_outside_table {w : Word}
    (h : w ∉ [0x00000001, 0x00000002, 0x00000003, 0x00000010, 0x00000011, 0x00000012, 0x00000013, 0x00000014]) :
    decode w = .error (.illegalCommand w) :=
  decode_illegal fun i hi => h (hi ▸ encode_mem_table i)

/-- Settles O4: the turn used up changes neither the latch nor what stands in the read range. -/
theorem coreStepRunsTheLatchedCommand : Obligations.CoreStepRunsTheLatchedCommand := by
  intro s i hb hm hd hdev
  have hnone : s.popTurn.deviceInReadRange = none :=
    (deviceInReadRange_popTurn s).trans (deviceInReadRange_none_iff.2 hdev)
  exact (step_core hb hm).trans (coreStep_command (s := s.popTurn) hb hd hnone)

/-- Settles O5: LAST_OP keeps what issue has put there. -/
theorem illegalWordCompletesWithCodeSeven : Obligations.IllegalWordCompletesWithCodeSeven := by
  intro s hb hm hw hlast
  rw [step_core hb hm, coreStep_illegal (s := s.popTurn) hb (decode_outside_table hw), raise_illegalCommand, ← hlast]
  rfl

/-! ### Register writes while IDLE -/

theorem writeOffset_regOffset (s : State) (r : Reg) (v : Word) : s.writeOffset (regOffset r) v = s.writeReg r v := by
  rw [State.writeOffset, regAt_regOffset]

/-- Every register stands in the block at an aligned offset (10_state.md R21). -/
theorem regOffset_aligned (r : Reg) : regOffset r < 0x100 ∧ regOffset r % 4 = 0 := by cases r <;> decide

theorem step_writeReg {s : State} {r : Reg} {v : Word} (h : s.hostDoes (.wr (s.platform.regBase + regOffset r) 4 v)) :
    step s = .next (s.afterHost.writeReg r v) := by
  obtain ⟨hlt, hal⟩ := regOffset_aligned r
  rw [step_wr h hlt hal, writeOffset_regOffset]

/-- While IDLE, a write to a register that R182 guards does what the register does and is not overrun (44_control.md R182, R183). -/
theorem step_writeReg_idle {s t : State} (r : Reg) {v : Word} (hi : s.seq = .idle)
    (ht : s.afterHost.writeReg r v = if s.busy then s.afterHost.overrun else t)
    (h : s.hostDoes (.wr (s.platform.regBase + regOffset r) 4 v)) : step s = .next t := by
  rw [step_writeReg h, ht, if_neg (Bool.eq_false_iff.1 ((State.busy_false_iff s).2 hi))]

/-- Settles O15, register by register. -/
theorem idleWriteSetsArgumentsAndCap : Obligations.IdleWriteSetsArgumentsAndCap := fun _ _ hi =>
  ⟨step_writeReg_idle .arg0 hi rfl, step_writeReg_idle .arg1 hi rfl, step_writeReg_idle .arg2 hi rfl,
    step_writeReg_idle .arg3 hi rfl, step_writeReg_idle .maxCand hi rfl⟩

/-- Settles O16: the write to CMD is an issue, and the opcode latched is the word's low byte. -/
theorem commandIssueLatchesArguments : Obligations.CommandIssueLatchesArguments := by
  intro s v hi hdoes
  have hissue : step s = .next (s.afterHost.issue v) := step_writeReg_idle .cmd hi rfl hdoes
  rw [hissue, State.issue, opField_eq_setWidth]
  rfl

end Sys2Proof.Machine

/-! ## Proofs of the statements about the reference host program (45_host_delta_encoder.md) -/

namespace Sys2Proof.Machine

/-- An Add within the data space appends the `n` bytes of data memory from `a` on (45_host_delta_encoder.md R212). -/
theorem addSerial_eq {m : List Host.Cell} {n a : Nat} {out : List Byte} (h : a + n ≤ addrSpace) :
    addSerial m n a out = some (out ++ (List.range n).map fun j => Memory.read m (a + j)) := by
  induction n generalizing a out with
  | zero => simp [addSerial]
  | succ n ih =>
    have hfirst : a < addrSpace := by omega
    have hrest : a + 1 + n ≤ addrSpace := by omega
    simp [addSerial, hfirst, ih hrest, List.range_succ_eq_map, Nat.add_assoc, Nat.add_comm 1]

theorem copySerial_succ {src n : Nat} {out : List Byte} (h : src < out.length) :
    copySerial (n + 1) src out = copySerial n (src + 1) (out ++ [out[src]]) := by
  simp [copySerial, h]

/-- The source offset stays behind the end of the output, since each byte copied lengthens it: so no byte is missing, and from the end
of the old output on the copy reads its own bytes. -/
theorem copySerial_appends {src n : Nat} {out : List Byte} (h : src < out.length) :
    ∃ more, copySerial n src out = some (out ++ more) ∧ more.length = n ∧
      ∀ j, j < n → more[j]? = (out ++ more)[src + j]? := by
  induction n generalizing src out with
  | zero => exact ⟨[], by simp [copySerial]⟩
  | succ n ih =>
    obtain ⟨more, hcopy, hlen, hbyte⟩ := ih (src := src + 1) (out := out ++ [out[src]]) (by simpa using h)
    rw [List.append_assoc, List.singleton_append] at hcopy hbyte
    refine ⟨out[src] :: more, (copySerial_succ h).trans hcopy, by rw [List.length_cons, hlen], fun j hj => ?_⟩
    cases j with
    | zero => simp [List.getElem?_append_left h, h]
    | succ j => simpa [Nat.add_assoc, Nat.add_comm 1] using hbyte j (Nat.lt_of_succ_lt_succ hj)

/-- Settles O60: an Add reads data memory only, a Copy what stands in the output, its own bytes included. -/
theorem replayAppendsByteByByte : Obligations.ReplayAppendsByteByByte := by
  intro m target out
  constructor
  · intro off n hspace
    refine ⟨_, addSerial_eq hspace, by simp, fun j hj => ?_⟩
    simp [hj]
  · intro src n hsrc
    exact copySerial_appends hsrc

end Sys2Proof.Machine

/-! ## Proofs of the statements about exceptions (60_exceptions.md) -/

namespace Sys2Proof.Machine

/-! ### Which byte a read stops at -/

/-- The address of the read that stopped. -/
def ReadStop.addr : ReadStop → Nat
  | .fails a => a
  | .device a => a

section
variable {s : State} {e : ReadStop}

theorem readByte_stop_lt {a : Nat} (ha : a < 2 ^ 32) (h : s.readByte a = .error e) : e.addr < 2 ^ 32 := by
  obtain ⟨rfl, _⟩ | ⟨rfl, _⟩ := State.readByte_error h <;> exact ha

/-- Reads of a range within the data space stop within the data space (20_memory.md R60). -/
theorem readBytes_stop_lt : ∀ n a, a + n ≤ 2 ^ 32 → s.readBytes n a = .error e → e.addr < 2 ^ 32
  | 0, _, _, h => nomatch h
  | n + 1, a, ha, h => by
    simp only [State.readBytes] at h
    split at h
    next hx => cases h; exact readByte_stop_lt (by omega) hx
    split at h
    next hrest => cases h; exact readBytes_stop_lt n (a + 1) (by omega) hrest
    next => cases h

theorem equalUp_stop_lt : ∀ n ra ta, ra + n ≤ 2 ^ 32 → ta + n ≤ 2 ^ 32 → s.equalUp n ra ta = .error e → e.addr < 2 ^ 32
  | 0, _, _, _, _, h => nomatch h
  | n + 1, ra, ta, hra, hta, h => by
    simp only [State.equalUp] at h
    split at h
    next hx => cases h; exact readByte_stop_lt (by omega) hx
    split at h
    next hy => cases h; exact readByte_stop_lt (by omega) hy
    split at h
    · split at h
      next hrest => cases h; exact equalUp_stop_lt n (ra + 1) (ta + 1) (by omega) (by omega) hrest
      next => cases h
    · cases h

/-- Downward the reads lie below the two start addresses. -/
theorem equalDown_stop_lt : ∀ n ra ta, ra ≤ 2 ^ 32 → ta ≤ 2 ^ 32 → s.equalDown n ra ta = .error e → e.addr < 2 ^ 32
  | 0, _, _, _, _, h => nomatch h
  | n + 1, ra, ta, hra, hta, h => by
    simp only [State.equalDown] at h
    split at h
    next hx => cases h; exact readByte_stop_lt (by omega) hx
    split at h
    next hy => cases h; exact readByte_stop_lt (by omega) hy
    split at h
    · split at h
      next hrest => cases h; exact equalDown_stop_lt n (ra - 1) (ta - 1) (by omega) (by omega) hrest
      next => cases h
    · cases h

/-- A comparison makes the reads of an upward extension, and answers whether all its bytes were equal. -/
theorem compareUp_eq_equalUp : ∀ n ra ta, s.compareUp n ra ta = (s.equalUp n ra ta).map (decide <| · = n)
  | 0, _, _ => rfl
  | n + 1, ra, ta => by
    simp only [State.compareUp, State.equalUp, compareUp_eq_equalUp n]
    cases s.readByte ra with
    | error e => rfl
    | ok x =>
      cases s.readByte ta with
      | error e => rfl
      | ok y =>
        by_cases hxy : x = y
        · simp only [hxy, if_true]
          cases s.equalUp n (ra + 1) (ta + 1) with
          | error e => rfl
          | ok k => simp [Except.map]
        · simp [hxy, Except.map]

theorem compareUp_stop_lt {n ra ta : Nat} (hra : ra + n ≤ 2 ^ 32) (hta : ta + n ≤ 2 ^ 32)
    (h : s.compareUp n ra ta = .error e) : e.addr < 2 ^ 32 := by
  rw [compareUp_eq_equalUp] at h
  cases hup : s.equalUp n ra ta with
  | ok k => rw [hup] at h; cases h
  | error e' => rw [hup] at h; cases h; exact equalUp_stop_lt n ra ta hra hta hup

/-! ### Within a reference that lies in the data space -/

variable (hbase : s.ixRefBase.toNat + s.ixRefLen.toNat ≤ 2 ^ 32)
include hbase

theorem scan_stop_lt {tp : Nat} (hwin : tp + s.rhW.toNat ≤ 2 ^ 32) : ∀ n c chain, s.Walk chain c →
    (∀ b ∈ chain, b * s.rhW.toNat + s.rhW.toNat ≤ s.ixRefLen.toNat) → s.scan tp n c = .error e → e.addr < 2 ^ 32
  | 0, _, _, _, _, h => nomatch h
  | n + 1, c, [], hw, _, h => by
    have hc : c = noneWord := hw
    simp [State.scan, hc] at h
  | n + 1, c, b :: rest, ⟨hc, hb, hw⟩, hin, h => by
    obtain ⟨hblock, hin⟩ := List.forall_mem_cons.1 hin
    simp only [State.scan, hc, if_false, hb] at h
    split at h
    next hv =>
      cases h
      exact compareUp_stop_lt (by rw [State.blockAddr]; omega) hwin hv
    next => cases h
    split at h
    next hrest => cases h; exact scan_stop_lt hwin n _ rest hw hin hrest
    next => cases h

variable {tgt : Target} (htl : s.rhW.toNat ≤ tgt.tl) (hfit : tgt.tp + tgt.tl ≤ 2 ^ 32)
include htl hfit

theorem candidate_stop_lt {c : Word} (hin : c.toNat * s.rhW.toNat + s.rhW.toNat ≤ s.ixRefLen.toNat)
    (h : s.candidate c tgt = .error e) : e.addr < 2 ^ 32 := by
  simp only [State.candidate] at h
  split at h
  next hl => cases h; exact equalDown_stop_lt _ _ _ (by omega) (by omega) hl
  split at h
  next hr => cases h; exact equalUp_stop_lt _ _ _ (by omega) (by omega) hr
  next => cases h

theorem bestFrom_stop_lt : ∀ cap c best chain, s.Walk chain c →
    (∀ b ∈ chain, b * s.rhW.toNat + s.rhW.toNat ≤ s.ixRefLen.toNat) → s.bestFrom tgt cap c best = .error e → e.addr < 2 ^ 32
  | 0, _, _, _, _, _, h => nomatch h
  | cap + 1, c, best, chain, hw, hin, h => by
    simp only [State.bestFrom] at h
    split at h
    next hscan => cases h; exact scan_stop_lt hbase (by omega) _ _ _ hw hin hscan
    next x probes hscan =>
    split at h
    · cases h
    next hx =>
    obtain ⟨pre, post, rfl, hpost⟩ := scan_found _ _ _ _ _ _ hw hscan hx
    split at h
    next hcand => cases h; exact candidate_stop_lt hbase htl hfit (hin _ (by simp)) hcand
    next => exact bestFrom_stop_lt cap _ _ post hpost (fun b hb => hin b (by simp [hb])) h

end

/-! ### Where a MemoryFault comes from -/

/-- Behind any block in range there is a chain of blocks that lie in the reference (10_state.md R44). -/
theorem State.IxInv.exists_walk_nextOf {s : State} (h : s.IxInv) (hv : s.ixValid = true) {b : Nat} (hb : b < s.ixNblk.toNat) :
    ∃ chain, s.Walk chain (s.nextOf b) ∧ ∀ x ∈ chain, x * s.rhW.toNat + s.rhW.toNat ≤ s.ixRefLen.toNat := by
  obtain ⟨_, hgeo, hch⟩ := h hv
  by_cases hidx : s.Indexed b
  · obtain ⟨k, ⟨hk, cs, hw, hmem⟩, _⟩ := hch.once b hidx
    obtain ⟨rest, hrest, hsub⟩ := walk_next hw hmem
    exact ⟨rest, hrest, fun x hx => hch.block_le hgeo (hch.indexed_of_mem hk hw (hsub hx))⟩
  · obtain ⟨hnext, _⟩ := hch.unindexed b hb hidx
    exact ⟨[], hnext, by simp⟩

/-- A completion whose code is not that of the check's error has passed the check. -/
theorem check_passed {c : Prop} [Decidable c] {u t : State} {k : ErrKind} {info : Word}
    {rest : Host.Outcome State Fault Refusal} (hcode : t.lastErr ≠ k.code)
    (h : (if c then .next (u.raise k info) else rest) = .next t) : ¬ c ∧ rest = .next t := by
  split at h
  · cases h; exact absurd rfl hcode
  next hc => exact ⟨hc, h⟩

/-- The check that stands first in a command, that its unit is valid (60_exceptions.md R236). -/
theorem valid_of_code {v : Bool} {s t : State} {rest : Host.Outcome State Fault Refusal} (hcode : t.lastErr ≠ 6)
    (h : (if v then rest else .next (s.raise .notConfigured 0)) = .next t) : v = true ∧ rest = .next t := by
  cases v with
  | false => cases h; exact absurd rfl hcode
  | true => exact ⟨rfl, h⟩

section
variable {s t : State} (he : t.lastErr = 9)
include he

/-- A reading command that ends with code 9 shows the address at which its read failed. -/
theorem kindAt_errInfo_of_finishRead {α : Type} {r : Except ReadStop α} {k : α → State} (hk : ∀ x, (k x).lastErr = 0)
    (hstop : ∀ e, r = .error e → s.Stops e) (hlt : ∀ e, r = .error e → e.addr < 2 ^ 32) (h : s.finishRead r k = .next t) :
    s.platform.kindAt t.errInfo.toNat = none := by
  obtain ⟨x, _, rfl⟩ | ⟨a, hr, rfl⟩ := State.finishRead_next h
  · exact absurd ((hk x).symm.trans he) (by decide)
  · have ha : a < 2 ^ 32 := hlt _ hr
    rw [State.raise_errInfo, BitVec.toNat_ofNat, Nat.mod_eq_of_lt ha]
    exact hstop _ hr

theorem rhHash_fault_kindAt (h : exec .rhHash s = .next t) : s.platform.kindAt t.errInfo.toNat = none := by
  obtain ⟨_, h⟩ := valid_of_code (by rw [he]; decide) h
  obtain ⟨htop, h⟩ := check_passed (by rw [he]; decide) h
  exact kindAt_errInfo_of_finishRead he (fun _ => rfl) (readBytes_stops s _ _)
    (fun _ => readBytes_stop_lt _ _ (not_passesTop htop)) h

variable (hix : s.IxInv)
include hix

theorem ixFirst_fault_kindAt (h : exec .ixFirst s = .next t) : s.platform.kindAt t.errInfo.toNat = none := by
  obtain ⟨hv, h⟩ := valid_of_code (by rw [he]; decide) h
  obtain ⟨htop, h⟩ := check_passed (by rw [he]; decide) h
  obtain ⟨_, ⟨_, hbase, _⟩, _⟩ := hix hv
  obtain ⟨chain, hw, _, hin⟩ := hix.exists_walk_firstOf hv s.pend.a0
  exact kindAt_errInfo_of_finishRead he (fun _ => rfl) (scan_stops s _ _ _)
    (fun _ => scan_stop_lt hbase (not_passesTop htop) _ _ chain hw hin) h

theorem ixNext_fault_kindAt (h : exec .ixNext s = .next t) : s.platform.kindAt t.errInfo.toNat = none := by
  obtain ⟨hv, h⟩ := valid_of_code (by rw [he]; decide) h
  obtain ⟨hb, h⟩ := check_passed (by rw [he]; decide) h
  obtain ⟨htop, h⟩ := check_passed (by rw [he]; decide) h
  obtain ⟨_, ⟨_, hbase, _⟩, _⟩ := hix hv
  obtain ⟨chain, hw, hin⟩ := hix.exists_walk_nextOf hv (not_le.1 hb)
  exact kindAt_errInfo_of_finishRead he (fun _ => rfl) (scan_stops s _ _ _)
    (fun _ => scan_stop_lt hbase (not_passesTop htop) _ _ chain hw hin) h

theorem ixBest_fault_kindAt (h : exec .ixBest s = .next t) : s.platform.kindAt t.errInfo.toNat = none := by
  obtain ⟨hv, h⟩ := valid_of_code (by rw [he]; decide) h
  obtain ⟨_, h⟩ := check_passed (by rw [he]; decide) h
  obtain ⟨htl, h⟩ := check_passed (by rw [he]; decide) h
  obtain ⟨htop, h⟩ := check_passed (by rw [he]; decide) h
  obtain ⟨_, ⟨_, hbase, _⟩, _⟩ := hix hv
  obtain ⟨chain, hw, _, hin⟩ := hix.exists_walk_firstOf hv s.pend.a0
  exact kindAt_errInfo_of_finishRead he (fun best => by cases best <;> rfl) (bestFrom_stops s _ _ _ _)
    (fun _ => bestFrom_stop_lt hbase (not_lt.1 htl) (not_passesTop htop) _ _ _ chain hw hin) h

end

theorem code_ne_nine {e : ErrKind} (h : e ≠ .memoryFault) : e.code ≠ 9 := by
  cases e with
  | memoryFault => exact absurd rfl h
  | _ => decide

/-- Of the shapes of a completion only a failed read's has code 9. -/
theorem Answer.of_code_nine {i : Instr} {s t : State} (h : Answer s i t) (he : t.lastErr = 9) :
    i ∈ [Instr.rhHash, .ixFirst, .ixNext, .ixBest] ∧ t = s.errDone 9 t.errInfo := by
  cases h with
  | fault _ a _ hi => exact ⟨hi, rfl⟩
  | err _ _ _ _ hk | ixErr _ _ _ _ hk => exact absurd he (code_ne_nine hk)
  | invalid | initBad | ixAlloc =>
    rw [State.raise_lastErr] at he
    exact absurd he (by decide)
  | ok | initOk | ixOk | add =>
    rw [State.complete_lastErr] at he
    exact absurd he (by decide)

/-- Settles O29: the invariant keeps every read in the data space, so ERRINFO holds the whole address. -/
theorem memoryFaultNamesAnInadmissibleByte : Obligations.MemoryFaultNamesAnInadmissibleByte := by
  intro i s t hinv h he
  obtain ⟨hi, ht⟩ := (answer h).of_code_nine he
  refine ⟨hi, ?_, ht⟩
  simp only [List.mem_cons, List.not_mem_nil, or_false] at hi
  obtain rfl | rfl | rfl | rfl := hi
  · exact rhHash_fault_kindAt he h
  · exact ixFirst_fault_kindAt he hinv.ix h
  · exact ixNext_fault_kindAt he hinv.ix h
  · exact ixBest_fault_kindAt he hinv.ix h

/-! ### What every completion leaves -/

/-- From `s` to `t` a command has completed, as a success or with one of the nine codes (60_exceptions.md R240 and R241). -/
def State.CompletesTo (s t : State) : Prop :=
  t.done = true ∧ t.seq = .idle ∧ t.ovr = s.ovr ∧
    ((t.lastErr = 0 ∧ t.errInfo = 0 ∧ t.err = s.err) ∨
      (1 ≤ t.lastErr.toNat ∧ t.lastErr.toNat ≤ 9 ∧ t.err = true ∧ t.res0 = 0 ∧ t.res1 = 0 ∧ t.res2 = 0 ∧ t.res3 = 0))

theorem code_bounds (e : ErrKind) : 1 ≤ e.code.toNat ∧ e.code.toNat ≤ 9 := by cases e <;> decide

section
variable {s u : State} (hovr : u.ovr = s.ovr)
include hovr

theorem completesTo_raise (e : ErrKind) (info : Word) : s.CompletesTo (u.raise e info) := by
  obtain ⟨hlo, hhi⟩ := code_bounds e
  exact ⟨rfl, rfl, hovr, .inr ⟨hlo, hhi, rfl, rfl, rfl, rfl, rfl⟩⟩

theorem completesTo_complete (herr : u.err = s.err) (r0 r1 r2 r3 : Word) : s.CompletesTo (u.complete r0 r1 r2 r3) :=
  ⟨rfl, rfl, hovr, .inl ⟨rfl, rfl, herr⟩⟩

end

/-- Settles O27, over the shapes of a completion: each is a success or an error of a state that holds OVR and ERR as before. -/
theorem everyCompletionIsASuccessOrAnError : Obligations.EveryCompletionIsASuccessOrAnError := by
  intro i s t h
  show s.CompletesTo t
  cases answer h with
  | err | fault | invalid | initBad | ixErr | ixAlloc => exact completesTo_raise rfl _ _
  | ok | initOk | ixOk => exact completesTo_complete rfl rfl _ _ _ _
  | add => exact completesTo_complete (State.append_ovr _ _ _) (State.append_err _ _ _) _ _ _ _

theorem code_ne_two_of_not_invalidatesIndex {e : ErrKind} (h : e.invalidatesIndex = false) : e.code ≠ 2 := by
  cases e with
  | invalidIndex => cases h
  | _ => decide

/-- Settles O31, over the shapes of a completion: InvalidIndex clears IX_VALID, and any other error's kind keeps the index. -/
theorem onlyInvalidIndexInvalidatesTheIndex : Obligations.OnlyInvalidIndexInvalidatesTheIndex := by
  intro i s t h hrh hix
  cases answer h with
  | err _ e info he =>
    refine ⟨rfl, fun hcode => absurd hcode (code_ne_two_of_not_invalidatesIndex he), fun _ => ?_⟩
    rw [State.raise_ixValid, he]
    rfl
  | fault => exact ⟨rfl, fun hcode => absurd hcode (by rw [State.raise_lastErr]; decide), fun _ => rfl⟩
  | invalid => exact ⟨rfl, fun _ => rfl, fun hcode => absurd rfl hcode⟩
  | ok => exact ⟨rfl, fun hcode => absurd hcode (by rw [State.complete_lastErr]; decide), fun _ => rfl⟩
  | initBad | initOk => exact absurd rfl hrh
  | ixErr | ixAlloc | ixOk => exact absurd rfl hix
  | add =>
    exact ⟨State.append_rhValid _ _ _, fun hcode => absurd hcode (by rw [State.complete_lastErr]; decide),
      fun _ => State.append_ixValid _ _ _⟩

/-! ### The first read that fails -/

/-- A lookup along the blocks at the start of its chain ends at the first of their reads that fails (60_exceptions.md R239). -/
theorem lookup_fails {s : State} {a : Nat} {start : Word} {blocks : List Nat} (hf : s.Follows blocks start)
    (h : FirstFailure s.platform (s.lookupReads s.pend.a1.toNat blocks) a) :
    s.lookup start = .next (s.errDone 9 (BitVec.ofNat 32 a)) := by
  rw [State.lookup, scan_fails Config.maxProbes blocks start hf h, State.finishRead_fails, raise_memoryFault]

/-- Settles O46: past its checks each command is a lookup or the selector, and these stop at the first read that fails. -/
theorem lookupFaultsAtTheFirstUnreadableByte : Obligations.LookupFaultsAtTheFirstUnreadableByte := by
  intro s blocks a hv
  dsimp only
  refine ⟨fun hfit hf h => ?_, fun hin hfit hf h => ?_, fun htb htl hfit hf h => ?_⟩
  · exact (exec_ixFirst_looksUp hv hfit).trans (lookup_fails hf h)
  · exact (exec_ixNext_looksUp hv hin hfit).trans (lookup_fails hf h)
  · rw [exec_ixBest_selects hv htb htl hfit, bestFrom_fails (t := s.target) _ blocks _ none hf h, State.finishRead_fails,
      raise_memoryFault]

/-! ### Nothing happens without a command, and a command is not disturbed -/

/-- Settles O6: while IDLE the core has no step to take. -/
theorem idleCoreKeepsAllState : Obligations.IdleCoreKeepsAllState := by
  intro s hi hcore
  have hb : s.popTurn.busy = false := (State.busy_false_iff s).2 hi
  rw [step_of_head hcore]
  simp only [State.takeTurn, State.coreStep, hb, Bool.false_eq_true, if_false]
  rfl

/-- While a command is pending, a write to a register that R182 guards is overrun. -/
theorem writeReg_overrun {s : State} {r : Reg} (v : Word) (hb : s.busy = true)
    (hr : r ∈ [Reg.cmd, .arg0, .arg1, .arg2, .arg3, .maxCand]) : s.writeReg r v = s.overrun := by
  cases r with
  | cmd | arg0 | arg1 | arg2 | arg3 | maxCand => exact if_pos hb
  | _ => exact absurd hr (by decide)

/-- Settles O14: the offsets are those of the registers that a pending command guards. -/
theorem writeWhileBusySetsOverrunOnly : Obligations.WriteWhileBusySetsOverrunOnly := by
  intro s off v hseq hdoes hoff
  have hregs : [0x000, 0x010, 0x014, 0x018, 0x01C, 0x034] =
      [Reg.cmd, .arg0, .arg1, .arg2, .arg3, .maxCand].map regOffset := rfl
  rw [hregs] at hoff
  obtain ⟨r, hr, rfl⟩ := List.mem_map.1 hoff
  have hb : s.afterHost.busy = true := (State.busy_iff s).2 hseq
  rw [step_writeReg hdoes, writeReg_overrun v hb hr]
  rfl

/-! ### The errors that the checks raise -/

/-- Settles O28: each command checks its unit first. -/
theorem commandOnAnInvalidUnitIsNotConfigured : Obligations.CommandOnAnInvalidUnitIsNotConfigured := by
  intro s
  simp only [List.forall_mem_cons, List.not_mem_nil, false_implies, implies_true, and_true]
  exact ⟨fun hv => ⟨exec_rhHash_notConfigured hv, exec_rhUpdate_notConfigured hv, exec_ixInit_notConfigured hv⟩,
    fun hv => ⟨exec_ixAdd_notConfigured hv, exec_ixFirst_notConfigured hv, exec_ixNext_notConfigured hv,
      exec_ixBest_notConfigured hv⟩⟩

/-- Settles O42: past the last block, out of range, and an IX_ADD elsewhere, which does nothing. -/
theorem invalidIndexClearsIxValid : Obligations.InvalidIndexClearsIxValid := fun _ hv =>
  ⟨exec_ixAdd_pastTheEnd hv, exec_ixNext_outOfRange hv, fun hidx => ⟨_, exec_ixAdd_noOp hv hidx, rfl, hv⟩⟩

/-- Either way in which ARG3 can be out of bounds (60_exceptions.md R238). -/
theorem exec_ixBest_badLength {s : State} (hv : s.ixValid = true) (htb : s.pend.a2.toNat ≤ s.pend.a1.toNat)
    (hbad : s.pend.a3.toNat < s.rhW.toNat ∨ 2 ^ 32 < s.pend.a1.toNat + s.pend.a3.toNat) :
    exec .ixBest s = .next (s.errDone 8 3) := by
  rcases lt_or_ge s.pend.a3.toNat s.rhW.toNat with hshort | htl
  · exact exec_ixBest_tooShort hv htb hshort
  · exact exec_ixBest_passesTop hv htb htl (hbad.resolve_left (not_lt.2 htl))

/-- Settles O45, row by row of R238's table. -/
theorem invalidArgumentNamesTheRejectedRegister : Obligations.InvalidArgumentNamesTheRejectedRegister := fun _ =>
  ⟨exec_rhHash_passesTop, exec_rhUpdate_droppedNotByte, exec_rhUpdate_addedNotByte, exec_ixInit_passesTop,
    exec_ixFirst_passesTop, exec_ixNext_passesTop, exec_ixBest_boundPastWindow, exec_ixBest_badLength⟩

end Sys2Proof.Machine

/-! ## Proofs of the statements about reset and hazards (70_reset_and_hazards.md) -/

namespace Sys2Proof.Machine

/-! ### A pending command completes -/

/-- A data map of plain memory alone puts a device nowhere (20_memory.md R63 and R67). -/
theorem kindAt_ne_device {p : Platform} (h : ∀ r ∈ p.dataMap, r.kind = .memory) (a : Nat) : p.kindAt a ≠ some .device := by
  intro hdev
  unfold Platform.kindAt at hdev
  split at hdev
  next =>
    obtain ⟨r, hr, hkind⟩ := Option.map_eq_some_iff.1 hdev
    rw [h r (List.mem_of_find?_eq_some hr)] at hkind
    cases hkind
  next => cases hdev

/-- With no device on the platform the core's step ends the pending command, whichever word is latched (44_control.md R181 and R184). -/
theorem coreStep_completes {s : State} (hb : s.seq = .busy) (hdev : ∀ a, s.platform.kindAt a ≠ some .device) :
    ∃ t, s.coreStep = .next t ∧ t.seq = .idle ∧ t.done = true := by
  cases hd : decode s.pend.cmdword with
  | ok i =>
    obtain ⟨t, ht⟩ := exec_total i s hdev
    obtain ⟨hdone, hidle, _⟩ := everyCompletionIsASuccessOrAnError i s t ht
    exact ⟨t, (coreStep_command hb hd (deviceInReadRange_none_iff.2 fun a _ => hdev a)).trans ht, hidle, hdone⟩
  | error e =>
    rw [decode_error hd] at hd
    exact ⟨_, coreStep_illegal hb hd, rfl, rfl⟩

/-- Settles O7: the core's turn takes the step that completes the command. -/
theorem pendingCommandCompletesInOneCoreStep : Obligations.PendingCommandCompletesInOneCoreStep := by
  intro s hb hm hmem
  rw [step_core hb hm]
  exact coreStep_completes (s := s.popTurn) hb (kindAt_ne_device hmem)

/-! ### Reset at any time -/

/-- A reset gives every register the value it has on a platform just reset (10_state.md R47). -/
theorem resetBlock_readReg (s : State) (r : Reg) : s.resetBlock.readReg r = (State.resetOn s.platform).readReg r := by
  cases r <;> rfl

theorem resetBlock_readOffset (s : State) (off : Nat) :
    s.resetBlock.readOffset off = (State.resetOn s.platform).readOffset off := by
  simp only [State.readOffset, resetBlock_readReg]

/-- What a register reads after a reset is its value in R21's table. -/
theorem resetBlock_readOffset_of_mem (s : State) (off : Nat) (w : Word) (h : (off, w) ∈ resetValues s.platform) :
    s.resetBlock.readOffset off = w :=
  (resetBlock_readOffset s off).trans (everyRegisterHasItsResetValue _ _ _ h).1

/-- Settles O9: the write to CTRL with SRST set is a reset, whatever SEQ is. -/
theorem softResetActsAtAnyTime : Obligations.SoftResetActsAtAnyTime := by
  intro s v hdoes hsrst
  have hstep : step s = .next (s.afterHost.writeCtrl v) := step_writeReg (r := .ctrl) hdoes
  rw [State.writeCtrl, if_pos hsrst] at hstep
  exact ⟨_, hstep, rfl, rfl, rfl, resetBlock_readOffset_of_mem s.afterHost, rfl, rfl, rfl, rfl⟩

/-- Settles O10: the reset input's turn is a reset. -/
theorem hardResetActsAtAnyTime : Obligations.HardResetActsAtAnyTime := fun s hreset =>
  ⟨s.popTurn.resetBlock, step_of_head hreset, rfl, resetBlock_readOffset_of_mem s.popTurn, rfl, rfl, rfl, rfl⟩

end Sys2Proof.Machine
